-- ==== Sys2Proof/Word.lean ====
section
/-! DEFINITION. The widths of the spec's types (00_scope.md R9): u8, u32 and u6. -/

namespace Sys2Proof

/-- `u8`: a byte, bits 7 (most significant) to 0 (R8, R9). -/
abbrev Byte := BitVec 8

/-- `u32`: the width of every host register that counts bytes or pixels (R9, R34), and of the cursors (CURSOR_BITS = 32,
R7). -/
abbrev U32 := BitVec 32

/-- `u6`: the number of a pixel-cache slot, 0..63 (R9, R21). -/
abbrev Slot := BitVec 6

end Sys2Proof
end

