-- ==== Sys2Proof/Config.lean ====
section
/-! DEFINITION. The constants the source fixes (00_scope.md R6), the parameters the spec takes a value for (R7),
and the free values: constants without a body, so that no proof can see what they are. -/

namespace Sys2Proof

/-- The two engines of the block (10_state.md R20). -/
inductive Engine where
  | enc
  | dec
  deriving DecidableEq, Repr, Inhabited

namespace Config

/-- RUN_MAX: the longest run one RUN chunk carries (R6). -/
abbrev runMax : Nat := 62

/-- MAX_PIXELS: the constant of the pixel-count bound check (R6, R224). -/
abbrev maxPixels : Nat := 400000000

/-- HEADER_SIZE in bytes (R6). -/
abbrev headerSize : Nat := 14

/-- MARKER_SIZE in bytes (R6). -/
abbrev markerSize : Nat := 8

/-- MAGIC: the text "qoif". The four byte values are the ASCII codes (R92), which the spec itself marks as
general knowledge (93_implementation_defined.md G1; log entry 17). -/
def magic : List Byte := [0x71, 0x6F, 0x69, 0x66]

/-- END_MARKER: seven 0x00 bytes, then one 0x01 byte (R6, R93). -/
def endMarker : List Byte := [0, 0, 0, 0, 0, 0, 0, 1]

/-- REQCH_OWN: the REQCH value meaning "use the stream's own channel count" (R7, R39). -/
abbrev reqchOwn : Byte := 0

/-- DEC_RUN_CACHE_WRITE: whether DEC writes the cache when it executes a RUN chunk (R7, R190; log entry 8). -/
abbrev decRunCacheWrite : Bool := true

/-- CHECK_END_MARKER: whether DEC checks the 8 bytes after the last pixel (R7, R228; log entry 8). -/
abbrev checkEndMarker : Bool := true

/-- FREE VALUE (log entry 1). The engine that moves next when both can; the spec gives no order (R20). -/
opaque freeTurn : Nat → Engine

/-- FREE VALUE (log entry 9). What the host reads from a result register that the spec calls unspecified at that
moment (R41, R262; U8, U11). -/
opaque freeRegister : Nat → BitVec 32

/-- FREE VALUE (log entry 9). What the host reads from an output byte that the spec gives no value at that moment
(R41, R78; U8, U9). -/
opaque freeByte : Nat → Byte

end Config

end Sys2Proof
end

