-- ==== Sys2Proof/Syntax.lean ====
section
/-! DEFINITION. The records of the stream (30_encoding.md R90), one constructor per row of the opcode table, with
the operands of R108: signed where the spec writes them signed. -/

namespace Sys2Proof

/-- A record of the stream. -/
inductive Instr where
  /-- `RGB r, g, b`: raw colour bytes, alpha kept (R99, R184). -/
  | rgb (r g b : Byte)
  /-- `RGBA r, g, b, a`: raw bytes (R100, R185). -/
  | rgba (r g b a : Byte)
  /-- `INDEX s`: the pixel of cache slot `s` (R95, R186). -/
  | index (slot : Slot)
  /-- `DIFF dr, dg, db`: each delta −2..1 (R96, R187). -/
  | diff (dr dg db : Int)
  /-- `LUMA dg, dr−dg, db−dg`: `dg` −32..31, the differences −8..7 (R97, R188). -/
  | luma (dg drdg dbdg : Int)
  /-- `RUN n`: `n` more pixels equal to the previous one, 1..62 (R98, R189). -/
  | run (n : Nat)
  /-- `HEADER w, h, c, cs`: the framing record at stream offset 0 (R92, R221). -/
  | header (width height : U32) (channels colorspace : Byte)
  /-- `END`: the framing record after the last chunk (R93, R228). -/
  | endMarker
  deriving DecidableEq, Repr

/-- The length of a record in bytes (R90). -/
def Instr.length : Instr → Nat
  | .rgb _ _ _ => 4
  | .rgba _ _ _ _ => 5
  | .index _ => 1
  | .diff _ _ _ => 1
  | .luma _ _ _ => 2
  | .run _ => 1
  | .header _ _ _ _ => 14
  | .endMarker => 8

end Sys2Proof
end

