-- ==== Sys2Proof/WellFormed.lean ====
section
/-! DEFINITION. The operand ranges of the records (30_encoding.md R101, R108). A HEADER with illegal field values
is a well-formed record: DEC.start rejects it with a cause (43_framing.md R226). -/

namespace Sys2Proof

/-- A DIFF delta: −2..1 (R96). -/
def fitsTwoBits (d : Int) : Bool := -2 ≤ d && d ≤ 1

/-- A LUMA green delta: −32..31 (R97). -/
def fitsSixBits (d : Int) : Bool := -32 ≤ d && d ≤ 31

/-- A LUMA difference from the green delta: −8..7 (R97). -/
def fitsFourBits (d : Int) : Bool := -8 ≤ d && d ≤ 7

/-- Every operand lies in the range its field can hold (R101, R108). -/
def Instr.wf : Instr → Bool
  | .rgb _ _ _ => true
  | .rgba _ _ _ _ => true
  | .index _ => true
  | .diff dr dg db => fitsTwoBits dr && fitsTwoBits dg && fitsTwoBits db
  | .luma dg drdg dbdg => fitsSixBits dg && fitsFourBits drdg && fitsFourBits dbdg
  | .run n => 1 ≤ n && n ≤ 62
  | .header _ _ _ _ => true
  | .endMarker => true

end Sys2Proof
end

