-- ==== Sys2Proof/Decode.lean ====
section
/-! DEFINITION. The decoder of the stream's records, total on any bytes, and after it the encoder, both written
from the layouts of 30_encoding.md. A record is recognised by the position it stands at (R93: END has no tag of its
own; HEADER stands at offset 0 only), a chunk by its first byte (R102, R103). -/

namespace Sys2Proof

/-- Where in the stream the decoder stands: before the header, in the chunk sequence, or after the chunk that
produced the last pixel (R91, R93). -/
inductive Position where
  | header
  | chunk
  | endMarker
  deriving DecidableEq, Repr

/-- Why bytes are no record at a position. -/
inductive DecodeError where
  /-- The bytes end before the record does (R183, R260). -/
  | truncated
  /-- Bytes 0..3 are not the magic (R259). -/
  | badMagic
  /-- The 8 bytes are not the end marker (R261). -/
  | badMarker
  deriving DecidableEq, Repr

/-- The position a record stands at (R91). -/
def Instr.position : Instr → Position
  | .rgb _ _ _ => .chunk
  | .rgba _ _ _ _ => .chunk
  | .index _ => .chunk
  | .diff _ _ _ => .chunk
  | .luma _ _ _ => .chunk
  | .run _ => .chunk
  | .header _ _ _ _ => .header
  | .endMarker => .endMarker

/-- The field of `len` bits whose least significant bit is bit `lo` of `b`, as an unsigned number (R8, R101). -/
def field (b : Byte) (lo len : Nat) : Nat := (b.extractLsb' lo len).toNat

/-- A field read back through its bias (R10, R101). -/
def unbias (stored bias : Nat) : Int := (stored : Int) - (bias : Int)

/-- The length of a chunk, a function of its first byte alone (R104). -/
def chunkLength (b0 : Byte) : Nat :=
  if b0 = 0xFE then 4
  else if b0 = 0xFF then 5
  else if field b0 6 2 = 2 then 2
  else 1

/-- A chunk at the front of a byte sequence, dispatched in the order of R103: the 8-bit tags, then the 2-bit tag. -/
def decodeChunk : List Byte → Except DecodeError (Instr × List Byte)
  | [] => .error .truncated
  | b0 :: rest =>
    if b0 = 0xFE then
      match rest with
      | r :: g :: b :: rest => .ok (.rgb r g b, rest)
      | _ => .error .truncated
    else if b0 = 0xFF then
      match rest with
      | r :: g :: b :: a :: rest => .ok (.rgba r g b a, rest)
      | _ => .error .truncated
    else if field b0 6 2 = 0 then
      .ok (.index (b0.extractLsb' 0 6), rest)
    else if field b0 6 2 = 1 then
      .ok (.diff (unbias (field b0 4 2) 2) (unbias (field b0 2 2) 2) (unbias (field b0 0 2) 2), rest)
    else if field b0 6 2 = 2 then
      match rest with
      | b1 :: rest =>
        .ok (.luma (unbias (field b0 0 6) 32) (unbias (field b1 4 4) 8) (unbias (field b1 0 4) 8), rest)
      | _ => .error .truncated
    else
      .ok (.run (field b0 0 6 + 1), rest)

/-- `be32dec`: the big-endian 32-bit integer of four bytes (R10, R63). -/
def be32dec (b0 b1 b2 b3 : Byte) : U32 :=
  BitVec.ofNat 32 (b0.toNat * 2 ^ 24 + b1.toNat * 2 ^ 16 + b2.toNat * 2 ^ 8 + b3.toNat)

/-- The header record (R92, R221). Fewer than 14 bytes are a truncation whatever they hold (R240). -/
def decodeHeader : List Byte → Except DecodeError (Instr × List Byte)
  | m0 :: m1 :: m2 :: m3 :: w0 :: w1 :: w2 :: w3 :: h0 :: h1 :: h2 :: h3 :: c :: cs :: rest =>
    if [m0, m1, m2, m3] = Config.magic then
      .ok (.header (be32dec w0 w1 w2 w3) (be32dec h0 h1 h2 h3) c cs, rest)
    else .error .badMagic
  | _ => .error .truncated

/-- The end marker (R93, R228). -/
def decodeMarker : List Byte → Except DecodeError (Instr × List Byte)
  | m0 :: m1 :: m2 :: m3 :: m4 :: m5 :: m6 :: m7 :: rest =>
    if [m0, m1, m2, m3, m4, m5, m6, m7] = Config.endMarker then .ok (.endMarker, rest)
    else .error .badMarker
  | _ => .error .truncated

/-- The record at the front of a byte sequence, with the bytes after it (R91, R110). -/
def decode : Position → List Byte → Except DecodeError (Instr × List Byte)
  | .header, bs => decodeHeader bs
  | .chunk, bs => decodeChunk bs
  | .endMarker, bs => decodeMarker bs

/-- `be32`: the four bytes of a 32-bit integer, most significant first (R10, R63). -/
def be32 (n : U32) : List Byte :=
  [n.extractLsb' 24 8, n.extractLsb' 16 8, n.extractLsb' 8 8, n.extractLsb' 0 8]

/-- The byte of an integer that the format's arithmetic keeps in 0..255 (R108, R164). -/
def byteOfInt (n : Int) : Byte := BitVec.ofInt 8 n

/-- The "assembler" of the format: the bytes of a record, by the table of R108. -/
def encode : Instr → List Byte
  | .rgb r g b => [0xFE, r, g, b]
  | .rgba r g b a => [0xFF, r, g, b, a]
  | .index slot => [slot.setWidth 8]
  | .diff dr dg db => [byteOfInt (0x40 + (dr + 2) * 16 + (dg + 2) * 4 + (db + 2))]
  | .luma dg drdg dbdg => [byteOfInt (0x80 + (dg + 32)), byteOfInt ((drdg + 8) * 16 + (dbdg + 8))]
  | .run n => [byteOfInt (0xC0 + ((n : Int) - 1))]
  | .header w h c cs => Config.magic ++ be32 w ++ be32 h ++ [c, cs]
  | .endMarker => Config.endMarker

/-- The bytes of a sequence of records, packed back to back (R91). -/
def assemble (is : List Instr) : List Byte := is.flatMap encode

/-- The pseudo-record `RUN* n`: what ENC emits for a run of `n` equal pixels that ends by being flushed (R109). -/
def runStar (n : Nat) : List Instr :=
  List.replicate (n / 62) (.run 62) ++ (if n % 62 = 0 then [] else [.run (n % 62)])

/-- The pixels a record stands for (R90). -/
def Instr.pixels : Instr → Nat
  | .run n => n
  | .header _ _ _ _ => 0
  | .endMarker => 0
  | .rgb _ _ _ => 1
  | .rgba _ _ _ _ => 1
  | .index _ => 1
  | .diff _ _ _ => 1
  | .luma _ _ _ => 1

/-- The listing of a chunk sequence that must account for `n` pixels (R110), with the bytes after it; `fuel` bounds
the number of chunks, and `n` of them always suffice. -/
def disassemble : (fuel n : Nat) → List Byte → Except DecodeError (List Instr × List Byte)
  | _, 0, bs => .ok ([], bs)
  | 0, _ + 1, _ => .error .truncated
  | fuel + 1, n + 1, bs =>
    match decodeChunk bs with
    | .error e => .error e
    | .ok (i, rest) =>
      match disassemble fuel (n + 1 - i.pixels) rest with
      | .error e => .error e
      | .ok (is, rest) => .ok (i :: is, rest)

/-- `n` bytes of a number, the least significant first: bit 0 of the number is bit 0 of the first byte. -/
def bytesOfNat : Nat → Nat → List Byte
  | 0, _ => []
  | n + 1, w => BitVec.ofNat 8 w :: bytesOfNat n (w / 256)

/-- The number the opcode table prints as HEADER's match ("0x716F6966 on bytes 0..3"). -/
def tableMagic : Nat := 0x716F6966

/-- How a word of `nbits` bits, numbered as the opcode table numbers them, lies in the stream, and at which position
(log entry 13). A word of 64 bits is END's row, one of 112 bits (or of 32 bits that hold the magic) is HEADER's,
every other word a chunk's. The table prints the match of its two framing rows with the first byte most significant;
a word in that order is laid out so. -/
def tableLayout (nbits w : Nat) : Position × List Byte :=
  let w := w % 2 ^ nbits
  let bytes := bytesOfNat 14 w
  let printed := Config.magic ++ bytesOfNat 10 (w / 2 ^ 32)
  if nbits = 64 then (.endMarker, if w = 1 then Config.endMarker else bytes.take 8)
  else if nbits = 112 || nbits = 32 then
    if bytes.take 4 = Config.magic then (.header, bytes)
    else if w % 2 ^ 32 = tableMagic then (.header, printed)
    else if nbits = 112 then (.header, bytes)
    else (.chunk, bytes.take 5)
  else (.chunk, bytes.take 5)

/-- The record the decoder reads from a word of the opcode table. -/
def decodeTableWord (nbits w : Nat) : Option Instr :=
  match decode (tableLayout nbits w).1 (tableLayout nbits w).2 with
  | .ok (i, _) => some i
  | .error _ => none

end Sys2Proof
end

