-- ==== Sys2Proof/Machine/State.lean ====
section
/-! DEFINITION. The architectural state of the block (10_state.md) as plain data, its value after power-on reset
(R46, R290), and the reasons a step can stop. -/

namespace Sys2Proof.Machine

/-- A pixel: four u8 fields. The packed scalar is never stored beside them (00_scope.md R9, R13). -/
structure Pixel where
  r : Byte
  g : Byte
  b : Byte
  a : Byte
  deriving DecidableEq, Repr

/-- The zero pixel, SLOT_INIT (R6, R21). -/
def Pixel.zero : Pixel := ⟨0, 0, 0, 0⟩

/-- Opaque black, PREV_INIT (R6, R22). -/
def Pixel.opaqueBlack : Pixel := ⟨0, 0, 0, 255⟩

/-- STATUS.PHASE (R38). -/
inductive Phase where
  /-- 0: no operation since reset. -/
  | idle
  /-- 1: busy. -/
  | body
  /-- 2: the last operation finished. -/
  | done
  /-- 3: the last operation failed. -/
  | failed
  deriving DecidableEq, Repr

/-- The failure causes, STATUS.ERR (60_exceptions.md R250). The code 0 is `none : Option Cause`; the codes 12 to 15
are never produced, and have no constructor. -/
inductive Cause where
  | empty
  | noDescriptor
  | zeroDim
  | channels
  | colorspace
  | tooManyPixels
  | reqChannels
  | badMagic
  | truncated
  | endMarker
  | pixbufSize
  deriving DecidableEq, Repr

/-- The failure classes, STATUS.ECLASS (R251). -/
inductive EClass where
  | none
  | invalidInput
  | format
  deriving DecidableEq, Repr

/-- STATUS of one engine (R38). The reserved bits are not stored: they read as 0. -/
structure Status where
  phase  : Phase
  err    : Option Cause
  eclass : EClass
  deriving DecidableEq, Repr

/-- The pixel cache PXC: exactly 64 slots, each always holding a pixel (R21). -/
abbrev Pxc := Vector Pixel 64

/-- One byte space (20_memory.md R60): offset and byte, offsets strictly rising; an offset that is not listed has no
value (log entry 5). -/
abbrev Memory := List Host.Cell

/-- The encoder engine: registers E0 to E8 (R34), the register file (R21, R22, R24), the cursors (R31, R32) and its
two byte spaces (R60). -/
structure Enc where
  /-- E0: a START the host has written and the start step has not yet taken (R233; log entry 3). -/
  ctrl       : BitVec 1
  /-- E1. -/
  status     : Status
  /-- E2. -/
  width      : U32
  /-- E3. -/
  height     : U32
  /-- E4. -/
  channels   : Byte
  /-- E5. -/
  colorspace : Byte
  /-- E6: 0 is the source's "descriptor pointer is absent" (R40). -/
  descValid  : BitVec 1
  /-- E7: bytes the host placed in PIX_IN (R40). -/
  pixLen     : U32
  /-- E8 (R41). Kept from START to DONE, where R46 and R293 call it unspecified (log entry 20). -/
  byteCount  : U32
  idx        : Pxc
  prev       : Pixel
  /-- Pixels equal to PREV that no RUN chunk stands for yet (R24). -/
  run        : BitVec 6
  /-- Index of the next pixel to consume, ENC's program counter (R31; CURSOR_BITS, R7). -/
  pxpos      : U32
  /-- Offset in STRM_OUT of the next byte to write (R32). -/
  opos       : U32
  /-- PIX_IN. -/
  pixIn      : Memory
  /-- STRM_OUT. -/
  strmOut    : Memory
  deriving DecidableEq, Repr

/-- The decoder engine: registers D0 to D9 (R34), the register file (R21, R22), the cursors (R30 to R32) and its two
byte spaces (R60). -/
structure Dec where
  /-- D0: a START the host has written and the start step has not yet taken (R233; log entry 3). -/
  ctrl       : BitVec 1
  /-- D1. -/
  status     : Status
  /-- D2. -/
  width      : U32
  /-- D3. -/
  height     : U32
  /-- D4. -/
  channels   : Byte
  /-- D5. -/
  colorspace : Byte
  /-- D6 (R39). -/
  reqch      : Byte
  /-- D7: bytes the host placed in STRM_IN (R40). -/
  inLen      : U32
  /-- D8 (R39). -/
  och        : Byte
  /-- D9 (R41). Kept from START to DONE, where R46 and R293 call it unspecified (log entry 20). -/
  outLen     : U32
  idx        : Pxc
  prev       : Pixel
  /-- Offset in STRM_IN of the next byte to consume, DEC's program counter (R30). -/
  ipos       : U32
  /-- Pixels produced so far (R31). -/
  pxpos      : U32
  /-- Offset in PIX_OUT of the next byte to write (R32). -/
  opos       : U32
  /-- STRM_IN, the program DEC executes (R30, R75). -/
  strmIn     : Memory
  /-- PIX_OUT. -/
  pixOut     : Memory
  deriving DecidableEq, Repr

/-- The block: two engines that share nothing (R20), and two fields of the model's own. -/
structure State where
  enc   : Enc
  dec   : Dec
  /-- The model's own: the engine that moves next when both can (log entry 1). -/
  turn  : Engine
  /-- The model's own: the number of free values drawn so far (log entries 1 and 9). -/
  fresh : Nat
  deriving DecidableEq, Repr

/-- Why the machine stops with a fault. -/
inductive Fault where
  /-- Raised by DEC's fetch and ENC's pixel fetch at an offset below the length register where the host has placed
  no byte: 70_reset_and_hazards.md R304 row 5 gives that no meaning (log entry 5). Safe: the machine stops. -/
  | absentInputByte
  deriving DecidableEq, Repr

/-- Why a move has no meaning. -/
inductive Refusal where
  /-- Raised by `exec` for an instruction that has no meaning yet. No arm raises it. -/
  | notModelled (mnemonic : String)
  /-- Raised by `step` and `hostWrite` for a START while PHASE = BODY: no meaning (R45, R304 row 1; log entry 4).
  Safe. -/
  | startWhileBusy
  /-- Raised by `hostWrite` for a write to an input of an engine that is busy: no meaning (R34, R304 row 1; log
  entry 4). Safe. -/
  | hostWriteWhileBusy
  /-- Raised by `exec` for a record of which DEC has no enabled step (R45; log entry 11). `step` never raises it.
  Safe. -/
  | recordNotEnabled
  deriving DecidableEq, Repr

/-- STATUS after reset: IDLE, no cause, no class (R46, R290). -/
def Status.reset : Status := ⟨.idle, none, .none⟩

/-- The cache after power-on reset. The spec leaves it unspecified; DESIGN CHOICE (log entry 6). -/
def Pxc.reset : Pxc := Vector.replicate 64 Pixel.zero

/-- ENC after power-on reset: STATUS and CTRL as R46 says; every other field DESIGN CHOICE (log entry 6). -/
def Enc.reset : Enc where
  ctrl := 0
  status := Status.reset
  width := 0
  height := 0
  channels := 0
  colorspace := 0
  descValid := 0
  pixLen := 0
  byteCount := 0
  idx := Pxc.reset
  prev := Pixel.zero
  run := 0
  pxpos := 0
  opos := 0
  pixIn := []
  strmOut := []

/-- DEC after power-on reset: STATUS and CTRL as R46 says; every other field DESIGN CHOICE (log entry 6). -/
def Dec.reset : Dec where
  ctrl := 0
  status := Status.reset
  width := 0
  height := 0
  channels := 0
  colorspace := 0
  reqch := 0
  inLen := 0
  och := 0
  outLen := 0
  idx := Pxc.reset
  prev := Pixel.zero
  ipos := 0
  pxpos := 0
  opos := 0
  strmIn := []
  pixOut := []

/-- The block right after power-on reset (R290): both engines quiet, nothing running. -/
def State.reset : State where
  enc := Enc.reset
  dec := Dec.reset
  turn := .enc
  fresh := 0

end Sys2Proof.Machine
end

