-- ==== Sys2Proof/Machine/Operands.lean ====
section
/-! DEFINITION. The operands of the steps: 8-bit arithmetic (00_scope.md R10), the hash (40_pixel_cache.md R120),
pixels as bytes (20_memory.md R61), the pixel count (R12), and the deltas of the encoder (41_chunk_encoder.md R150). -/

namespace Sys2Proof.Machine

/-- `add8`: 8-bit addition modulo 256 of any integer (R10). -/
def add8 (x : Byte) (d : Int) : Byte := x + BitVec.ofInt 8 d

/-- `sub8`: 8-bit subtraction modulo 256 (R10). -/
def sub8 (x y : Byte) : Byte := x - y

/-- `s8`: a byte read as a signed integer −128..127 (R10). -/
def s8 (v : Byte) : Int := v.toInt

/-- A 32-bit cursor moved on by `n` (R30 to R32). That no cursor ever wraps is a consequence of the checks (R224); the
operation itself wraps (DEDUCED, safe: log entry 7). -/
def cursorAdd (x : U32) (n : Nat) : U32 := x + BitVec.ofNat 32 n

/-- `hash(p) = (3 r + 5 g + 7 b + 11 a) mod 64`, over the naturals (R120). -/
def Pixel.hash (p : Pixel) : Slot :=
  BitVec.ofNat 6 (p.r.toNat * 3 + p.g.toNat * 5 + p.b.toNat * 7 + p.a.toNat * 11)

/-- The packed scalar of a pixel (R13). No rule depends on it. -/
def Pixel.scalar (p : Pixel) : U32 :=
  BitVec.ofNat 32 (p.r.toNat * 2 ^ 24 + p.g.toNat * 2 ^ 16 + p.b.toNat * 2 ^ 8 + p.a.toNat)

/-- The channel bytes of a pixel in a buffer of `c` channels: r, g, b, and a when `c = 4` (R61, R196). -/
def Pixel.bytes (p : Pixel) (c : Byte) : List Byte :=
  if c = 4 then [p.r, p.g, p.b, p.a] else [p.r, p.g, p.b]

/-- The pixel whose channel bytes were read; a 3-channel pixel takes the alpha of the previous pixel (R142). -/
def Pixel.ofBytes (prev : Pixel) : List Byte → Pixel
  | [r, g, b, a] => ⟨r, g, b, a⟩
  | [r, g, b] => ⟨r, g, b, prev.a⟩
  | _ => prev

/-- `N = WIDTH * HEIGHT`, over the naturals (R12; D25). -/
def pixelCount (width height : U32) : Nat := width.toNat * height.toNat

/-- ENC's N (R12). -/
def Enc.pixels (e : Enc) : Nat := pixelCount e.width e.height

/-- DEC's N (R12). -/
def Dec.pixels (d : Dec) : Nat := pixelCount d.width d.height

/-- The column and the row of pixel `i` (R12). The engines never use them. -/
def pixelPlace (width : U32) (i : Nat) : Nat × Nat := (i % width.toNat, i / width.toNat)

/-- The buffer sizes a host can compute before START: PIX_IN, STRM_OUT capacity, PIX_OUT (R243). -/
def bufferSizes (n : Nat) (channels och : Byte) : Nat × Nat × Nat :=
  (n * channels.toNat, n * (channels.toNat + 1) + 22, n * och.toNat)

/-- `dr`, `dg` or `db`: the signed difference of a channel to the previous pixel's, modulo 256 (R150). -/
def delta (cur prev : Byte) : Int := s8 (sub8 cur prev)

/-- `dr_dg` or `db_dg`: the difference of two deltas, reduced modulo 256 and read as signed (R150). -/
def deltaDiff (d dg : Int) : Int := s8 (BitVec.ofInt 8 (d - dg))

end Sys2Proof.Machine
end

