-- ==== Sys2Proof/Machine/Ops.lean ====
section
/-! DEFINITION. The shared operations: byte spaces (20_memory.md), the pixel cache (40_pixel_cache.md), taking a
failure (60_exceptions.md R262) and leaving one (R264), and the enabling of steps (10_state.md R45). -/

namespace Sys2Proof.Machine

/-! ### Byte spaces -/

/-- The byte at an offset, if the space holds one there (`MemRead(SPACE:off, 1)`, R11). -/
def Memory.read : Memory → Nat → Option Byte
  | [], _ => none
  | (k, v) :: m, a => if k = a then some v else Memory.read m a

/-- The space with one byte written (`MemWrite(SPACE:off, 1, v)`, R11). -/
def Memory.write : Memory → Nat → Byte → Memory
  | [], a, b => [(a, b)]
  | (k, v) :: m, a, b =>
    if a < k then (a, b) :: (k, v) :: m
    else if a = k then (a, b) :: m
    else (k, v) :: Memory.write m a b

/-- `MemRead(SPACE:off, n)`: the `n` bytes from an offset, the lowest offset first (R11). -/
def Memory.readBytes (m : Memory) : Nat → Nat → Option (List Byte)
  | _, 0 => some []
  | a, n + 1 =>
    match Memory.read m a, Memory.readBytes m (a + 1) n with
    | some b, some bs => some (b :: bs)
    | _, _ => none

/-- `MemWrite(SPACE:off, n, v)`: bytes written from an offset up, the first at the lowest offset (R11). -/
def Memory.writeBytes (m : Memory) : Nat → List Byte → Memory
  | _, [] => m
  | a, b :: bs => Memory.writeBytes (Memory.write m a b) (a + 1) bs

/-- The canonical form of a space: offsets strictly rising. Equal spaces in this form are equal lists. -/
abbrev Memory.wf (m : Memory) : Prop := List.Pairwise (fun x y => x.1 < y.1) m

/-! ### The pixel cache -/

/-- `PXC.clear` (R123): every slot the zero pixel. -/
def Pxc.clear : Pxc := Vector.replicate 64 Pixel.zero

/-- `PXC.read(s)` (R124). -/
def Pxc.read (c : Pxc) (s : Slot) : Pixel := getElem c s.toNat s.isLt

/-- The register write `IDX[s] <- p` (R11). -/
def Pxc.set (c : Pxc) (s : Slot) (p : Pixel) : Pxc := Vector.set c s.toNat p s.isLt

/-- `PXC.insert(p)` (R126): `IDX[hash(p)] <- p`, unconditionally. -/
def Pxc.insert (c : Pxc) (p : Pixel) : Pxc := Pxc.set c (Pixel.hash p) p

/-- `PXC.probe(p)` (R125): the slot `hash(p)` and whether it holds `p`. -/
def Pxc.probe (c : Pxc) (p : Pixel) : Slot × Bool := (Pixel.hash p, decide (Pxc.read c (Pixel.hash p) = p))

/-! ### STATUS and failures -/

/-- The code of a phase (R38). -/
def Phase.code : Phase → BitVec 2
  | .idle => 0
  | .body => 1
  | .done => 2
  | .failed => 3

/-- The code of a failure cause in STATUS.ERR (R250). -/
def Cause.code : Cause → BitVec 4
  | .empty => 1
  | .noDescriptor => 2
  | .zeroDim => 3
  | .channels => 4
  | .colorspace => 5
  | .tooManyPixels => 6
  | .reqChannels => 7
  | .badMagic => 8
  | .truncated => 9
  | .endMarker => 10
  | .pixbufSize => 11

/-- The code of a class in STATUS.ECLASS (R38, R251). -/
def EClass.code : EClass → BitVec 2
  | .none => 0
  | .invalidInput => 1
  | .format => 2

/-- The class of a cause, a function of the cause alone (R251). -/
def Cause.eclass : Cause → EClass
  | .empty => .invalidInput
  | .noDescriptor => .invalidInput
  | .zeroDim => .invalidInput
  | .channels => .invalidInput
  | .colorspace => .invalidInput
  | .tooManyPixels => .invalidInput
  | .reqChannels => .invalidInput
  | .badMagic => .format
  | .truncated => .format
  | .endMarker => .format
  | .pixbufSize => .invalidInput

/-- STATUS as the 16-bit word the host reads: PHASE in bits 1:0, ERR in 7:4, ECLASS in 9:8, the rest 0 (R38). -/
def Status.word (t : Status) : BitVec 16 :=
  (0#6 ++ t.eclass.code ++ (match t.err with | none => 0#4 | some c => c.code) ++ 0#2 ++ t.phase.code).cast rfl

/-- STATUS after a failure: the cause, its class, PHASE = FAILED (R262). -/
def Status.fail (c : Cause) : Status := ⟨.failed, some c, c.eclass⟩

/-- STATUS of a running operation: ERR and ECLASS cleared (R231, R232). -/
def Status.running : Status := ⟨.body, none, .none⟩

/-- STATUS of a finished operation (R38, R227, R228). -/
def Status.finished : Status := ⟨.done, none, .none⟩

/-- Taking a failure on ENC (R262): STATUS is written, a pending START is taken, and nothing else changes. -/
def Enc.fail (e : Enc) (c : Cause) : Enc := { e with ctrl := 0, status := Status.fail c }

/-- Taking a failure on DEC (R262): STATUS is written, a pending START is taken, and nothing else changes. -/
def Dec.fail (d : Dec) (c : Cause) : Dec := { d with ctrl := 0, status := Status.fail c }

/-! ### Which step is enabled -/

/-- What an engine may do next (R45). -/
inductive Action where
  /-- the start step -/
  | start
  /-- `ENC.pixel` or `DEC.chunk` -/
  | body
  /-- the end step -/
  | finish
  /-- a START stands while PHASE = BODY: no meaning (R45; log entry 4) -/
  | clash
  deriving DecidableEq, Repr

/-- The enabling conditions of R45: `n` is the pixel count. Outside BODY only START moves an engine. -/
def enabledAction (status : Status) (ctrl : BitVec 1) (pxpos n : Nat) : Option Action :=
  match status.phase with
  | .body =>
    if ctrl = 1 then some .clash
    else if pxpos < n then some .body
    else if pxpos = n then some .finish
    else none
  | .idle => if ctrl = 1 then some .start else none
  | .done => if ctrl = 1 then some .start else none
  | .failed => if ctrl = 1 then some .start else none

/-- ENC's enabled step (R45). -/
def Enc.action (e : Enc) : Option Action := enabledAction e.status e.ctrl e.pxpos.toNat e.pixels

/-- DEC's enabled step (R45). -/
def Dec.action (d : Dec) : Option Action := enabledAction d.status d.ctrl d.pxpos.toNat d.pixels

/-- The engine that moves: the one that can, and when both can, the one whose turn it is (R20; log entry 1). -/
def State.mover (s : State) : Option Engine :=
  match s.enc.action, s.dec.action with
  | none, none => none
  | some _, none => some .enc
  | none, some _ => some .dec
  | some _, some _ => some s.turn

/-! ### Descriptor checks shared by both start steps -/

/-- The pixel-count bound check, with floor division (R224). -/
def tooManyPixels (width height : U32) : Bool := Config.maxPixels / width.toNat ≤ height.toNat

/-- The descriptor checks in their order: ENC's tests 3 to 6 and DEC's tests 5 to 8 (R225, R226). -/
def descriptorCheck (width height : U32) (channels colorspace : Byte) : Option Cause :=
  if width = 0 ∨ height = 0 then some .zeroDim
  else if ¬(channels = 3 ∨ channels = 4) then some .channels
  else if ¬(colorspace = 0 ∨ colorspace = 1) then some .colorspace
  else if tooManyPixels width height = true then some .tooManyPixels
  else none

/-! ### Results of one engine's step as results of the block -/

/-- A step of ENC is a step of the block that leaves DEC alone (R20). -/
def State.withEnc (s : State) : Host.Outcome Enc Fault Refusal → Host.Outcome State Fault Refusal
  | .next e => .next { s with enc := e }
  | .fault f => .fault f
  | .refused r => .refused r

/-- A step of DEC is a step of the block that leaves ENC alone (R20). -/
def State.withDec (s : State) : Host.Outcome Dec Fault Refusal → Host.Outcome State Fault Refusal
  | .next d => .next { s with dec := d }
  | .fault f => .fault f
  | .refused r => .refused r

/-- After a step, whose turn comes next is a free value (log entry 1). -/
def State.passTurn (s : State) : State := { s with turn := Config.freeTurn s.fresh, fresh := s.fresh + 1 }

/-- `passTurn` on a step's outcome. -/
def passTurn : Host.Outcome State Fault Refusal → Host.Outcome State Fault Refusal
  | .next s => .next s.passTurn
  | .fault f => .fault f
  | .refused r => .refused r

end Sys2Proof.Machine
end

