-- ==== Sys2Proof/Machine/Flags.lean ====
section
/-! DEFINITION. The block has no flags (10_state.md R33). These are the predicates that table lists: computed inside
one step of ENC and never stored. -/

namespace Sys2Proof.Machine

/-- `same`: `CUR = PREV`. -/
def same (cur prev : Pixel) : Bool := decide (cur = prev)

/-- `hit`: `IDX[hash(CUR)] = CUR` (R125, R148). -/
def hit (idx : Pxc) (cur : Pixel) : Bool := (Pxc.probe idx cur).2

/-- `alpha_same`: `CUR.a = PREV.a` (R151 to R154). -/
def alphaSame (cur prev : Pixel) : Bool := decide (cur.a = prev.a)

/-- `fits_diff`: dr, dg, db all in −2..1 (R151). -/
def fitsDiff (dr dg db : Int) : Bool := fitsTwoBits dr && fitsTwoBits dg && fitsTwoBits db

/-- `fits_luma`: dg in −32..31, dr−dg and db−dg in −8..7 (R152). -/
def fitsLuma (dg drdg dbdg : Int) : Bool := fitsSixBits dg && fitsFourBits drdg && fitsFourBits dbdg

/-- `last`: `PXPOS = N − 1` at the start of the pixel step (R143). -/
def Enc.last (e : Enc) : Bool := decide (e.pxpos.toNat + 1 = e.pixels)

end Sys2Proof.Machine
end

