-- ==== Sys2Proof/Machine/Chunks.lean ====
section
/-! DEFINITION. The chunk step `DEC.chunk` (42_chunk_decoder.md R182) and the meaning of the six chunks. -/

namespace Sys2Proof.Machine

/-- `put(p)`: the first OCH channel bytes of a pixel at PIX_OUT:OPOS, and OPOS moved past them (R196). -/
def Dec.put (d : Dec) (p : Pixel) : Dec :=
  { d with pixOut := Memory.writeBytes d.pixOut d.opos.toNat (p.bytes d.och), opos := cursorAdd d.opos d.och.toNat }

/-- `repeat k times: put(p)` (R182). -/
def Dec.putTimes (d : Dec) (p : Pixel) : Nat → Dec
  | 0 => d
  | k + 1 => Dec.putTimes (d.put p) p k

/-- The cache write of a chunk, made when `ins` (R182, R190). -/
def Dec.cacheWrite (d : Dec) (ins : Bool) (p : Pixel) : Dec :=
  if ins then { d with idx := Pxc.insert d.idx p } else d

/-- The writes of a chunk step in the order of R182: the cache, `k` pixels, PREV, PXPOS, IPOS. -/
def Dec.retire (d : Dec) (len : Nat) (cur : Pixel) (k : Nat) (ins : Bool) : Dec :=
  let d := (d.cacheWrite ins cur).putTimes cur k
  { d with prev := cur, pxpos := cursorAdd d.pxpos k, ipos := cursorAdd d.ipos len }

/-- `need(n)`: the stream still holds `n` bytes from IPOS (R182, R183). -/
def Dec.has (d : Dec) (n : Nat) : Bool := decide (d.ipos.toNat + n ≤ d.inLen.toNat)

/-- The chunk step once the chunk is known: enabled in BODY while pixels are missing (R45), ErrTruncated when the
stream ends before the chunk does (R183), and otherwise the chunk's writes. -/
def Dec.chunkStep (d : Dec) (len : Nat) (cur : Pixel) (k : Nat) (ins : Bool) : Host.Outcome Dec Fault Refusal :=
  if d.action = some .body then
    if d.has len then .next (d.retire len cur k ins) else .next (d.fail .truncated)
  else .refused .recordNotEnabled

/-- RGB: `CUR = (r, g, b, PREV.a)` (R184). -/
def rgbPixel (prev : Pixel) (r g b : Byte) : Pixel := ⟨r, g, b, prev.a⟩

/-- DIFF: wrapping addition of the deltas; alpha is PREV's (R187, R197; log entry 19). -/
def diffPixel (prev : Pixel) (dr dg db : Int) : Pixel :=
  ⟨add8 prev.r dr, add8 prev.g dg, add8 prev.b db, prev.a⟩

/-- LUMA: `dr = dg + dr_dg`, `db = dg + db_dg`, wrapping addition; alpha is PREV's (R188, R197;
log entry 19). -/
def lumaPixel (prev : Pixel) (dg drdg dbdg : Int) : Pixel :=
  ⟨add8 prev.r (dg + drdg), add8 prev.g dg, add8 prev.b (dg + dbdg), prev.a⟩

/-- RUN for either value of DEC_RUN_CACHE_WRITE: PREV again, clipped to the pixels still missing (R189, R190,
R192). -/
def Dec.runChunk (cacheWrite : Bool) (n : Nat) (d : Dec) : Host.Outcome Dec Fault Refusal :=
  d.chunkStep 1 d.prev (min n (d.pixels - d.pxpos.toNat)) cacheWrite

/-- RGB (R184). -/
def execRgb (r g b : Byte) (s : State) : Host.Outcome State Fault Refusal :=
  s.withDec (s.dec.chunkStep 4 (rgbPixel s.dec.prev r g b) 1 true)

/-- RGBA (R185): PREV is not read. -/
def execRgba (r g b a : Byte) (s : State) : Host.Outcome State Fault Refusal :=
  s.withDec (s.dec.chunkStep 5 ⟨r, g, b, a⟩ 1 true)

/-- INDEX (R186): the slot's pixel verbatim; the cache is not written. -/
def execIndex (slot : Slot) (s : State) : Host.Outcome State Fault Refusal :=
  s.withDec (s.dec.chunkStep 1 (Pxc.read s.dec.idx slot) 1 false)

/-- DIFF (R187). -/
def execDiff (dr dg db : Int) (s : State) : Host.Outcome State Fault Refusal :=
  s.withDec (s.dec.chunkStep 1 (diffPixel s.dec.prev dr dg db) 1 true)

/-- LUMA (R188). -/
def execLuma (dg drdg dbdg : Int) (s : State) : Host.Outcome State Fault Refusal :=
  s.withDec (s.dec.chunkStep 2 (lumaPixel s.dec.prev dg drdg dbdg) 1 true)

/-- RUN (R189) with the value the spec takes for DEC_RUN_CACHE_WRITE (R190). -/
def execRun (n : Nat) (s : State) : Host.Outcome State Fault Refusal :=
  s.withDec (s.dec.runChunk Config.decRunCacheWrite n)

end Sys2Proof.Machine
end

