-- ==== Sys2Proof/Machine/Framing.lean ====
section
/-! DEFINITION. The framing steps of DEC (43_framing.md): HEADER is executed by `DEC.start` (R232), END by `DEC.end`
(R228). -/

namespace Sys2Proof.Machine

/-- DEC's checks 1 to 3, made before the header is read (R226). -/
def Dec.requestCheck (d : Dec) : Option Cause :=
  if d.inLen = 0 then some .empty
  else if ¬(d.reqch = Config.reqchOwn ∨ d.reqch = 3 ∨ d.reqch = 4) then some .reqChannels
  else if d.inLen.toNat < Config.headerSize then some .truncated
  else none

/-- DEC's checks 5 to 8 on the header's fields, after checks 1 to 3 (R226). Check 4, the magic, is the decoder's:
bytes without it are no HEADER record. -/
def Dec.headerCheck (d : Dec) (width height : U32) (channels colorspace : Byte) : Option Cause :=
  match d.requestCheck with
  | some c => some c
  | none => descriptorCheck width height channels colorspace

/-- `OCH = CHANNELS if REQCH = 0 else REQCH` (R39, R195). -/
def outputChannels (channels reqch : Byte) : Byte := if reqch = Config.reqchOwn then channels else reqch

/-- What a successful `DEC.start` writes (R181, R232, R291). OUT_LEN, which R46 and R293 call unspecified until DONE, keeps
its old value (DESIGN CHOICE, unsafe: log entry 20). -/
def Dec.begin (d : Dec) (width height : U32) (channels colorspace : Byte) : Dec :=
  { d with
    ctrl := 0
    status := Status.running
    width := width
    height := height
    channels := channels
    colorspace := colorspace
    och := outputChannels channels d.reqch
    idx := Pxc.clear
    prev := Pixel.opaqueBlack
    ipos := BitVec.ofNat 32 Config.headerSize
    pxpos := 0
    opos := 0 }

/-- `DEC.start` once the header is parsed: enabled by START outside BODY (R45), the first check that applies fails
the operation, and otherwise the operation begins (R232; log entry 18). -/
def Dec.start (d : Dec) (width height : U32) (channels colorspace : Byte) : Host.Outcome Dec Fault Refusal :=
  if d.action = some .start then
    match d.headerCheck width height channels colorspace with
    | some c => .next (d.fail c)
    | none => .next (d.begin width height channels colorspace)
  else .refused .recordNotEnabled

/-- What `DEC.end` writes when it succeeds, IPOS moved past `len` marker bytes (R228). -/
def Dec.finish (d : Dec) (len : Nat) : Dec :=
  { d with
    ipos := cursorAdd d.ipos len
    outLen := BitVec.ofNat 32 (d.pixels * d.och.toNat)
    status := Status.finished }

/-- `DEC.end` when the next 8 bytes, if they are looked at, are the marker (R228), for either value of
CHECK_END_MARKER. -/
def Dec.endStep (check : Bool) (d : Dec) : Host.Outcome Dec Fault Refusal :=
  if d.action = some .finish then
    if check then
      if d.has Config.markerSize then .next (d.finish Config.markerSize) else .next (d.fail .truncated)
    else .next (d.finish 0)
  else .refused .recordNotEnabled

/-- HEADER (R221, R226, R232). -/
def execHeader (width height : U32) (channels colorspace : Byte) (s : State) : Host.Outcome State Fault Refusal :=
  s.withDec (s.dec.start width height channels colorspace)

/-- END (R228) with the value the spec takes for CHECK_END_MARKER. -/
def execEndMarker (s : State) : Host.Outcome State Fault Refusal :=
  s.withDec (s.dec.endStep Config.checkEndMarker)

end Sys2Proof.Machine
end

