-- ==== Sys2Proof/Machine/Fetch.lean ====
section
/-! DEFINITION. How DEC comes by its next record: the header at offset 0 (43_framing.md R232), the chunk at IPOS
(42_chunk_decoder.md R182, R183), the marker at IPOS (43_framing.md R228); and how a test places one there. -/

namespace Sys2Proof.Machine

/-- What DEC finds where its next record should stand. -/
inductive Fetched where
  /-- a record -/
  | record (i : Instr)
  /-- a failure cause (R250) -/
  | fails (c : Cause)
  /-- the host has placed no byte at an offset below IN_LEN (R304 row 5) -/
  | absent
  deriving DecidableEq, Repr

/-- The cause a decoder's rejection stands for (R259 to R261). -/
def DecodeError.cause : DecodeError → Cause
  | .truncated => .truncated
  | .badMagic => .badMagic
  | .badMarker => .endMarker

/-- The record in `n` bytes of STRM_IN from offset `a`. -/
def Dec.recordAt (d : Dec) (p : Position) (a n : Nat) : Fetched :=
  match Memory.readBytes d.strmIn a n with
  | none => .absent
  | some bs =>
    match decode p bs with
    | .ok (i, _) => .record i
    | .error e => .fails (DecodeError.cause e)

/-- The header, after checks 1 to 3 (R226, R232). -/
def Dec.fetchHeader (d : Dec) : Fetched :=
  match d.requestCheck with
  | some c => .fails c
  | none => d.recordAt .header 0 Config.headerSize

/-- The chunk at IPOS: `need(1)`, the first byte, `need` of the length it names, the chunk (R182, R183). DEC does not
look past the chunk (R43). -/
def Dec.fetchChunk (d : Dec) : Fetched :=
  if d.has 1 then
    match Memory.read d.strmIn d.ipos.toNat with
    | none => .absent
    | some b0 => if d.has (chunkLength b0) then d.recordAt .chunk d.ipos.toNat (chunkLength b0) else .fails .truncated
  else .fails .truncated

/-- The marker at IPOS; with CHECK_END_MARKER false nothing is read (R228). -/
def Dec.fetchMarker (check : Bool) (d : Dec) : Fetched :=
  if check then
    if d.has Config.markerSize then d.recordAt .endMarker d.ipos.toNat Config.markerSize else .fails .truncated
  else .record .endMarker

/-- What DEC's enabled step finds: a record, a failure, an absent byte; nothing when no step is enabled. -/
def Dec.fetch (d : Dec) : Option Fetched :=
  match d.action with
  | some .start => some d.fetchHeader
  | some .body => some d.fetchChunk
  | some .finish => some (d.fetchMarker Config.checkEndMarker)
  | some .clash => none
  | none => none

/-- DEC as a successful `DEC.start` of a 64 × 1 image of 4 channels leaves it: the state in which a lone chunk is
placed when no operation is running (log entry 12). -/
def Dec.started (d : Dec) : Dec := { d with reqch := Config.reqchOwn }.begin 64 1 4 0

/-- Bytes placed in STRM_IN at IPOS, and IN_LEN just past them. -/
def Dec.place (d : Dec) (bs : List Byte) : Dec :=
  { d with strmIn := Memory.writeBytes d.strmIn d.ipos.toNat bs, inLen := cursorAdd d.ipos bs.length }

/-- DEC with a header placed at offset 0 and a START pending. -/
def Dec.withHeader (d : Dec) (bs : List Byte) : Dec :=
  { d with
    ctrl := 1
    status := if d.status.phase = .body then Status.reset else d.status
    reqch := Config.reqchOwn
    strmIn := Memory.writeBytes d.strmIn 0 bs
    inLen := BitVec.ofNat 32 bs.length }

/-- DEC with a chunk placed at IPOS, in the operation that is running if one is and its chunk step is enabled. -/
def Dec.withChunk (d : Dec) (bs : List Byte) : Dec :=
  if d.action = some .body ∧ d.ipos.toNat + bs.length < 2 ^ 32 then d.place bs else d.started.place bs

/-- DEC with the 8 bytes of a marker placed at IPOS after the last pixel. -/
def Dec.withMarker (d : Dec) (bs : List Byte) : Dec :=
  if d.action = some .finish ∧ d.ipos.toNat + bs.length < 2 ^ 32 then d.place bs
  else { d.started with pxpos := 64, opos := 256, ipos := 16 }.place bs

/-- DEC with a word of the opcode table where its next step fetches (log entry 12). -/
def Dec.withWord (d : Dec) (nbits w : Nat) : Dec :=
  match tableLayout nbits w with
  | (.header, bs) => d.withHeader bs
  | (.chunk, bs) => d.withChunk bs
  | (.endMarker, bs) => d.withMarker bs

end Sys2Proof.Machine
end

