-- ==== Sys2Proof/Machine/Encoder.lean ====
section
/-! DEFINITION. The encoder engine: `ENC.start` (43_framing.md R231), `ENC.pixel` (41_chunk_encoder.md R143) and
`ENC.end` (43_framing.md R227). -/

namespace Sys2Proof.Machine

/-- `emit(B)`: bytes at STRM_OUT:OPOS, and OPOS moved past them (R11). -/
def Enc.emit (e : Enc) (bs : List Byte) : Enc :=
  { e with strmOut := Memory.writeBytes e.strmOut e.opos.toNat bs, opos := cursorAdd e.opos bs.length }

/-- A record emitted: its bytes by the table of R108. -/
def Enc.emitRecord (e : Enc) (i : Instr) : Enc := e.emit (encode i)

/-- The pending run emitted as one RUN chunk, and RUN cleared (R145 to R147). -/
def Enc.flush (e : Enc) : Enc := { e.emitRecord (.run e.run.toNat) with run := 0 }

/-- ENC's checks 1 to 7 in their order (R225, R237). -/
def Enc.startCheck (e : Enc) : Option Cause :=
  if e.pixLen = 0 then some .empty
  else if e.descValid = 0 then some .noDescriptor
  else
    match descriptorCheck e.width e.height e.channels e.colorspace with
    | some c => some c
    | none => if e.pixLen.toNat ≠ e.pixels * e.channels.toNat then some .pixbufSize else none

/-- What a successful `ENC.start` writes (R141, R231, R291): the header is emitted at offset 0 (R223). BYTE_COUNT, which
R46 and R293 call unspecified until DONE, keeps its old value (DESIGN CHOICE, unsafe: log entry 20). -/
def Enc.begin (e : Enc) : Enc :=
  { e with
    ctrl := 0
    status := Status.running
    idx := Pxc.clear
    prev := Pixel.opaqueBlack
    run := 0
    pxpos := 0
    opos := 0 }.emitRecord (.header e.width e.height e.channels e.colorspace)

/-- `ENC.start` (R231). -/
def Enc.start (e : Enc) : Enc :=
  match e.startCheck with
  | some c => e.fail c
  | none => e.begin

/-- The explicit chunk of a pixel that misses the cache, the first that fits (R150 to R154). -/
def explicitChunk (prev cur : Pixel) : Instr :=
  let dr := delta cur.r prev.r
  let dg := delta cur.g prev.g
  let db := delta cur.b prev.b
  if alphaSame cur prev then
    if fitsDiff dr dg db then .diff dr dg db
    else if fitsLuma dg (deltaDiff dr dg) (deltaDiff db dg) then .luma dg (deltaDiff dr dg) (deltaDiff db dg)
    else .rgb cur.r cur.g cur.b
  else .rgba cur.r cur.g cur.b cur.a

/-- The chunk of a pixel that differs from PREV: rows 2 to 6 of the selector (R155). -/
def chunkFor (idx : Pxc) (prev cur : Pixel) : Instr :=
  if hit idx cur then .index (Pixel.hash cur) else explicitChunk prev cur

/-- PREV <- CUR and PXPOS <- PXPOS + 1 (R156). -/
def Enc.advance (e : Enc) (cur : Pixel) : Enc := { e with prev := cur, pxpos := cursorAdd e.pxpos 1 }

/-- The equal path: the run grows, and is flushed at 62 or at the last pixel (R144, R145). -/
def Enc.samePath (e : Enc) : Enc :=
  let grown := { e with run := e.run + 1 }
  if grown.run.toNat = Config.runMax ∨ e.last = true then grown.flush else grown

/-- A pending run flushed before the pixel's own chunk (R147). -/
def Enc.flushPending (e : Enc) : Enc := if 0 < e.run.toNat then e.flush else e

/-- The unequal path: pending run, own chunk, and on a miss the insert (R147 to R154). -/
def Enc.otherPath (e : Enc) (cur : Pixel) : Enc :=
  let out := e.flushPending.emitRecord (chunkFor e.idx e.prev cur)
  if hit e.idx cur then out else { out with idx := Pxc.insert out.idx cur }

/-- The pixel step once CUR is fetched (R143). -/
def Enc.pixel (e : Enc) (cur : Pixel) : Enc :=
  (if same cur e.prev then e.samePath else e.otherPath cur).advance cur

/-- The bytes one pixel takes in PIX_IN: 4 when CHANNELS = 4, else 3 (R142). -/
def Enc.pixelBytes (e : Enc) : Nat := if e.channels = 4 then 4 else 3

/-- The pixel fetch (R142), or nothing where the host has placed no byte (R304 row 5). -/
def Enc.fetch (e : Enc) : Option Pixel :=
  match Memory.readBytes e.pixIn (e.pixelBytes * e.pxpos.toNat) e.pixelBytes with
  | some bs => some (Pixel.ofBytes e.prev bs)
  | none => none

/-- `ENC.pixel` (R143). -/
def Enc.pixelStep (e : Enc) : Host.Outcome Enc Fault Refusal :=
  match e.fetch with
  | some cur => .next (e.pixel cur)
  | none => .fault .absentInputByte

/-- `ENC.end` (R227): the marker, then BYTE_COUNT <- OPOS. -/
def Enc.finish (e : Enc) : Enc :=
  let out := e.emitRecord .endMarker
  { out with byteCount := out.opos, status := Status.finished }

/-- The one enabled step of ENC (R45); with none enabled nothing changes. -/
def Enc.step (e : Enc) : Host.Outcome Enc Fault Refusal :=
  match e.action with
  | none => .next e
  | some .start => .next e.start
  | some .body => e.pixelStep
  | some .finish => .next e.finish
  | some .clash => .refused .startWhileBusy

/-- A step of the block made by ENC. -/
def encStep (s : State) : Host.Outcome State Fault Refusal := s.withEnc s.enc.step

end Sys2Proof.Machine
end

