-- ==== Sys2Proof/Machine/Step.lean ====
section
/-! DEFINITION. One step of the block (10_state.md R45): the engine that moves makes its one enabled step. -/

namespace Sys2Proof.Machine

/-- A step of the block made by DEC: its next record is fetched and executed. -/
def decStep (s : State) : Host.Outcome State Fault Refusal :=
  match s.dec.fetch with
  | some (.record i) => exec i s
  | some (.fails c) => .next { s with dec := s.dec.fail c }
  | some .absent => .fault .absentInputByte
  | none => .refused .startWhileBusy

/-- One step. With no step enabled the block keeps its state: only the host's START moves it (R45, R277; log
entry 10). -/
def step (s : State) : Host.Outcome State Fault Refusal :=
  match s.mover with
  | none => .next s
  | some .enc => passTurn (encStep s)
  | some .dec => passTurn (decStep s)

/-- The block with a word of the opcode table where DEC's next step fetches, and DEC to move (log entry 12). -/
def State.withFetchWord (s : State) (nbits w : Nat) : State :=
  { s with dec := s.dec.withWord nbits w, turn := .dec }

end Sys2Proof.Machine
end

