-- ==== Sys2Proof/Machine/HostPort.lean ====
section
/-! DEFINITION. The host's moves (10_state.md R34; 43_framing.md R233): writes of input registers, input buffers and
START, reads of STATUS, results and output buffers; and the platform's reset (70_reset_and_hazards.md R292). -/

namespace Sys2Proof.Machine

/-- A host write to a W register or an input buffer (R34, R60). -/
inductive HostWrite where
  | encCtrl (v : BitVec 1)
  | encWidth (v : U32)
  | encHeight (v : U32)
  | encChannels (v : Byte)
  | encColorspace (v : Byte)
  | encDescValid (v : BitVec 1)
  | encPixLen (v : U32)
  | encPixIn (off : U32) (v : Byte)
  | decCtrl (v : BitVec 1)
  | decReqch (v : Byte)
  | decInLen (v : U32)
  | decStrmIn (off : U32) (v : Byte)
  deriving DecidableEq, Repr

/-- The engine a write goes to. -/
def HostWrite.engine : HostWrite → Engine
  | .encCtrl _ => .enc
  | .encWidth _ => .enc
  | .encHeight _ => .enc
  | .encChannels _ => .enc
  | .encColorspace _ => .enc
  | .encDescValid _ => .enc
  | .encPixLen _ => .enc
  | .encPixIn _ _ => .enc
  | .decCtrl _ => .dec
  | .decReqch _ => .dec
  | .decInLen _ => .dec
  | .decStrmIn _ _ => .dec

/-- Whether a write is a write of START: 1 to bit 0 of CTRL (R34, R233). -/
def HostWrite.isStart : HostWrite → Bool
  | .encCtrl v => v = 1
  | .decCtrl v => v = 1
  | .encWidth _ => false
  | .encHeight _ => false
  | .encChannels _ => false
  | .encColorspace _ => false
  | .encDescValid _ => false
  | .encPixLen _ => false
  | .encPixIn _ _ => false
  | .decReqch _ => false
  | .decInLen _ => false
  | .decStrmIn _ _ => false

/-- An engine is busy from START until its operation has finished or failed (R38, R76; log entry 3). -/
def Enc.busy (e : Enc) : Bool := decide (e.status.phase = .body ∨ e.ctrl = 1)

/-- An engine is busy from START until its operation has finished or failed (R38, R76; log entry 3). -/
def Dec.busy (d : Dec) : Bool := decide (d.status.phase = .body ∨ d.ctrl = 1)

/-- The engine a write goes to is busy. -/
def State.busy (s : State) : Engine → Bool
  | .enc => s.enc.busy
  | .dec => s.dec.busy

/-- A write that is allowed. A write of 0 to CTRL starts nothing (R34). -/
def HostWrite.apply (w : HostWrite) (s : State) : State :=
  match w with
  | .encCtrl v => { s with enc := { s.enc with ctrl := v } }
  | .encWidth v => { s with enc := { s.enc with width := v } }
  | .encHeight v => { s with enc := { s.enc with height := v } }
  | .encChannels v => { s with enc := { s.enc with channels := v } }
  | .encColorspace v => { s with enc := { s.enc with colorspace := v } }
  | .encDescValid v => { s with enc := { s.enc with descValid := v } }
  | .encPixLen v => { s with enc := { s.enc with pixLen := v } }
  | .encPixIn off v => { s with enc := { s.enc with pixIn := Memory.write s.enc.pixIn off.toNat v } }
  | .decCtrl v => { s with dec := { s.dec with ctrl := v } }
  | .decReqch v => { s with dec := { s.dec with reqch := v } }
  | .decInLen v => { s with dec := { s.dec with inLen := v } }
  | .decStrmIn off v => { s with dec := { s.dec with strmIn := Memory.write s.dec.strmIn off.toNat v } }

/-- A host write: no meaning while the engine is busy (R34, R304 row 1; log entry 4). -/
def hostWrite (w : HostWrite) (s : State) : Host.Outcome State Fault Refusal :=
  if s.busy w.engine then
    if w.isStart then .refused .startWhileBusy else .refused .hostWriteWhileBusy
  else .next (w.apply s)

/-- A host read of CTRL, STATUS, a result register or a byte of an output buffer (R34, R60). -/
inductive HostRead where
  | encCtrl
  | encStatus
  | encByteCount
  | encStrmOut (off : U32)
  | decCtrl
  | decStatus
  | decWidth
  | decHeight
  | decChannels
  | decColorspace
  | decOch
  | decOutLen
  | decPixOut (off : U32)
  deriving DecidableEq, Repr

/-- STATUS as the host sees it: an operation has started as soon as START is written, so PHASE then reads BODY, ERR
and ECLASS 0 (R38, R233; log entry 3). -/
def visibleStatus (status : Status) (ctrl : BitVec 1) : Status := if ctrl = 1 then Status.running else status

/-- ENC's results are defined: the last operation finished and no other has started (R41). -/
def Enc.resultsValid (e : Enc) : Bool := decide (e.status.phase = .done ∧ e.ctrl = 0)

/-- DEC's results are defined: the last operation finished and no other has started (R41). -/
def Dec.resultsValid (d : Dec) : Bool := decide (d.status.phase = .done ∧ d.ctrl = 0)

/-- A result register's value when results are valid, else a free value (R41, R262; log entry 9). -/
def resultOrFree (valid : Bool) (v : BitVec 32) (s : State) : BitVec 32 × State :=
  if valid then (v, s) else (Config.freeRegister s.fresh, { s with fresh := s.fresh + 1 })

/-- An output byte when results are valid, the offset is below the result length and the engine wrote it, else a free
value (R41, R78; log entry 9). -/
def byteOrFree (valid : Bool) (m : Memory) (off len : U32) (s : State) : BitVec 32 × State :=
  match (if valid && decide (off.toNat < len.toNat) then Memory.read m off.toNat else none) with
  | some b => (b.setWidth 32, s)
  | none => ((Config.freeByte s.fresh).setWidth 32, { s with fresh := s.fresh + 1 })

/-- A host read, its value widened with zeros to 32 bits; CTRL reads back as 0 (R233). -/
def hostRead (r : HostRead) (s : State) : BitVec 32 × State :=
  match r with
  | .encCtrl => (0, s)
  | .encStatus => ((visibleStatus s.enc.status s.enc.ctrl).word.setWidth 32, s)
  | .encByteCount => resultOrFree s.enc.resultsValid s.enc.byteCount s
  | .encStrmOut off => byteOrFree s.enc.resultsValid s.enc.strmOut off s.enc.byteCount s
  | .decCtrl => (0, s)
  | .decStatus => ((visibleStatus s.dec.status s.dec.ctrl).word.setWidth 32, s)
  | .decWidth => resultOrFree s.dec.resultsValid s.dec.width s
  | .decHeight => resultOrFree s.dec.resultsValid s.dec.height s
  | .decChannels => resultOrFree s.dec.resultsValid (s.dec.channels.setWidth 32) s
  | .decColorspace => resultOrFree s.dec.resultsValid (s.dec.colorspace.setWidth 32) s
  | .decOch => resultOrFree s.dec.resultsValid (s.dec.och.setWidth 32) s
  | .decOutLen => resultOrFree s.dec.resultsValid s.dec.outLen s
  | .decPixOut off => byteOrFree s.dec.resultsValid s.dec.pixOut off s.dec.outLen s

/-- Reset by the platform, at any time: the state of R290; an operation in progress is abandoned and no cause is
recorded (R292). What R290 leaves unspecified takes the values of `State.reset` (DESIGN CHOICE, unsafe: log entry 15).
The model's own counter `fresh` goes on, so that no free value drawn after the reset repeats one drawn before it (log
entry 9). -/
def powerReset (s : State) : State := { State.reset with fresh := s.fresh }

end Sys2Proof.Machine
end

