-- ==== Sys2Proof/Safety.lean ====
section
/-! DEFINITION. What counts as a safe run: the invariants of a state at a step boundary (10_state.md R47), the states
a run reaches, the lockstep of the two caches (40_pixel_cache.md R130), and the terms the claims are stated in. -/

namespace Sys2Proof.Machine

/-! ### Parts of the invariant -/

/-- PHASE, ERR and ECLASS agree (R38; 60_exceptions.md R279 (b)). -/
def Status.Coherent (t : Status) : Prop :=
  (t.phase = .failed → ∃ c, t.err = some c ∧ t.eclass = c.eclass) ∧
    (t.phase ≠ .failed → t.err = none ∧ t.eclass = .none)

/-- The causes ENC can report: codes 1 to 6 and 11 (R279 (c)). -/
def Cause.ofEnc : Cause → Bool
  | .empty => true
  | .noDescriptor => true
  | .zeroDim => true
  | .channels => true
  | .colorspace => true
  | .tooManyPixels => true
  | .reqChannels => false
  | .badMagic => false
  | .truncated => false
  | .endMarker => false
  | .pixbufSize => true

/-- The causes DEC can report: codes 1 and 3 to 10 (R279 (c)). -/
def Cause.ofDec : Cause → Bool
  | .empty => true
  | .noDescriptor => false
  | .zeroDim => true
  | .channels => true
  | .colorspace => true
  | .tooManyPixels => true
  | .reqChannels => true
  | .badMagic => true
  | .truncated => true
  | .endMarker => true
  | .pixbufSize => false

/-- Every slot holds the zero pixel or a pixel that hashes to it (R47 (f)). -/
def Pxc.Coherent (c : Pxc) : Prop := ∀ s : Slot, Pxc.read c s = Pixel.zero ∨ Pixel.hash (Pxc.read c s) = s

/-- Every offset below `n` holds a byte: the host has placed its whole input (70_reset_and_hazards.md R304 row 5). -/
def Memory.Holds (m : Memory) (n : Nat) : Prop := ∀ a, a < n → ∃ b, Memory.read m a = some b

/-- Pixel `i` of PIX_IN has the channel bytes of `p` (20_memory.md R61). -/
def Enc.HasPixel (e : Enc) (i : Nat) (p : Pixel) : Prop :=
  Memory.readBytes e.pixIn (e.pixelBytes * i) e.pixelBytes = some (p.bytes e.channels)

/-- What holds of ENC between the steps of an operation (R47 (a) to (d), R141, R157, R161). -/
structure Enc.BodyInv (e : Enc) : Prop where
  noStart : e.ctrl = 0
  accepted : e.startCheck = none
  pxpos_le : e.pxpos.toNat ≤ e.pixels
  run_le_pxpos : e.run.toNat ≤ e.pxpos.toNat
  flushed : e.pxpos.toNat = e.pixels → e.run = 0
  runPixels : ∀ j, j < e.run.toNat → e.HasPixel (e.pxpos.toNat - 1 - j) e.prev
  cached : e.prev = Pixel.opaqueBlack ∨ Pxc.read e.idx (Pixel.hash e.prev) = e.prev
  alpha : e.channels = 3 → e.prev.a = 255
  header_le : 14 ≤ e.opos.toNat
  emitted : e.run.toNat < e.pxpos.toNat → 15 ≤ e.opos.toNat
  opos_le : e.opos.toNat ≤ 14 + (e.pxpos.toNat - e.run.toNat) * (e.channels.toNat + 1)
  coherent : e.idx.Coherent

/-- What holds of ENC at every step boundary; the cursors stay below the bounds of R31 and R32, so they never wrap, and
RUN is at most 61 (R24). -/
structure Enc.Inv (e : Enc) : Prop where
  status : e.status.Coherent
  causes : ∀ c, e.status.err = some c → c.ofEnc = true
  pixIn : e.pixIn.wf
  strmOut : e.strmOut.wf
  run_le : e.run.toNat ≤ 61
  pxpos_lt : e.pxpos.toNat < 400000000
  opos_lt : e.opos.toNat < 2000000022
  body : e.status.phase = .body → e.BodyInv

/-- The header DEC has parsed is the one in STRM_IN (43_framing.md R221). -/
def Dec.HeaderSeen (d : Dec) : Prop :=
  d.recordAt .header 0 Config.headerSize = .record (.header d.width d.height d.channels d.colorspace)

/-- What holds of DEC between the steps of an operation (R47 (e) and (f), R181). -/
structure Dec.BodyInv (d : Dec) : Prop where
  noStart : d.ctrl = 0
  request : d.requestCheck = none
  descriptor : descriptorCheck d.width d.height d.channels d.colorspace = none
  headerSeen : d.HeaderSeen
  och : d.och = outputChannels d.channels d.reqch
  ipos_ge : 14 ≤ d.ipos.toNat
  ipos_le : d.ipos.toNat ≤ d.inLen.toNat
  pxpos_le : d.pxpos.toNat ≤ d.pixels
  opos : d.opos.toNat = d.pxpos.toNat * d.och.toNat
  coherent : d.idx.Coherent

/-- What holds of DEC's results when they may be read (R34, R41). -/
structure Dec.DoneInv (d : Dec) : Prop where
  descriptor : descriptorCheck d.width d.height d.channels d.colorspace = none
  och : d.och = 3 ∨ d.och = 4
  pxpos : d.pxpos.toNat = d.pixels
  opos : d.opos.toNat = d.pixels * d.och.toNat
  outLen : d.outLen.toNat = d.pixels * d.och.toNat

/-- What holds of DEC at every step boundary; PXPOS and OPOS stay below the bounds of R31 and R32, so they never wrap. IPOS
is bounded by IN_LEN while an operation runs (R30). -/
structure Dec.Inv (d : Dec) : Prop where
  status : d.status.Coherent
  causes : ∀ c, d.status.err = some c → c.ofDec = true
  strmIn : d.strmIn.wf
  pixOut : d.pixOut.wf
  pxpos_lt : d.pxpos.toNat < 400000000
  opos_lt : d.opos.toNat < 1600000000
  body : d.status.phase = .body → d.BodyInv
  done : d.status.phase = .done → d.DoneInv

/-- The invariant of the block. -/
structure State.Inv (s : State) : Prop where
  enc : s.enc.Inv
  dec : s.dec.Inv

/-! ### Runs -/

/-- The states a run reaches: engine steps, host moves and platform resets in any order (R20, R233, R292). -/
inductive Reachable : State → Prop where
  | reset : Reachable State.reset
  | step {s t : State} : Reachable s → step s = .next t → Reachable t
  | write {s t : State} (w : HostWrite) : Reachable s → hostWrite w s = .next t → Reachable t
  | read {s : State} (r : HostRead) : Reachable s → Reachable (hostRead r s).2
  | power {s : State} : Reachable s → Reachable (powerReset s)

/-- `k` steps of the block, all of which answer a next state. -/
def runs (k : Nat) (s t : State) : Prop := Host.Core.run Sys2Proof.core k s = .next t

/-- An operation has ended: DONE or FAILED (R45, R279 (a)). -/
def Status.ended (t : Status) : Prop := t.phase = .done ∨ t.phase = .failed

/-- The step a record at a position is executed by (R45). -/
def stepOf : Position → Action
  | .header => .start
  | .chunk => .body
  | .endMarker => .finish

/-! ### What a chunk step does (42_chunk_decoder.md R182) -/

/-- The effect of a chunk of `len` bytes that produces `cur` `k` times and writes the cache when `ins`: every byte of
PIX_OUT and every slot is named, and the last clause says that nothing else changes; for OUT_LEN, unspecified until DONE, that is the model's choice (log entry
20). The cursors are 32 bits wide. -/
structure ChunkEffect (s t : State) (len : Nat) (cur : Pixel) (k : Nat) (ins : Bool) : Prop where
  prev : t.dec.prev = cur
  pxpos : t.dec.pxpos = cursorAdd s.dec.pxpos k
  ipos : t.dec.ipos = cursorAdd s.dec.ipos len
  opos : t.dec.opos = cursorAdd s.dec.opos (k * s.dec.och.toNat)
  slot : Pxc.read t.dec.idx (Pixel.hash cur) = if ins then cur else Pxc.read s.dec.idx (Pixel.hash cur)
  otherSlots : ∀ x : Slot, x ≠ Pixel.hash cur → Pxc.read t.dec.idx x = Pxc.read s.dec.idx x
  pixels : ∀ j, j < k →
    Memory.readBytes t.dec.pixOut (s.dec.opos.toNat + j * s.dec.och.toNat) s.dec.och.toNat = some (cur.bytes s.dec.och)
  otherBytes : ∀ a, (a < s.dec.opos.toNat ∨ s.dec.opos.toNat + k * s.dec.och.toNat ≤ a) →
    Memory.read t.dec.pixOut a = Memory.read s.dec.pixOut a
  rest : t = { s with dec := { s.dec with prev := t.dec.prev, pxpos := t.dec.pxpos, ipos := t.dec.ipos, opos := t.dec.opos, idx := t.dec.idx, pixOut := t.dec.pixOut } }

/-! ### What a step of ENC emits -/

/-- A step of ENC from `e` to `e'` emits exactly `bs`: the bytes stand from OPOS on, OPOS moves past them, and every
other byte of STRM_OUT is as before (R11, R67). -/
structure Emits (e e' : Enc) (bs : List Byte) : Prop where
  bytes : Memory.readBytes e'.strmOut e.opos.toNat bs.length = some bs
  opos : e'.opos = cursorAdd e.opos bs.length
  otherBytes : ∀ a, (a < e.opos.toNat ∨ e.opos.toNat + bs.length ≤ a) → Memory.read e'.strmOut a = Memory.read e.strmOut a

/-! ### Lockstep -/

/-- The two caches agree, but for the one exception R130 allows at slot 53. -/
def LockstepCache (enc dec : Pxc) : Prop :=
  ∀ s : Slot, Pxc.read dec s = Pxc.read enc s ∨
    (s = 53 ∧ Pxc.read enc s = Pixel.zero ∧ Pxc.read dec s = Pixel.opaqueBlack)

/-- The lockstep invariant of R130 and R203: equal PREV, caches in lockstep; and ENC's PREV is opaque black with a
cache of zero pixels (no pixel has taken the unequal path yet) or stands in its own slot. -/
structure Lockstep (e : Enc) (d : Dec) : Prop where
  prev : d.prev = e.prev
  cache : LockstepCache e.idx d.idx
  own : (e.prev = Pixel.opaqueBlack ∧ e.idx = Pxc.clear) ∨ Pxc.read e.idx (Pixel.hash e.prev) = e.prev

/-! ### Sequences of chunks -/

/-- The chunks stand for at least `n` pixels, and not without the last of them (30_encoding.md R91, R110). -/
def covers : List Instr → Nat → Prop
  | [], n => n = 0
  | i :: is, n => 0 < n ∧ i.position = .chunk ∧ i.wf = true ∧ covers is (n - i.pixels)

end Sys2Proof.Machine
end

