-- ==== Sys2Proof/Certificates/Slice0/Obligations.lean ====
section
/-! DEFINITION. The statements for the provers. -/

open Sys2Proof Sys2Proof.Machine

/-! ### Encoding (30_encoding.md) -/

/-- Decoding the bytes of any well-formed record, at the position it stands at and whatever follows, gives the record
back with every operand, and the bytes that follow. Rests on the layouts R92 to R100 and the operands of R101; that
the listing is unambiguous is the spec's own inference (R110). -/
def Obligations.DecodeOfEncodeGivesTheRecord : Prop :=
  ∀ (i : Instr) (rest : List Byte), i.wf = true → decode i.position (encode i ++ rest) = .ok (i, rest)

/-- Whatever decodes is a well-formed record of its position, and the bytes consumed are exactly its encoding: no bit
of a record is ignored. Rests on R92 to R102. -/
def Obligations.DecodedBytesAreTheEncoding : Prop :=
  ∀ (p : Position) (bs rest : List Byte) (i : Instr), decode p bs = .ok (i, rest) →
    i.wf = true ∧ i.position = p ∧ bs = encode i ++ rest

/-- Every first byte starts a defined chunk: the chunk decodes exactly when the bytes hold the length that its first
byte names, and otherwise the only rejection is truncation. Rests on R102, R104 and R106. -/
def Obligations.EveryChunkDecodesUnlessCutShort : Prop :=
  ∀ (b0 : Byte) (bs : List Byte),
    (chunkLength b0 ≤ bs.length + 1 → ∃ i rest, decodeChunk (b0 :: bs) = .ok (i, rest) ∧ i.length = chunkLength b0) ∧
    (bs.length + 1 < chunkLength b0 → decodeChunk (b0 :: bs) = .error .truncated)

/-- The opcode map: which first bytes are which chunk, with the operands the table gives. Rests on R101, R102 and
R103. -/
def Obligations.FirstByteSelectsTheChunk : Prop :=
  ∀ (b0 : Byte) (bs rest : List Byte) (i : Instr), decodeChunk (b0 :: bs) = .ok (i, rest) →
    (b0.toNat ≤ 0x3F → ∃ s : Slot, i = .index s ∧ s.toNat = b0.toNat ∧ rest = bs) ∧
    (0x40 ≤ b0.toNat ∧ b0.toNat ≤ 0x7F → ∃ dr dg db : Int, i = .diff dr dg db ∧ rest = bs ∧
      -2 ≤ dr ∧ dr ≤ 1 ∧ -2 ≤ dg ∧ dg ≤ 1 ∧ -2 ≤ db ∧ db ≤ 1 ∧
      (b0.toNat : Int) = 0x40 + (dr + 2) * 16 + (dg + 2) * 4 + (db + 2)) ∧
    (0x80 ≤ b0.toNat ∧ b0.toNat ≤ 0xBF → ∃ (b1 : Byte) (dg x y : Int), bs = b1 :: rest ∧ i = .luma dg x y ∧
      -8 ≤ x ∧ x ≤ 7 ∧ -8 ≤ y ∧ y ≤ 7 ∧
      (b0.toNat : Int) = 0x80 + (dg + 32) ∧ (b1.toNat : Int) = (x + 8) * 16 + (y + 8)) ∧
    (0xC0 ≤ b0.toNat ∧ b0.toNat ≤ 0xFD → ∃ n : Nat, i = .run n ∧ rest = bs ∧ b0.toNat + 1 = 0xC0 + n) ∧
    (b0.toNat = 0xFE → ∃ r g b, bs = r :: g :: b :: rest ∧ i = .rgb r g b) ∧
    (b0.toNat = 0xFF → ∃ r g b a, bs = r :: g :: b :: a :: rest ∧ i = .rgba r g b a)

/-- Words written out from the layouts of R92 to R100 decode to the records they stand for. -/
def Obligations.WordsOfTheSpecDecode : Prop :=
  decodeChunk [0x31] = .ok (.index 49, []) ∧
  decodeChunk [0x79] = .ok (.diff 1 0 (-1), []) ∧
  decodeChunk [0x98, 0x5B] = .ok (.luma (-8) (-3) 3, []) ∧
  decodeChunk [0xFD] = .ok (.run 62, []) ∧
  decodeChunk [0xFE, 0x0A, 0x14, 0x1E] = .ok (.rgb 10 20 30, []) ∧
  decodeChunk [0xFF, 0x01, 0x00, 0x00, 0x80] = .ok (.rgba 1 0 0 128, []) ∧
  decodeHeader [0x71, 0x6F, 0x69, 0x66, 0, 1, 0, 0, 0, 0, 1, 0, 3, 1] = .ok (.header 65536 256 3 1, []) ∧
  decodeMarker [0, 0, 0, 0, 0, 0, 0, 1] = .ok (.endMarker, [])

/-- The listing of a chunk sequence: chunks that account for `n` pixels, packed back to back, are found again one by
one, and the bytes after them are left. Rests on R91 and R110 (the latter the spec's own inference). -/
def Obligations.ListingRecoversTheChunks : Prop :=
  ∀ (is : List Instr) (n fuel : Nat) (rest : List Byte), covers is n → is.length ≤ fuel →
    disassemble fuel n (assemble is ++ rest) = .ok (is, rest)

/-- The pseudo-record `RUN* n` is well formed, stands for `n` pixels, and every chunk but the last carries 62; the
spec's own inference (R109). -/
def Obligations.RunStarStandsForItsPixels : Prop :=
  ∀ n : Nat, ((runStar n).map Instr.pixels).sum = n ∧ (∀ i ∈ runStar n, i.wf = true) ∧
    (runStar n).length = (n + 61) / 62 ∧ (∀ i ∈ (runStar n).dropLast, i = .run 62)

/-! ### Pixels, hash and cache (40_pixel_cache.md) -/

/-- The hash (R120): the weighted sum over the naturals, modulo 64, with the rule's four values. -/
def Obligations.HashIsTheWeightedSumModulo64 : Prop :=
  (∀ p : Pixel, (Pixel.hash p).toNat = (p.r.toNat * 3 + p.g.toNat * 5 + p.b.toNat * 7 + p.a.toNat * 11) % 64) ∧
  Pixel.hash ⟨0, 0, 0, 0⟩ = 0 ∧ Pixel.hash ⟨0, 0, 0, 255⟩ = 53 ∧ Pixel.hash ⟨255, 255, 255, 255⟩ = 38 ∧ Pixel.hash ⟨10, 20, 30, 255⟩ = 9

/-- The hash is the low 6 bits of the sum kept in any wrapping width of 6 bits or more; the spec's own inference
(R121). -/
def Obligations.HashIsTheSameInEveryWidth : Prop :=
  ∀ (p : Pixel) (w : Nat), 6 ≤ w →
    Pixel.hash p = (p.r.setWidth w * BitVec.ofNat w 3 + p.g.setWidth w * BitVec.ofNat w 5 + p.b.setWidth w * BitVec.ofNat w 7 +
      p.a.setWidth w * BitVec.ofNat w 11).setWidth 6

/-- The scalar is equal exactly when the four fields are (R13; the packing is the spec's decision D5). -/
def Obligations.ScalarEqualityIsPixelEquality : Prop :=
  ∀ p q : Pixel, p.scalar = q.scalar ↔ p = q

/-- `PXC.insert` (R126): the slot `hash(p)` holds `p`, no other slot changes, and inserting a pixel that the slot
already holds changes nothing. -/
def Obligations.InsertOverwritesItsSlotOnly : Prop :=
  (∀ (c : Pxc) (p : Pixel),
    Pxc.read (Pxc.insert c p) (Pixel.hash p) = p ∧
    (∀ s : Slot, s ≠ Pixel.hash p → Pxc.read (Pxc.insert c p) s = Pxc.read c s) ∧
    (Pxc.read c (Pixel.hash p) = p → Pxc.insert c p = c)) ∧
  (∀ c : Pxc, Pxc.read c 56 = ⟨1, 0, 0, 255⟩ → Pxc.read (Pxc.insert c ⟨65, 0, 0, 255⟩) 56 = ⟨65, 0, 0, 255⟩)

/-- After `PXC.clear` every slot holds the zero pixel (R123), and a probe hits for the zero pixel alone (the zero-pixel
corner is the spec's own inference, R129). -/
def Obligations.ClearedCacheHitsTheZeroPixelOnly : Prop :=
  (∀ s : Slot, Pxc.read Pxc.clear s = ⟨0, 0, 0, 0⟩) ∧
  (∀ p : Pixel, Pxc.probe Pxc.clear p = (Pixel.hash p, decide (p = ⟨0, 0, 0, 0⟩)))

/-- Equal byte spaces are equal data: two spaces in canonical form that read alike are the same list. The form is the
model's (log entry 5). -/
def Obligations.CanonicalSpacesThatReadAlikeAreEqual : Prop :=
  ∀ m m' : Memory, m.wf → m'.wf → (∀ a, Memory.read m a = Memory.read m' a) → m = m'

/-! ### The chunks (42_chunk_decoder.md) -/

/-- RGB (R184): the bytes after 0xFE are r, g, b; CUR is (r, g, b, PREV.a), one pixel, cache written, 4 bytes;
ErrTruncated when fewer than 4 bytes remain, and then only STATUS changes (`Dec.fail`).
That OUT_LEN, unspecified until DONE (R46, R293), keeps its value is the model's choice (log entry 20, DESIGN CHOICE). -/
def Obligations.RgbExecutes : Prop :=
  ∀ (s : State) (r g b : Byte), s.dec.action = some .body → (s.dec.och = 3 ∨ s.dec.och = 4) →
    decodeChunk [0xFE, r, g, b] = .ok (.rgb r g b, []) ∧
    (s.dec.ipos.toNat + 4 ≤ s.dec.inLen.toNat →
      ∃ t, exec (.rgb r g b) s = .next t ∧ ChunkEffect s t 4 ⟨r, g, b, s.dec.prev.a⟩ 1 true) ∧
    (s.dec.inLen.toNat < s.dec.ipos.toNat + 4 → exec (.rgb r g b) s = .next { s with dec := s.dec.fail .truncated })

/-- RGBA (R185): the bytes after 0xFF are r, g, b, a; CUR is (r, g, b, a), one pixel, cache written, 5 bytes, whatever
the header's channel count; ErrTruncated when fewer than 5 bytes remain.
That OUT_LEN, unspecified until DONE (R46, R293), keeps its value is the model's choice (log entry 20, DESIGN CHOICE). -/
def Obligations.RgbaExecutes : Prop :=
  ∀ (s : State) (r g b a : Byte), s.dec.action = some .body → (s.dec.och = 3 ∨ s.dec.och = 4) →
    decodeChunk [0xFF, r, g, b, a] = .ok (.rgba r g b a, []) ∧
    (s.dec.ipos.toNat + 5 ≤ s.dec.inLen.toNat →
      ∃ t, exec (.rgba r g b a) s = .next t ∧ ChunkEffect s t 5 ⟨r, g, b, a⟩ 1 true) ∧
    (s.dec.inLen.toNat < s.dec.ipos.toNat + 5 → exec (.rgba r g b a) s = .next { s with dec := s.dec.fail .truncated })

/-- INDEX (R186): the slot is the byte's lower 6 bits; CUR is the slot's pixel, all four fields; one pixel, cache not
written, 1 byte; it fails only when that byte is missing.
That OUT_LEN, unspecified until DONE (R46, R293), keeps its value is the model's choice (log entry 20, DESIGN CHOICE). -/
def Obligations.IndexExecutes : Prop :=
  ∀ (s : State) (slot : Slot), s.dec.action = some .body → (s.dec.och = 3 ∨ s.dec.och = 4) →
    (∀ b0 : Byte, b0.extractLsb' 6 2 = 0 → b0.extractLsb' 0 6 = slot → decodeChunk [b0] = .ok (.index slot, [])) ∧
    (s.dec.ipos.toNat + 1 ≤ s.dec.inLen.toNat →
      ∃ t, exec (.index slot) s = .next t ∧ ChunkEffect s t 1 (Pxc.read s.dec.idx slot) 1 false ∧
        t.dec.idx = s.dec.idx) ∧
    (s.dec.inLen.toNat < s.dec.ipos.toNat + 1 → exec (.index slot) s = .next { s with dec := s.dec.fail .truncated })

/-- DIFF (R187): each colour channel is PREV's plus its delta modulo 256; one pixel, cache written, 1 byte; it
fails only when that byte is missing. That alpha is PREV's is the spec's own inference (R197).
That OUT_LEN, unspecified until DONE (R46, R293), keeps its value is the model's choice (log entry 20, DESIGN CHOICE). -/
def Obligations.DiffExecutes : Prop :=
  ∀ (s : State) (dr dg db : Int), s.dec.action = some .body → (s.dec.och = 3 ∨ s.dec.och = 4) →
    (s.dec.ipos.toNat + 1 ≤ s.dec.inLen.toNat →
      ∃ t cur, exec (.diff dr dg db) s = .next t ∧ ChunkEffect s t 1 cur 1 true ∧
        (cur.r.toNat : Int) = (s.dec.prev.r.toNat + dr) % 256 ∧
        (cur.g.toNat : Int) = (s.dec.prev.g.toNat + dg) % 256 ∧
        (cur.b.toNat : Int) = (s.dec.prev.b.toNat + db) % 256 ∧
        cur.a = s.dec.prev.a) ∧
    (s.dec.inLen.toNat < s.dec.ipos.toNat + 1 → exec (.diff dr dg db) s = .next { s with dec := s.dec.fail .truncated })

/-- LUMA (R188): green is PREV's plus dg, red PREV's plus dg + dr_dg, blue PREV's plus dg + db_dg, modulo 256; one
pixel, cache written, 2 bytes; ErrTruncated when the second byte is missing. That alpha is PREV's is the spec's own
inference (R197).
That OUT_LEN, unspecified until DONE (R46, R293), keeps its value is the model's choice (log entry 20, DESIGN CHOICE). -/
def Obligations.LumaExecutes : Prop :=
  ∀ (s : State) (dg x y : Int), s.dec.action = some .body → (s.dec.och = 3 ∨ s.dec.och = 4) →
    (s.dec.ipos.toNat + 2 ≤ s.dec.inLen.toNat →
      ∃ t cur, exec (.luma dg x y) s = .next t ∧ ChunkEffect s t 2 cur 1 true ∧
        (cur.r.toNat : Int) = (s.dec.prev.r.toNat + (dg + x)) % 256 ∧
        (cur.g.toNat : Int) = (s.dec.prev.g.toNat + dg) % 256 ∧
        (cur.b.toNat : Int) = (s.dec.prev.b.toNat + (dg + y)) % 256 ∧
        cur.a = s.dec.prev.a) ∧
    (s.dec.inLen.toNat < s.dec.ipos.toNat + 2 → exec (.luma dg x y) s = .next { s with dec := s.dec.fail .truncated })

/-- RUN (R189, R192): PREV again, as often as the chunk says but not more often than pixels are missing; 1 byte. The
cache write is the value the spec takes for DEC_RUN_CACHE_WRITE (R190, decision D12; log entry 8). The invariant (kept by
every step: EveryStepKeepsTheInvariant) is a premise because in a state no run reaches OPOS could wrap between two
pixels of the run.
That OUT_LEN, unspecified until DONE (R46, R293), keeps its value is the model's choice (log entry 20, DESIGN CHOICE). -/
def Obligations.RunExecutes : Prop :=
  ∀ (s : State) (n : Nat), s.dec.Inv → s.dec.action = some .body →
    (s.dec.ipos.toNat + 1 ≤ s.dec.inLen.toNat →
      ∃ t, exec (.run n) s = .next t ∧
        ChunkEffect s t 1 s.dec.prev (min n (s.dec.width.toNat * s.dec.height.toNat - s.dec.pxpos.toNat)) true) ∧
    (s.dec.inLen.toNat < s.dec.ipos.toNat + 1 → exec (.run n) s = .next { s with dec := s.dec.fail .truncated })

/-- The two values of DEC_RUN_CACHE_WRITE leave the same DEC but for the slot of PREV, and the same DEC whole when PREV
already stands in its slot: the step that lets the round trip hold for both values (R203, the spec's own inference).
That OUT_LEN, unspecified until DONE (R46, R293), keeps its value is the model's choice (log entry 20, DESIGN CHOICE). -/
def Obligations.RunCacheWriteIsInvisibleWhenPrevIsCached : Prop :=
  ∀ (d a b : Dec) (n : Nat), d.runChunk true n = .next a → d.runChunk false n = .next b →
    a = { b with idx := a.idx } ∧
    (∀ s : Slot, s ≠ Pixel.hash d.prev → Pxc.read a.idx s = Pxc.read b.idx s) ∧
    (Pxc.read d.idx (Pixel.hash d.prev) = d.prev → a = b)

/-- For every record of the table: `exec` answers a next state exactly when the step that executes records of its
position is enabled (R45), and otherwise refuses; it never faults. That it refuses is the model's choice (log
entry 11). -/
def Obligations.RecordExecutesExactlyWhenItsStepIsEnabled : Prop :=
  ∀ (i : Instr) (s : State),
    (s.dec.action = some (stepOf i.position) → ∃ t, exec i s = .next t ∧ t.enc = s.enc ∧ t.dec.strmIn = s.dec.strmIn ∧
      t.dec.inLen = s.dec.inLen ∧ t.dec.reqch = s.dec.reqch ∧ t.turn = s.turn ∧ t.fresh = s.fresh) ∧
    (s.dec.action ≠ some (stepOf i.position) → exec i s = .refused .recordNotEnabled)

/-! ### Framing (43_framing.md) -/

/-- HEADER completes (R232, R181): when no check of R226 applies, `DEC.start` writes the descriptor, OCH, the cleared
cache, the initial PREV and the cursors, clears ERR and ECLASS, takes the pending START (log entry 3), and enters BODY;
nothing else changes.
That OUT_LEN, unspecified until DONE (R46, R293), keeps its value is the model's choice (log entry 20, DESIGN CHOICE). -/
def Obligations.HeaderBeginsTheOperation : Prop :=
  ∀ (s : State) (w h : U32) (c cs : Byte), s.dec.action = some .start →
    14 ≤ s.dec.inLen.toNat → (s.dec.reqch = 0 ∨ s.dec.reqch = 3 ∨ s.dec.reqch = 4) →
    w ≠ 0 → h ≠ 0 → (c = 3 ∨ c = 4) → (cs = 0 ∨ cs = 1) → h.toNat < 400000000 / w.toNat →
    ∃ t, exec (.header w h c cs) s = .next t ∧
      (∀ x : Slot, Pxc.read t.dec.idx x = ⟨0, 0, 0, 0⟩) ∧
      t = { s with dec := { s.dec with
              ctrl := 0
              status := ⟨.body, none, .none⟩
              width := w
              height := h
              channels := c
              colorspace := cs
              och := if s.dec.reqch = 0 then c else s.dec.reqch
              idx := t.dec.idx
              prev := ⟨0, 0, 0, 255⟩
              ipos := 14
              pxpos := 0
              opos := 0 } }

/-- HEADER fails with the first check of R226 that applies (R265), and the failure writes STATUS (R262). That it takes
the pending START is the model's reading (log entry 3, DEDUCED); that WIDTH, HEIGHT, CHANNELS, COLORSPACE and OCH stay
as they were when checks 5 to 8 fail is too (log entry 18, DEDUCED: R262 over the order of R232). -/
def Obligations.HeaderFailsWithTheFirstCheckThatApplies : Prop :=
  ∀ (s : State) (w h : U32) (c cs : Byte), s.dec.action = some .start →
    let failsWith (x : Cause) : Prop := exec (.header w h c cs) s =
      .next { s with dec := { s.dec with ctrl := 0, status := ⟨.failed, some x, x.eclass⟩ } }
    if s.dec.inLen.toNat = 0 then failsWith .empty
    else if ¬(s.dec.reqch = 0 ∨ s.dec.reqch = 3 ∨ s.dec.reqch = 4) then failsWith .reqChannels
    else if s.dec.inLen.toNat < 14 then failsWith .truncated
    else if w.toNat = 0 ∨ h.toNat = 0 then failsWith .zeroDim
    else if ¬(c = 3 ∨ c = 4) then failsWith .channels
    else if ¬(cs = 0 ∨ cs = 1) then failsWith .colorspace
    else if 400000000 / w.toNat ≤ h.toNat then failsWith .tooManyPixels
    else ∃ t, exec (.header w h c cs) s = .next t ∧ t.dec.status.phase = .body

/-- What an accepted descriptor promises; the spec's own inferences (R224 (a) to (c)). -/
def Obligations.AcceptedImagesFitThirtyTwoBits : Prop :=
  ∀ (w h : U32) (c cs : Byte), descriptorCheck w h c cs = none →
    1 ≤ pixelCount w h ∧ pixelCount w h ≤ 400000000 - w.toNat ∧ w.toNat ≤ 200000000 ∧ h.toNat ≤ 399999999 ∧
    pixelCount w h * c.toNat ≤ 1599999996 ∧ pixelCount w h * (c.toNat + 1) + 22 ≤ 2000000017

/-- END completes (R228): IPOS moves past the 8 bytes, OUT_LEN is N * OCH, PHASE is DONE, nothing else changes;
ErrTruncated when fewer than 8 bytes remain. That the marker is checked is the value the spec takes for
CHECK_END_MARKER (decision D14; log entry 8). -/
def Obligations.EndMarkerFinishesTheOperation : Prop :=
  ∀ s : State, s.dec.action = some .finish →
    (s.dec.ipos.toNat + 8 ≤ s.dec.inLen.toNat → exec .endMarker s =
      .next { s with dec := { s.dec with
        ipos := s.dec.ipos + 8
        outLen := BitVec.ofNat 32 (s.dec.width.toNat * s.dec.height.toNat * s.dec.och.toNat)
        status := ⟨.done, none, .none⟩ } }) ∧
    (s.dec.inLen.toNat < s.dec.ipos.toNat + 8 → exec .endMarker s =
      .next { s with dec := { s.dec with ctrl := 0, status := ⟨.failed, some .truncated, .format⟩ } })

/-! ### Steps of the block (10_state.md R45) -/

/-- When DEC moves and the bytes where its enabled step reads decode to a record, the step is that record's execution;
around it the step only hands the turn on (`passTurn`; log entry 1). -/
def Obligations.StepRunsTheDecodedRecord : Prop :=
  ∀ (s : State) (i : Instr) (bs : List Byte), s.mover = some .dec → decode i.position bs = .ok (i, []) →
    s.dec.action = some (stepOf i.position) →
    Memory.readBytes s.dec.strmIn (if i.position = .header then 0 else s.dec.ipos.toNat) bs.length = some bs →
    (i.position = .chunk → s.dec.ipos.toNat + bs.length ≤ s.dec.inLen.toNat) →
    (i.position = .endMarker → s.dec.ipos.toNat + 8 ≤ s.dec.inLen.toNat) →
    step s = passTurn (exec i s)

/-- The three places that raise ErrTruncated: a short header, a chunk not wholly inside STRM_IN, a short end marker
(R183, R260; decisions D14, D15). Of what the spec gives the machine only STATUS changes (R262); the model's own
bookkeeping around it is the pending START that a failing start step takes (`Dec.fail`; log entry 3, DEDUCED) and the
turn that is handed on (`passTurn`; log entry 1, DESIGN CHOICE). -/
def Obligations.StreamsCutShortFailAsTruncated : Prop :=
  ∀ s : State, s.mover = some .dec →
    (s.dec.action = some .start → 0 < s.dec.inLen.toNat → (s.dec.reqch = 0 ∨ s.dec.reqch = 3 ∨ s.dec.reqch = 4) →
      s.dec.inLen.toNat < 14 → step s = .next ({ s with dec := s.dec.fail .truncated }).passTurn) ∧
    (s.dec.action = some .body → s.dec.inLen.toNat ≤ s.dec.ipos.toNat →
      step s = .next ({ s with dec := s.dec.fail .truncated }).passTurn) ∧
    (∀ b0, s.dec.action = some .body → Memory.read s.dec.strmIn s.dec.ipos.toNat = some b0 →
      s.dec.inLen.toNat < s.dec.ipos.toNat + chunkLength b0 →
      step s = .next ({ s with dec := s.dec.fail .truncated }).passTurn) ∧
    (s.dec.action = some .finish → s.dec.inLen.toNat < s.dec.ipos.toNat + 8 →
      step s = .next ({ s with dec := s.dec.fail .truncated }).passTurn)

/-- A whole header without the magic fails with ErrBadMagic (R259), and 8 bytes that are not the marker fail with
ErrEndMarker (R261, decision D14); the failure writes STATUS (R262). That a bad magic leaves the descriptor registers
as they were, although R232 parses before check 4, is the model's reading (log entry 18, DEDUCED); so is that it takes
the pending START (log entry 3, DEDUCED); the turn handed on is the model's own (`passTurn`; log entry 1, DESIGN
CHOICE). -/
def Obligations.WrongMagicAndWrongMarkerFail : Prop :=
  ∀ (s : State) (bs : List Byte), s.mover = some .dec →
    (s.dec.action = some .start → 14 ≤ s.dec.inLen.toNat → (s.dec.reqch = 0 ∨ s.dec.reqch = 3 ∨ s.dec.reqch = 4) →
      Memory.readBytes s.dec.strmIn 0 14 = some bs → bs.take 4 ≠ [0x71, 0x6F, 0x69, 0x66] →
      step s = .next ({ s with dec := s.dec.fail .badMagic }).passTurn) ∧
    (s.dec.action = some .finish → s.dec.ipos.toNat + 8 ≤ s.dec.inLen.toNat →
      Memory.readBytes s.dec.strmIn s.dec.ipos.toNat 8 = some bs → bs ≠ [0, 0, 0, 0, 0, 0, 0, 1] →
      step s = .next ({ s with dec := s.dec.fail .endMarker }).passTurn)

/-- Outside BODY and with no START pending no engine has a step, and the block keeps its state (R45, R277; that `step`
then answers the same state is the model's choice, log entry 10). A failed operation is therefore final until the next
START (R264). -/
def Obligations.QuietBlockKeepsItsState : Prop :=
  ∀ s : State, s.enc.status.phase ≠ .body → s.enc.ctrl = 0 → s.dec.status.phase ≠ .body → s.dec.ctrl = 0 →
    step s = .next s

/-- In BODY exactly one step of an engine is enabled: a body step while pixels are missing, else the end step (R45,
R311). -/
def Obligations.BusyEngineHasExactlyOneStep : Prop :=
  ∀ s : State, s.Inv →
    (s.enc.status.phase = .body →
      s.enc.action = some (if s.enc.pxpos.toNat < s.enc.width.toNat * s.enc.height.toNat then .body else .finish)) ∧
    (s.dec.status.phase = .body →
      s.dec.action = some (if s.dec.pxpos.toNat < s.dec.width.toNat * s.dec.height.toNat then .body else .finish))

/-- The engines share nothing: when both can step, the two steps in either order give the same state (R20). -/
def Obligations.StepsOfTheEnginesCommute : Prop :=
  ∀ s a b : State, encStep s = .next a → decStep s = .next b →
    ∃ c, decStep a = .next c ∧ encStep b = .next c ∧ c.enc = a.enc ∧ c.dec = b.dec

/-- The fetch interface: a word of the opcode table that decodes to a record is run by the very next step, from any
state (the model's own interface, log entries 12 and 13). -/
def Obligations.PlacedTableWordRunsNext : Prop :=
  ∀ (s : State) (nbits w : Nat) (i : Instr), decodeTableWord nbits w = some i →
    step (s.withFetchWord nbits w) = passTurn (exec i (s.withFetchWord nbits w)) ∧
    ∃ t, exec i (s.withFetchWord nbits w) = .next t

/-! ### The encoder (41_chunk_encoder.md, 43_framing.md) -/

/-- `ENC.start` succeeds (R231, R223): when no check of R225 applies, the header stands at offsets 0 to 13 of STRM_OUT
and nothing else of it changes, the cache is cleared, PREV is opaque black, RUN and PXPOS are 0, OPOS is 14, PHASE is
BODY, the pending START is taken (log entry 3); DEC and every other register of ENC are as before.
That BYTE_COUNT, unspecified until DONE (R46, R293), keeps its value is the model's choice (log entry 20, DESIGN CHOICE). -/
def Obligations.EncodeStartWritesTheHeader : Prop :=
  ∀ s : State, s.enc.action = some .start → s.enc.pixLen ≠ 0 → s.enc.descValid = 1 →
    s.enc.width ≠ 0 → s.enc.height ≠ 0 → (s.enc.channels = 3 ∨ s.enc.channels = 4) →
    (s.enc.colorspace = 0 ∨ s.enc.colorspace = 1) → s.enc.height.toNat < 400000000 / s.enc.width.toNat →
    s.enc.pixLen.toNat = s.enc.width.toNat * s.enc.height.toNat * s.enc.channels.toNat →
    ∃ t, encStep s = .next t ∧
      Memory.readBytes t.enc.strmOut 0 14 = some ([0x71, 0x6F, 0x69, 0x66] ++ be32 s.enc.width ++ be32 s.enc.height ++
        [s.enc.channels, s.enc.colorspace]) ∧
      (∀ a, 14 ≤ a → Memory.read t.enc.strmOut a = Memory.read s.enc.strmOut a) ∧
      (∀ x : Slot, Pxc.read t.enc.idx x = ⟨0, 0, 0, 0⟩) ∧
      t = { s with enc := { s.enc with
              ctrl := 0
              status := ⟨.body, none, .none⟩
              idx := t.enc.idx
              prev := ⟨0, 0, 0, 255⟩
              run := 0
              pxpos := 0
              opos := 14
              strmOut := t.enc.strmOut } }

/-- `ENC.start` fails with the first check of R225 that applies (R265); the failure writes STATUS, and STRM_OUT is
untouched (R262, R279 (d)). That it takes the pending START is the model's reading (log entry 3, DEDUCED). -/
def Obligations.EncodeStartFailsWithTheFirstCheckThatApplies : Prop :=
  ∀ s : State, s.enc.action = some .start →
    let failsWith (x : Cause) : Prop := encStep s =
      .next { s with enc := { s.enc with ctrl := 0, status := ⟨.failed, some x, x.eclass⟩ } }
    if s.enc.pixLen.toNat = 0 then failsWith .empty
    else if s.enc.descValid = 0 then failsWith .noDescriptor
    else if s.enc.width.toNat = 0 ∨ s.enc.height.toNat = 0 then failsWith .zeroDim
    else if ¬(s.enc.channels = 3 ∨ s.enc.channels = 4) then failsWith .channels
    else if ¬(s.enc.colorspace = 0 ∨ s.enc.colorspace = 1) then failsWith .colorspace
    else if 400000000 / s.enc.width.toNat ≤ s.enc.height.toNat then failsWith .tooManyPixels
    else if s.enc.pixLen.toNat ≠ s.enc.width.toNat * s.enc.height.toNat * s.enc.channels.toNat then failsWith .pixbufSize
    else ∃ t, encStep s = .next t ∧ t.enc.status.phase = .body

/-- The pixel step answers a next state with CUR as R142 fetches it: all four fields when CHANNELS is 4, PREV's alpha
when it is 3; PREV becomes CUR and PXPOS grows by one (R156). Beside these only RUN, OPOS, the cache and STRM_OUT of ENC
may change; every other register, PIX_IN and DEC are as before.
That BYTE_COUNT, unspecified until DONE (R46, R293), keeps its value is the model's choice (log entry 20, DESIGN CHOICE). -/
def Obligations.PixelStepFetchesThePixel : Prop :=
  ∀ (s : State) (r g b a : Byte), s.enc.action = some .body →
    (s.enc.channels = 4 → Memory.readBytes s.enc.pixIn (4 * s.enc.pxpos.toNat) 4 = some [r, g, b, a]) →
    (s.enc.channels ≠ 4 → Memory.readBytes s.enc.pixIn (3 * s.enc.pxpos.toNat) 3 = some [r, g, b] ∧ a = s.enc.prev.a) →
    ∃ t, encStep s = .next t ∧ t.enc = s.enc.pixel ⟨r, g, b, a⟩ ∧
      t = { s with enc := { s.enc with
              prev := ⟨r, g, b, a⟩
              pxpos := s.enc.pxpos + 1
              run := t.enc.run
              opos := t.enc.opos
              idx := t.enc.idx
              strmOut := t.enc.strmOut } }

/-- The equal path (R144 to R146): RUN grows; at 62 or at the last pixel one RUN chunk of that many pixels is emitted
and RUN is 0, otherwise nothing is emitted; the cache does not change. -/
def Obligations.EqualPixelGrowsOrFlushesTheRun : Prop :=
  ∀ e : Enc,
    ((e.run.toNat + 1 = 62 ∨ e.pxpos.toNat + 1 = e.width.toNat * e.height.toNat) →
      Emits e (e.pixel e.prev) (encode (.run (e.run + 1).toNat)) ∧ (e.pixel e.prev).run = 0) ∧
    (¬(e.run.toNat + 1 = 62 ∨ e.pxpos.toNat + 1 = e.width.toNat * e.height.toNat) →
      Emits e (e.pixel e.prev) [] ∧ (e.pixel e.prev).run = e.run + 1) ∧
    (e.pixel e.prev).idx = e.idx ∧ (e.pixel e.prev).prev = e.prev

/-- The unequal path (R147 to R149): a pending run first, then the pixel's own chunk; RUN is 0; on a hit the cache
keeps its slots, on a miss the pixel stands in its slot and no other slot changes. OPOS is below
the bound of R32, which the invariant gives (EveryStepKeepsTheInvariant), so that it does not wrap between the two
chunks. -/
def Obligations.UnequalPixelFlushesAndEmitsItsChunk : Prop :=
  ∀ (e : Enc) (cur : Pixel), cur ≠ e.prev → e.opos.toNat < 2000000022 →
    Emits e (e.pixel cur) ((if 0 < e.run.toNat then encode (.run e.run.toNat) else []) ++ encode (chunkFor e.idx e.prev cur)) ∧
    (e.pixel cur).run = 0 ∧
    Pxc.read (e.pixel cur).idx (Pixel.hash cur) = cur ∧
    (∀ x : Slot, x ≠ Pixel.hash cur → Pxc.read (e.pixel cur).idx x = Pxc.read e.idx x) ∧
    (Pxc.read e.idx (Pixel.hash cur) = cur → (e.pixel cur).idx = e.idx)

/-- The selector (R155, with R148 and R150 to R154): INDEX on a hit; on a miss with alpha unchanged DIFF when the three
deltas are in −2..1, else LUMA when dg is in −32..31 and the differences are in −8..7, else RGB; RGBA when alpha
changed. The deltas are the representatives in −128..127 of the differences modulo 256; that the differences of
deltas need no wrapping when they fit is the spec's own inference (R150). -/
def Obligations.SelectorFollowsThePriorityTable : Prop :=
  ∀ (idx : Pxc) (prev cur : Pixel) (dr dg db : Int),
    -128 ≤ dr ∧ dr ≤ 127 → -128 ≤ dg ∧ dg ≤ 127 → -128 ≤ db ∧ db ≤ 127 →
    ((prev.r.toNat : Int) + dr) % 256 = cur.r.toNat → ((prev.g.toNat : Int) + dg) % 256 = cur.g.toNat →
    ((prev.b.toNat : Int) + db) % 256 = cur.b.toNat →
    if Pxc.read idx (Pixel.hash cur) = cur then chunkFor idx prev cur = .index (Pixel.hash cur)
    else if cur.a ≠ prev.a then chunkFor idx prev cur = .rgba cur.r cur.g cur.b cur.a
    else if (-2 ≤ dr ∧ dr ≤ 1) ∧ (-2 ≤ dg ∧ dg ≤ 1) ∧ (-2 ≤ db ∧ db ≤ 1) then chunkFor idx prev cur = .diff dr dg db
    else if (-32 ≤ dg ∧ dg ≤ 31) ∧ (-8 ≤ dr - dg ∧ dr - dg ≤ 7) ∧ (-8 ≤ db - dg ∧ db - dg ≤ 7) then
      chunkFor idx prev cur = .luma dg (dr - dg) (db - dg)
    else chunkFor idx prev cur = .rgb cur.r cur.g cur.b

/-- Every chunk the selector chooses is well formed, so its bytes keep the tag bits intact, and its own execution on
PREV gives the pixel back; the spec's own inferences (R163, R164). -/
def Obligations.ChosenChunkReproducesThePixel : Prop :=
  ∀ (idx : Pxc) (prev cur : Pixel),
    (chunkFor idx prev cur).wf = true ∧
    (match chunkFor idx prev cur with
      | .index s => s = Pixel.hash cur ∧ Pxc.read idx s = cur
      | .diff dr dg db => diffPixel prev dr dg db = cur
      | .luma dg x y => lumaPixel prev dg x y = cur
      | .rgb r g b => rgbPixel prev r g b = cur
      | .rgba r g b a => (⟨r, g, b, a⟩ : Pixel) = cur
      | .run _ => False
      | .header _ _ _ _ => False
      | .endMarker => False)

/-- No two adjacent INDEX chunks name the same slot, without any guard state; the spec's own inference (R159). -/
def Obligations.AdjacentIndexChunksDiffer : Prop :=
  ∀ (e : Enc) (p q : Pixel) (s : Slot), p ≠ e.prev → q ≠ p → chunkFor e.idx e.prev p = .index s →
    chunkFor (e.pixel p).idx (e.pixel p).prev q ≠ .index s

/-- Three-channel input: a fetched pixel has PREV's alpha, so RGBA is never chosen for it; the spec's own inference
(R161). -/
def Obligations.ThreeChannelInputNeverChangesAlpha : Prop :=
  ∀ (e : Enc) (cur : Pixel), e.channels = 3 → e.fetch = some cur →
    cur.a = e.prev.a ∧ ∀ r g b a, chunkFor e.idx e.prev cur ≠ .rgba r g b a

/-- The pixel step cannot fail (R266) and emits at most 6 bytes (R66): from a state that meets the invariant, with the
pixel's bytes placed, it answers a next state still in BODY. -/
def Obligations.PixelStepNeverFails : Prop :=
  ∀ s : State, s.Inv → s.enc.action = some .body → s.enc.pixIn.Holds s.enc.pixLen.toNat →
    ∃ t bs, encStep s = .next t ∧ t.enc.status.phase = .body ∧ Emits s.enc t.enc bs ∧ bs.length ≤ 6

/-- `ENC.end` (R227): from a state that meets the invariant no run is pending, the 8 marker bytes are emitted,
BYTE_COUNT is the final OPOS, between 23 and N*(CHANNELS+1)+22, PHASE is DONE, and nothing else changes. -/
def Obligations.EncodeEndWritesTheMarker : Prop :=
  ∀ s : State, s.Inv → s.enc.action = some .finish →
    s.enc.run = 0 ∧
    ∃ t, encStep s = .next t ∧ Emits s.enc t.enc [0, 0, 0, 0, 0, 0, 0, 1] ∧ t.enc.byteCount = t.enc.opos ∧
      23 ≤ t.enc.byteCount.toNat ∧
      t.enc.byteCount.toNat ≤ s.enc.width.toNat * s.enc.height.toNat * (s.enc.channels.toNat + 1) + 22 ∧
      t = { s with enc := { s.enc with
              byteCount := t.enc.byteCount
              opos := t.enc.opos
              strmOut := t.enc.strmOut
              status := ⟨.done, none, .none⟩ } }

/-! ### The host (10_state.md R34, R41) -/

/-- STATUS (R38): PHASE in bits 1:0, ERR in 7:4, ECLASS in 9:8, the reserved bits 0, with the numbers of R38 and of
R250 written out; and the class that R250 and R251 give each cause. The numbering is the spec's decision (D6, D9). -/
def Obligations.StatusWordHasTheFieldsOfItsTable : Prop :=
  (∀ t : Status,
    t.word.extractLsb' 0 2 = (match t.phase with
      | .idle => 0
      | .body => 1
      | .done => 2
      | .failed => 3) ∧
    t.word.extractLsb' 2 2 = 0 ∧
    t.word.extractLsb' 4 4 = (match t.err with
      | none => 0
      | some .empty => 1
      | some .noDescriptor => 2
      | some .zeroDim => 3
      | some .channels => 4
      | some .colorspace => 5
      | some .tooManyPixels => 6
      | some .reqChannels => 7
      | some .badMagic => 8
      | some .truncated => 9
      | some .endMarker => 10
      | some .pixbufSize => 11) ∧
    t.word.extractLsb' 8 2 = (match t.eclass with
      | .none => 0
      | .invalidInput => 1
      | .format => 2) ∧
    t.word.extractLsb' 10 6 = 0) ∧
  (∀ c ∈ [Cause.empty, .noDescriptor, .zeroDim, .channels, .colorspace, .tooManyPixels, .reqChannels, .pixbufSize],
    c.eclass = .invalidInput) ∧
  (∀ c ∈ [Cause.badMagic, .truncated, .endMarker], c.eclass = .format)

/-- When an operation has finished and no other has started the host reads its results as they stand (R41), and reading
changes nothing then. At any time the host reads CTRL as 0 (R233) and STATUS as its word, also without changing
anything; that STATUS reads as BODY, with no cause and no class, while a START is pending is the model's reading (log
entry 3, DEDUCED). -/
def Obligations.ResultsReadBackWhenDone : Prop :=
  ∀ s : State,
    (hostRead .encCtrl s = (0, s) ∧ hostRead .decCtrl s = (0, s) ∧
      (s.enc.ctrl = 0 → hostRead .encStatus s = (s.enc.status.word.setWidth 32, s)) ∧
      (s.enc.ctrl = 1 → hostRead .encStatus s = (1, s)) ∧
      (s.dec.ctrl = 0 → hostRead .decStatus s = (s.dec.status.word.setWidth 32, s)) ∧
      (s.dec.ctrl = 1 → hostRead .decStatus s = (1, s))) ∧
    (s.dec.status.phase = .done → s.dec.ctrl = 0 →
      hostRead .decWidth s = (s.dec.width, s) ∧ hostRead .decHeight s = (s.dec.height, s) ∧
      hostRead .decChannels s = (s.dec.channels.setWidth 32, s) ∧
      hostRead .decColorspace s = (s.dec.colorspace.setWidth 32, s) ∧
      hostRead .decOch s = (s.dec.och.setWidth 32, s) ∧ hostRead .decOutLen s = (s.dec.outLen, s) ∧
      ∀ (off : U32) (b : Byte), off.toNat < s.dec.outLen.toNat → Memory.read s.dec.pixOut off.toNat = some b →
        hostRead (.decPixOut off) s = (b.setWidth 32, s)) ∧
    (s.enc.status.phase = .done → s.enc.ctrl = 0 →
      hostRead .encByteCount s = (s.enc.byteCount, s) ∧
      ∀ (off : U32) (b : Byte), off.toNat < s.enc.byteCount.toNat → Memory.read s.enc.strmOut off.toNat = some b →
        hostRead (.encStrmOut off) s = (b.setWidth 32, s))

/-- A host write to an engine that is not busy stores its value and changes nothing else (R34, R60): a W register holds
the value written, a byte of PIX_IN or STRM_IN reads as the value written and every other byte as before. A write of 1
to CTRL makes the start step the engine's enabled step (R45, R233). An engine is busy in BODY (R34) and, the model's
reading, while a START is pending (log entry 3, DEDUCED). While it is busy the write is refused by name (log entry 4,
DEDUCED: R304 row 1 gives it no meaning). That BYTE_COUNT and OUT_LEN, unspecified from START to DONE (R46, R293), keep
their values when START is written is the model's choice (log entry 20, DESIGN CHOICE). -/
def Obligations.HostWritesWaitForAQuietEngine : Prop :=
  ∀ (w : HostWrite) (s : State),
    (s.busy .enc = true ↔ s.enc.status.phase = .body ∨ s.enc.ctrl = 1) ∧
    (s.busy .dec = true ↔ s.dec.status.phase = .body ∨ s.dec.ctrl = 1) ∧
    (s.busy w.engine = false →
      match w with
      | .encCtrl v => ∃ t, hostWrite w s = .next t ∧ t = { s with enc := { s.enc with ctrl := v } } ∧
          (v = 1 → t.enc.action = some .start)
      | .encWidth v => hostWrite w s = .next { s with enc := { s.enc with width := v } }
      | .encHeight v => hostWrite w s = .next { s with enc := { s.enc with height := v } }
      | .encChannels v => hostWrite w s = .next { s with enc := { s.enc with channels := v } }
      | .encColorspace v => hostWrite w s = .next { s with enc := { s.enc with colorspace := v } }
      | .encDescValid v => hostWrite w s = .next { s with enc := { s.enc with descValid := v } }
      | .encPixLen v => hostWrite w s = .next { s with enc := { s.enc with pixLen := v } }
      | .encPixIn off v => ∃ t, hostWrite w s = .next t ∧ t = { s with enc := { s.enc with pixIn := t.enc.pixIn } } ∧
          Memory.read t.enc.pixIn off.toNat = some v ∧
          ∀ a, a ≠ off.toNat → Memory.read t.enc.pixIn a = Memory.read s.enc.pixIn a
      | .decCtrl v => ∃ t, hostWrite w s = .next t ∧ t = { s with dec := { s.dec with ctrl := v } } ∧
          (v = 1 → t.dec.action = some .start)
      | .decReqch v => hostWrite w s = .next { s with dec := { s.dec with reqch := v } }
      | .decInLen v => hostWrite w s = .next { s with dec := { s.dec with inLen := v } }
      | .decStrmIn off v => ∃ t, hostWrite w s = .next t ∧ t = { s with dec := { s.dec with strmIn := t.dec.strmIn } } ∧
          Memory.read t.dec.strmIn off.toNat = some v ∧
          ∀ a, a ≠ off.toNat → Memory.read t.dec.strmIn a = Memory.read s.dec.strmIn a) ∧
    (s.busy w.engine = true →
      hostWrite w s = .refused (if w.isStart then .startWhileBusy else .hostWriteWhileBusy))

/-! ### Invariants and whole operations -/

/-- After power-on reset both engines are IDLE with ERR and ECLASS 0 and CTRL 0, and no engine has an enabled step (R46,
R290). That `step` then answers the same state is the model's idle step (log entry 10, DESIGN CHOICE). -/
def Obligations.ResetLeavesAQuietBlock : Prop :=
  State.reset.enc.status = ⟨.idle, none, .none⟩ ∧ State.reset.dec.status = ⟨.idle, none, .none⟩ ∧
  State.reset.enc.ctrl = 0 ∧ State.reset.dec.ctrl = 0 ∧ State.reset.enc.action = none ∧ State.reset.dec.action = none ∧
  step State.reset = .next State.reset

/-- The invariant holds of `State.reset`. R46 and R290 give its part about STATUS (IDLE, ERR and ECLASS 0); the parts about
BODY and DONE say nothing of an IDLE engine. That RUN, PXPOS and OPOS are within their bounds rests on the zeros the
model chose for registers the spec leaves unspecified (log entry 6, DESIGN CHOICE, unsafe), and that the byte spaces are in
canonical form on their being empty (log entry 5, DESIGN CHOICE). -/
def Obligations.InvariantHoldsAtReset : Prop := State.reset.Inv

/-- Every step keeps the invariant of R47 (the spec's own inferences): run bounds, cursor relations, output bounds,
coherent caches, legal descriptors, agreeing STATUS fields, canonical byte spaces; and the bounds of R31 and R32 that keep
the 32-bit cursors from wrapping. -/
def Obligations.EveryStepKeepsTheInvariant : Prop :=
  ∀ s t : State, s.Inv → step s = .next t → t.Inv

/-- Every host move and the platform's reset keep the invariant. For the reset, R292 and R290 give only the part about
STATUS (IDLE, ERR and ECLASS 0); the bounds of RUN, PXPOS and OPOS after it rest on the values the model chose (log entries
6 and 15, DESIGN CHOICE, unsafe), and the form of the byte spaces on their being emptied (log entries 5 and 15, DESIGN
CHOICE). -/
def Obligations.HostMovesKeepTheInvariant : Prop :=
  ∀ s : State, s.Inv → (∀ (w : HostWrite) (t : State), hostWrite w s = .next t → t.Inv) ∧
    (∀ r : HostRead, (hostRead r s).2.Inv) ∧ (powerReset s).Inv

/-- In every state a run reaches, with host moves and resets anywhere: FAILED means ERR ≠ 0 and ECLASS ≠ 0, any other
phase that both are 0, ENC reports only codes 1 to 6 and 11 and never class 2, DEC only codes 1 and 3 to 10; the
spec's own inferences (R279 (b), (c)). -/
def Obligations.ReachedStatesReportOnlyTheirCauses : Prop :=
  ∀ s : State, Reachable s →
    (s.enc.status.phase = .failed → s.enc.status.word.extractLsb' 4 4 ∈ [1#4, 2#4, 3#4, 4#4, 5#4, 6#4, 11#4] ∧
      s.enc.status.word.extractLsb' 8 2 = 1#2) ∧
    (s.enc.status.phase ≠ .failed → s.enc.status.word.extractLsb' 4 4 = 0 ∧ s.enc.status.word.extractLsb' 8 2 = 0) ∧
    (s.dec.status.phase = .failed →
      s.dec.status.word.extractLsb' 4 4 ∈ [1#4, 3#4, 4#4, 5#4, 6#4, 7#4, 8#4, 9#4, 10#4] ∧
      s.dec.status.word.extractLsb' 8 2 ∈ [1#2, 2#2]) ∧
    (s.dec.status.phase ≠ .failed → s.dec.status.word.extractLsb' 4 4 = 0 ∧ s.dec.status.word.extractLsb' 8 2 = 0)

/-- Every decode operation ends: from a START with the whole stream placed, DONE or FAILED is reached within N + 2
steps, whatever the stream holds; the spec's own inference (R311, R279 (a)). -/
def Obligations.EveryDecodeOperationEnds : Prop :=
  ∀ s : State, s.enc.action = none → s.dec.action = some .start → s.dec.strmIn.Holds s.dec.inLen.toNat →
    ∃ k t, runs k s t ∧ t.dec.status.ended ∧ t.dec.ctrl = 0 ∧ k ≤ t.dec.width.toNat * t.dec.height.toNat + 2

/-- A decode operation is a function of STRM_IN, IN_LEN and REQCH (R202, R293; the spec's own inferences): started from
two states that agree on these, it takes the same steps to the same STATUS and, when DONE, to the same results. -/
def Obligations.DecodingForgetsTheState : Prop :=
  ∀ s s' : State, s.enc.action = none → s'.enc.action = none → s.dec.action = some .start → s'.dec.action = some .start →
    s'.dec.strmIn = s.dec.strmIn → s'.dec.inLen = s.dec.inLen → s'.dec.reqch = s.dec.reqch →
    ∀ (k : Nat) (t : State), 1 ≤ k → runs k s t → t.dec.status.ended →
      ∃ t', runs k s' t' ∧ t'.dec.status = t.dec.status ∧
        (t.dec.status.phase = .done →
          t'.dec.width = t.dec.width ∧ t'.dec.height = t.dec.height ∧ t'.dec.channels = t.dec.channels ∧
          t'.dec.colorspace = t.dec.colorspace ∧ t'.dec.och = t.dec.och ∧ t'.dec.outLen = t.dec.outLen ∧
          ∀ a, a < t.dec.outLen.toNat → Memory.read t'.dec.pixOut a = Memory.read t.dec.pixOut a)

/-- Every encode operation ends: FAILED after the start step when a check applies; otherwise it is in BODY after every
step from the first to the (N + 1)st and DONE after the (N + 2)nd, so that it takes exactly N + 2 steps; the spec's own
inference (R266, R311). -/
def Obligations.EveryEncodeOperationEnds : Prop :=
  ∀ s : State, s.dec.action = none → s.enc.action = some .start → s.enc.pixIn.Holds s.enc.pixLen.toNat →
    (s.enc.startCheck ≠ none → ∃ t, runs 1 s t ∧ t.enc.status.phase = .failed) ∧
    (s.enc.startCheck = none →
      (∀ k, 1 ≤ k → k ≤ s.enc.width.toNat * s.enc.height.toNat + 1 → ∃ u, runs k s u ∧ u.enc.status.phase = .body) ∧
      ∃ t, runs (s.enc.width.toNat * s.enc.height.toNat + 2) s t ∧ t.enc.status.phase = .done)

/-- Lockstep, one chunk at a time (R130, R203; the spec's own inferences). (a) The chunk ENC chooses for a pixel that
differs from PREV, executed by DEC in lockstep, produces that pixel and leaves the engines in lockstep. (b) A RUN
keeps them in lockstep, for both values of DEC_RUN_CACHE_WRITE. -/
def Obligations.EachChunkKeepsTheEnginesInLockstep : Prop :=
  (∀ (s : State) (cur : Pixel), Lockstep s.enc s.dec → cur ≠ s.enc.prev → s.dec.action = some .body →
    s.dec.ipos.toNat + (chunkFor s.enc.idx s.enc.prev cur).length ≤ s.dec.inLen.toNat →
    ∃ t, exec (chunkFor s.enc.idx s.enc.prev cur) s = .next t ∧ t.dec.prev = cur ∧ t.dec.pxpos = s.dec.pxpos + 1 ∧
      Lockstep (s.enc.pixel cur) t.dec) ∧
  (∀ (e : Enc) (d : Dec) (cacheWrite : Bool) (n : Nat), Lockstep e d → d.action = some .body →
    d.ipos.toNat + 1 ≤ d.inLen.toNat → 1 ≤ n → n ≤ d.pixels - d.pxpos.toNat →
    ∃ d', d.runChunk cacheWrite n = .next d' ∧ d'.prev = e.prev ∧ d'.pxpos = cursorAdd d.pxpos n ∧ Lockstep e d')

/-- The round trip (R236; the spec's own inference, for the values the spec takes for its two parameters). An encode
operation that passes its checks ends DONE; a decode operation on the bytes it wrote, asked for the stream's own
channel count or the same one, ends DONE with the same descriptor and exactly the pixel bytes that were encoded. -/
def Obligations.DecodingAnEncodedImageGivesItBack : Prop :=
  ∀ s : State, s.dec.action = none → s.enc.action = some .start → s.enc.startCheck = none →
    s.enc.pixIn.Holds s.enc.pixLen.toNat →
    ∃ s', runs (s.enc.width.toNat * s.enc.height.toNat + 2) s s' ∧ s'.enc.status.phase = .done ∧
      ∀ t : State, t.enc.action = none → t.dec.action = some .start → t.dec.inLen = s'.enc.byteCount →
        (∀ a, a < s'.enc.byteCount.toNat → Memory.read t.dec.strmIn a = Memory.read s'.enc.strmOut a) →
        (t.dec.reqch = 0 ∨ t.dec.reqch = s.enc.channels) →
        ∃ k t', runs k t t' ∧ t'.dec.status.phase = .done ∧ t'.dec.width = s.enc.width ∧ t'.dec.height = s.enc.height ∧
          t'.dec.channels = s.enc.channels ∧ t'.dec.colorspace = s.enc.colorspace ∧ t'.dec.och = s.enc.channels ∧
          t'.dec.outLen = s.enc.pixLen ∧
          ∀ a, a < s.enc.pixLen.toNat → Memory.read t'.dec.pixOut a = Memory.read s.enc.pixIn a

/-- The 32-bit cursors never wrap (CURSOR_BITS, R7, R30 to R32): from a state that meets the invariant, a step taken
while an engine is in BODY moves its cursors only up, never past IN_LEN, N, N * OCH and the output bound of R69. The bounds are the spec's own
inferences. -/
def Obligations.CursorsOnlyRise : Prop :=
  ∀ s t : State, s.Inv → step s = .next t →
    (s.dec.status.phase = .body →
      s.dec.ipos.toNat ≤ t.dec.ipos.toNat ∧ t.dec.ipos.toNat ≤ s.dec.inLen.toNat ∧
      s.dec.pxpos.toNat ≤ t.dec.pxpos.toNat ∧ t.dec.pxpos.toNat ≤ s.dec.width.toNat * s.dec.height.toNat ∧
      s.dec.opos.toNat ≤ t.dec.opos.toNat ∧
      t.dec.opos.toNat ≤ s.dec.width.toNat * s.dec.height.toNat * s.dec.och.toNat) ∧
    (s.enc.status.phase = .body →
      s.enc.pxpos.toNat ≤ t.enc.pxpos.toNat ∧ t.enc.pxpos.toNat ≤ s.enc.width.toNat * s.enc.height.toNat ∧
      s.enc.opos.toNat ≤ t.enc.opos.toNat ∧
      t.enc.opos.toNat ≤ s.enc.width.toNat * s.enc.height.toNat * (s.enc.channels.toNat + 1) + 22)
end

