-- ==== Sys2Proof/Laws/Cache.lean ====
section
/-! SUPPORT. The laws of the pixel cache (40_pixel_cache.md). -/

namespace Sys2Proof.Machine

namespace Pxc

@[simp] theorem read_clear (s : Slot) : read clear s = Pixel.zero := by
  simp [read, clear]

theorem read_set (c : Pxc) (s t : Slot) (p : Pixel) : read (set c s p) t = if s = t then p else read c t := by
  simp only [read, set, Vector.getElem_set, BitVec.toNat_inj]

/-- What an insert does to a slot (R126). -/
theorem read_insert (c : Pxc) (p : Pixel) (t : Slot) :
    read (insert c p) t = if Pixel.hash p = t then p else read c t := read_set ..

@[simp] theorem read_insert_same (c : Pxc) (p : Pixel) : read (insert c p) (Pixel.hash p) = p := by
  simp [read_insert]

theorem read_insert_other (c : Pxc) {p : Pixel} {t : Slot} (h : Pixel.hash p ≠ t) : read (insert c p) t = read c t := by
  simp [read_insert, h]

/-- Two caches with the same slots are the same cache. -/
theorem ext_read {c d : Pxc} (h : ∀ s, read c s = read d s) : c = d := by
  refine Vector.ext fun i hi => ?_
  have := h (BitVec.ofNat 6 i)
  simpa [read, Nat.mod_eq_of_lt hi] using this

/-- Inserting a pixel the slot already holds changes nothing (R126). -/
theorem insert_of_read {c : Pxc} {p : Pixel} (h : read c (Pixel.hash p) = p) : insert c p = c := by
  refine ext_read fun s => ?_
  rw [read_insert]
  split
  · rename_i hs; rw [← hs, h]
  · rfl

end Pxc

@[simp] theorem hash_zero : Pixel.hash Pixel.zero = 0 := by decide

@[simp] theorem hash_opaqueBlack : Pixel.hash Pixel.opaqueBlack = 53 := by decide

theorem hit_iff (c : Pxc) (p : Pixel) : hit c p = true ↔ Pxc.read c (Pixel.hash p) = p := by
  simp [hit, Pxc.probe]

theorem same_iff (p q : Pixel) : same p q = true ↔ p = q := by simp [same]

theorem alphaSame_iff (p q : Pixel) : alphaSame p q = true ↔ p.a = q.a := by simp [alphaSame]

end Sys2Proof.Machine
end

