-- ==== Sys2Proof/Laws/Memory.lean ====
section
/-! SUPPORT. The laws of a byte space: read after write, what a block write changes, and the canonical form. -/

namespace Sys2Proof.Machine

namespace Memory

theorem read_write (m : Memory) (a c : Nat) (b : Byte) :
    read (write m a b) c = if a = c then some b else read m c := by
  induction m with
  | nil => simp [write, read]
  | cons x m ih =>
    obtain ⟨k, v⟩ := x
    simp only [write]
    split
    · simp [read]
    · split
      · rename_i h
        subst h
        by_cases h : a = c <;> simp [read, h]
      · rename_i h
        by_cases hk : k = c
        · have : a ≠ c := fun e => h (e.trans hk.symm)
          simp [read, hk, this]
        · simp [read, hk, ih]

@[simp] theorem read_write_same (m : Memory) (a : Nat) (b : Byte) : read (write m a b) a = some b := by
  simp [read_write]

theorem read_write_other (m : Memory) {a c : Nat} (b : Byte) (h : a ≠ c) : read (write m a b) c = read m c := by
  simp [read_write, h]

/-- What a block write does to a byte: inside the block the block's byte, outside nothing. -/
theorem read_writeBytes (m : Memory) (a : Nat) (bs : List Byte) (c : Nat) :
    read (writeBytes m a bs) c = if a ≤ c ∧ c < a + bs.length then bs[c - a]? else read m c := by
  induction bs generalizing m a with
  | nil => simp [writeBytes]
  | cons b bs ih =>
    rw [writeBytes, ih, read_write]
    by_cases h : a = c
    · subst h; simp
    · by_cases h2 : a < c
      · have : c - a = (c - (a + 1)) + 1 := by omega
        simp only [this, List.getElem?_cons_succ, List.length_cons, h, if_false]
        congr 1
        apply propext; omega
      · rw [if_neg (by omega), if_neg h, if_neg (by omega)]

theorem read_writeBytes_outside (m : Memory) (a : Nat) (bs : List Byte) (c : Nat)
    (h : c < a ∨ a + bs.length ≤ c) : read (writeBytes m a bs) c = read m c := by
  rw [read_writeBytes, if_neg (by omega)]

theorem read_writeBytes_inside (m : Memory) (a : Nat) (bs : List Byte) (i : Nat) (h : i < bs.length) :
    read (writeBytes m a bs) (a + i) = bs[i]? := by
  rw [read_writeBytes, if_pos (by omega)]
  congr 1
  omega

/-- A block read, byte by byte. -/
theorem readBytes_eq_some_iff (m : Memory) (a n : Nat) (bs : List Byte) :
    readBytes m a n = some bs ↔ bs.length = n ∧ ∀ i, i < n → read m (a + i) = bs[i]? := by
  induction n generalizing a bs with
  | zero => simp [readBytes, eq_comm (a := [])]
  | succ n ih =>
    constructor
    · intro h
      simp only [readBytes] at h
      split at h
      · rename_i b bs' hb hbs
        obtain rfl := Option.some.inj h
        obtain ⟨hl, hr⟩ := (ih _ _).1 hbs
        refine ⟨by simp [hl], fun i hi => ?_⟩
        cases i with
        | zero => simpa using hb
        | succ i =>
          have := hr i (by omega)
          rw [show a + (i + 1) = a + 1 + i by omega, this]
          simp
      · cases h
    · rintro ⟨hl, hr⟩
      match bs, hl with
      | b :: bs, hl =>
        have hb : read m a = some b := by simpa using hr 0 (by omega)
        have hbs : readBytes m (a + 1) n = some bs := by
          refine (ih _ _).2 ⟨by simpa using hl, fun i hi => ?_⟩
          have := hr (i + 1) (by omega)
          rw [show a + 1 + i = a + (i + 1) by omega, this]
          simp
        simp [readBytes, hb, hbs]

/-- Two spaces that agree on a block give the same block read. -/
theorem readBytes_congr {m m' : Memory} {a n : Nat} (h : ∀ i, i < n → read m (a + i) = read m' (a + i)) :
    readBytes m a n = readBytes m' a n := by
  induction n generalizing a with
  | zero => rfl
  | succ n ih =>
    have h0 := h 0 (by omega)
    have h1 : readBytes m (a + 1) n = readBytes m' (a + 1) n := by
      refine ih fun i hi => ?_
      have := h (i + 1) (by omega)
      rwa [show a + (i + 1) = a + 1 + i by omega] at this
    simp only [Nat.add_zero] at h0
    simp [readBytes, h0, h1]

/-- What was written as a block reads back as that block. -/
theorem readBytes_writeBytes (m : Memory) (a : Nat) (bs : List Byte) :
    readBytes (writeBytes m a bs) a bs.length = some bs :=
  (readBytes_eq_some_iff ..).2 ⟨rfl, fun i hi => read_writeBytes_inside m a bs i hi⟩

/-- A block read that a block write does not touch. -/
theorem readBytes_writeBytes_outside (m : Memory) (a : Nat) (bs : List Byte) (c n : Nat)
    (h : c + n ≤ a ∨ a + bs.length ≤ c) : readBytes (writeBytes m a bs) c n = readBytes m c n :=
  readBytes_congr fun i hi => read_writeBytes_outside m a bs (c + i) (by omega)

theorem readBytes_of_read {m : Memory} {a n : Nat} (h : ∀ i, i < n → ∃ b, read m (a + i) = some b) :
    ∃ bs, readBytes m a n = some bs := by
  induction n generalizing a with
  | zero => exact ⟨[], rfl⟩
  | succ n ih =>
    obtain ⟨b, hb⟩ := h 0 (by omega)
    obtain ⟨bs, hbs⟩ := ih (a := a + 1) fun i hi => by
      obtain ⟨b, hb⟩ := h (i + 1) (by omega)
      exact ⟨b, by rwa [show a + 1 + i = a + (i + 1) by omega]⟩
    exact ⟨b :: bs, by simp only [Nat.add_zero] at hb; simp [readBytes, hb, hbs]⟩

theorem readBytes_length {m : Memory} {a n : Nat} {bs : List Byte} (h : readBytes m a n = some bs) :
    bs.length = n := ((readBytes_eq_some_iff ..).1 h).1

/-- A block write in two parts. -/
theorem writeBytes_append (m : Memory) (a : Nat) (bs cs : List Byte) :
    writeBytes m a (bs ++ cs) = writeBytes (writeBytes m a bs) (a + bs.length) cs := by
  induction bs generalizing m a with
  | nil => rfl
  | cons b bs ih => simp only [List.cons_append, writeBytes, ih, List.length_cons]; congr 1; omega

/-! ### The canonical form -/

theorem mem_write {m : Memory} {a : Nat} {b : Byte} {x : Host.Cell} (h : x ∈ write m a b) :
    x = (a, b) ∨ x ∈ m := by
  induction m with
  | nil => simpa [write] using h
  | cons y m ih =>
    obtain ⟨k, v⟩ := y
    simp only [write] at h
    split at h
    · simpa using h
    · split at h
      · rcases List.mem_cons.1 h with h | h
        · exact .inl h
        · exact .inr (List.mem_cons_of_mem _ h)
      · rcases List.mem_cons.1 h with h | h
        · exact .inr (h ▸ List.mem_cons_self)
        · exact (ih h).imp_right (List.mem_cons_of_mem _)

/-- A write keeps the canonical form. -/
theorem wf_write {m : Memory} (h : m.wf) (a : Nat) (b : Byte) : (write m a b).wf := by
  induction m with
  | nil => simp [write, wf]
  | cons x m ih =>
    obtain ⟨k, v⟩ := x
    obtain ⟨hx, hm⟩ := List.pairwise_cons.1 h
    simp only [write]
    split
    · rename_i hlt
      refine List.pairwise_cons.2 ⟨fun y hy => ?_, h⟩
      rcases List.mem_cons.1 hy with rfl | hy
      · exact hlt
      · exact Nat.lt_trans hlt (hx y hy)
    · split
      · rename_i heq
        subst heq
        exact List.pairwise_cons.2 ⟨hx, hm⟩
      · refine List.pairwise_cons.2 ⟨fun y hy => ?_, ih hm⟩
        rcases mem_write hy with rfl | hy
        · show k < a
          omega
        · exact hx y hy

/-- A block write keeps the canonical form. -/
theorem wf_writeBytes {m : Memory} (h : m.wf) (a : Nat) (bs : List Byte) : (writeBytes m a bs).wf := by
  induction bs generalizing m a with
  | nil => exact h
  | cons b bs ih => exact ih (wf_write h a b) (a + 1)

theorem read_eq_none_of_lt {m : Memory} {a : Nat} (h : ∀ x ∈ m, a < x.1) : read m a = none := by
  induction m with
  | nil => rfl
  | cons x m ih =>
    obtain ⟨k, v⟩ := x
    have := h (k, v) List.mem_cons_self
    simp only at this
    rw [read, if_neg (by omega), ih fun y hy => h y (List.mem_cons_of_mem _ hy)]

end Memory

end Sys2Proof.Machine
end

