-- ==== Sys2Proof/Laws/State.lean ====
section
/-! SUPPORT. One lemma per field per update of an engine's record, and of the two fields of the model's own. -/

namespace Sys2Proof.Machine

/-! ### ENC -/

@[simp] theorem Enc.fail_ctrl (e : Enc) (c : Cause) : (Enc.fail e c).ctrl = 0 := rfl
@[simp] theorem Enc.fail_status (e : Enc) (c : Cause) : (Enc.fail e c).status = Status.fail c := rfl
@[simp] theorem Enc.fail_width (e : Enc) (c : Cause) : (Enc.fail e c).width = e.width := rfl
@[simp] theorem Enc.fail_height (e : Enc) (c : Cause) : (Enc.fail e c).height = e.height := rfl
@[simp] theorem Enc.fail_channels (e : Enc) (c : Cause) : (Enc.fail e c).channels = e.channels := rfl
@[simp] theorem Enc.fail_colorspace (e : Enc) (c : Cause) : (Enc.fail e c).colorspace = e.colorspace := rfl
@[simp] theorem Enc.fail_descValid (e : Enc) (c : Cause) : (Enc.fail e c).descValid = e.descValid := rfl
@[simp] theorem Enc.fail_pixLen (e : Enc) (c : Cause) : (Enc.fail e c).pixLen = e.pixLen := rfl
@[simp] theorem Enc.fail_byteCount (e : Enc) (c : Cause) : (Enc.fail e c).byteCount = e.byteCount := rfl
@[simp] theorem Enc.fail_idx (e : Enc) (c : Cause) : (Enc.fail e c).idx = e.idx := rfl
@[simp] theorem Enc.fail_prev (e : Enc) (c : Cause) : (Enc.fail e c).prev = e.prev := rfl
@[simp] theorem Enc.fail_run (e : Enc) (c : Cause) : (Enc.fail e c).run = e.run := rfl
@[simp] theorem Enc.fail_pxpos (e : Enc) (c : Cause) : (Enc.fail e c).pxpos = e.pxpos := rfl
@[simp] theorem Enc.fail_opos (e : Enc) (c : Cause) : (Enc.fail e c).opos = e.opos := rfl
@[simp] theorem Enc.fail_pixIn (e : Enc) (c : Cause) : (Enc.fail e c).pixIn = e.pixIn := rfl
@[simp] theorem Enc.fail_strmOut (e : Enc) (c : Cause) : (Enc.fail e c).strmOut = e.strmOut := rfl

@[simp] theorem Enc.emit_ctrl (e : Enc) (bs : List Byte) : (Enc.emit e bs).ctrl = e.ctrl := rfl
@[simp] theorem Enc.emit_status (e : Enc) (bs : List Byte) : (Enc.emit e bs).status = e.status := rfl
@[simp] theorem Enc.emit_width (e : Enc) (bs : List Byte) : (Enc.emit e bs).width = e.width := rfl
@[simp] theorem Enc.emit_height (e : Enc) (bs : List Byte) : (Enc.emit e bs).height = e.height := rfl
@[simp] theorem Enc.emit_channels (e : Enc) (bs : List Byte) : (Enc.emit e bs).channels = e.channels := rfl
@[simp] theorem Enc.emit_colorspace (e : Enc) (bs : List Byte) : (Enc.emit e bs).colorspace = e.colorspace := rfl
@[simp] theorem Enc.emit_descValid (e : Enc) (bs : List Byte) : (Enc.emit e bs).descValid = e.descValid := rfl
@[simp] theorem Enc.emit_pixLen (e : Enc) (bs : List Byte) : (Enc.emit e bs).pixLen = e.pixLen := rfl
@[simp] theorem Enc.emit_byteCount (e : Enc) (bs : List Byte) : (Enc.emit e bs).byteCount = e.byteCount := rfl
@[simp] theorem Enc.emit_idx (e : Enc) (bs : List Byte) : (Enc.emit e bs).idx = e.idx := rfl
@[simp] theorem Enc.emit_prev (e : Enc) (bs : List Byte) : (Enc.emit e bs).prev = e.prev := rfl
@[simp] theorem Enc.emit_run (e : Enc) (bs : List Byte) : (Enc.emit e bs).run = e.run := rfl
@[simp] theorem Enc.emit_pxpos (e : Enc) (bs : List Byte) : (Enc.emit e bs).pxpos = e.pxpos := rfl
@[simp] theorem Enc.emit_opos (e : Enc) (bs : List Byte) : (Enc.emit e bs).opos = cursorAdd e.opos bs.length := rfl
@[simp] theorem Enc.emit_pixIn (e : Enc) (bs : List Byte) : (Enc.emit e bs).pixIn = e.pixIn := rfl
@[simp] theorem Enc.emit_strmOut (e : Enc) (bs : List Byte) : (Enc.emit e bs).strmOut = Memory.writeBytes e.strmOut e.opos.toNat bs := rfl

@[simp] theorem Enc.emitRecord_ctrl (e : Enc) (i : Instr) : (Enc.emitRecord e i).ctrl = e.ctrl := rfl
@[simp] theorem Enc.emitRecord_status (e : Enc) (i : Instr) : (Enc.emitRecord e i).status = e.status := rfl
@[simp] theorem Enc.emitRecord_width (e : Enc) (i : Instr) : (Enc.emitRecord e i).width = e.width := rfl
@[simp] theorem Enc.emitRecord_height (e : Enc) (i : Instr) : (Enc.emitRecord e i).height = e.height := rfl
@[simp] theorem Enc.emitRecord_channels (e : Enc) (i : Instr) : (Enc.emitRecord e i).channels = e.channels := rfl
@[simp] theorem Enc.emitRecord_colorspace (e : Enc) (i : Instr) : (Enc.emitRecord e i).colorspace = e.colorspace := rfl
@[simp] theorem Enc.emitRecord_descValid (e : Enc) (i : Instr) : (Enc.emitRecord e i).descValid = e.descValid := rfl
@[simp] theorem Enc.emitRecord_pixLen (e : Enc) (i : Instr) : (Enc.emitRecord e i).pixLen = e.pixLen := rfl
@[simp] theorem Enc.emitRecord_byteCount (e : Enc) (i : Instr) : (Enc.emitRecord e i).byteCount = e.byteCount := rfl
@[simp] theorem Enc.emitRecord_idx (e : Enc) (i : Instr) : (Enc.emitRecord e i).idx = e.idx := rfl
@[simp] theorem Enc.emitRecord_prev (e : Enc) (i : Instr) : (Enc.emitRecord e i).prev = e.prev := rfl
@[simp] theorem Enc.emitRecord_run (e : Enc) (i : Instr) : (Enc.emitRecord e i).run = e.run := rfl
@[simp] theorem Enc.emitRecord_pxpos (e : Enc) (i : Instr) : (Enc.emitRecord e i).pxpos = e.pxpos := rfl
@[simp] theorem Enc.emitRecord_opos (e : Enc) (i : Instr) : (Enc.emitRecord e i).opos = cursorAdd e.opos (encode i).length := rfl
@[simp] theorem Enc.emitRecord_pixIn (e : Enc) (i : Instr) : (Enc.emitRecord e i).pixIn = e.pixIn := rfl
@[simp] theorem Enc.emitRecord_strmOut (e : Enc) (i : Instr) : (Enc.emitRecord e i).strmOut = Memory.writeBytes e.strmOut e.opos.toNat (encode i) := rfl

@[simp] theorem Enc.flush_ctrl (e : Enc) : (Enc.flush e).ctrl = e.ctrl := rfl
@[simp] theorem Enc.flush_status (e : Enc) : (Enc.flush e).status = e.status := rfl
@[simp] theorem Enc.flush_width (e : Enc) : (Enc.flush e).width = e.width := rfl
@[simp] theorem Enc.flush_height (e : Enc) : (Enc.flush e).height = e.height := rfl
@[simp] theorem Enc.flush_channels (e : Enc) : (Enc.flush e).channels = e.channels := rfl
@[simp] theorem Enc.flush_colorspace (e : Enc) : (Enc.flush e).colorspace = e.colorspace := rfl
@[simp] theorem Enc.flush_descValid (e : Enc) : (Enc.flush e).descValid = e.descValid := rfl
@[simp] theorem Enc.flush_pixLen (e : Enc) : (Enc.flush e).pixLen = e.pixLen := rfl
@[simp] theorem Enc.flush_byteCount (e : Enc) : (Enc.flush e).byteCount = e.byteCount := rfl
@[simp] theorem Enc.flush_idx (e : Enc) : (Enc.flush e).idx = e.idx := rfl
@[simp] theorem Enc.flush_prev (e : Enc) : (Enc.flush e).prev = e.prev := rfl
@[simp] theorem Enc.flush_run (e : Enc) : (Enc.flush e).run = 0 := rfl
@[simp] theorem Enc.flush_pxpos (e : Enc) : (Enc.flush e).pxpos = e.pxpos := rfl
@[simp] theorem Enc.flush_opos (e : Enc) : (Enc.flush e).opos = cursorAdd e.opos (encode (.run e.run.toNat)).length := rfl
@[simp] theorem Enc.flush_pixIn (e : Enc) : (Enc.flush e).pixIn = e.pixIn := rfl
@[simp] theorem Enc.flush_strmOut (e : Enc) : (Enc.flush e).strmOut = Memory.writeBytes e.strmOut e.opos.toNat (encode (.run e.run.toNat)) := rfl

@[simp] theorem Enc.advance_ctrl (e : Enc) (p : Pixel) : (Enc.advance e p).ctrl = e.ctrl := rfl
@[simp] theorem Enc.advance_status (e : Enc) (p : Pixel) : (Enc.advance e p).status = e.status := rfl
@[simp] theorem Enc.advance_width (e : Enc) (p : Pixel) : (Enc.advance e p).width = e.width := rfl
@[simp] theorem Enc.advance_height (e : Enc) (p : Pixel) : (Enc.advance e p).height = e.height := rfl
@[simp] theorem Enc.advance_channels (e : Enc) (p : Pixel) : (Enc.advance e p).channels = e.channels := rfl
@[simp] theorem Enc.advance_colorspace (e : Enc) (p : Pixel) : (Enc.advance e p).colorspace = e.colorspace := rfl
@[simp] theorem Enc.advance_descValid (e : Enc) (p : Pixel) : (Enc.advance e p).descValid = e.descValid := rfl
@[simp] theorem Enc.advance_pixLen (e : Enc) (p : Pixel) : (Enc.advance e p).pixLen = e.pixLen := rfl
@[simp] theorem Enc.advance_byteCount (e : Enc) (p : Pixel) : (Enc.advance e p).byteCount = e.byteCount := rfl
@[simp] theorem Enc.advance_idx (e : Enc) (p : Pixel) : (Enc.advance e p).idx = e.idx := rfl
@[simp] theorem Enc.advance_prev (e : Enc) (p : Pixel) : (Enc.advance e p).prev = p := rfl
@[simp] theorem Enc.advance_run (e : Enc) (p : Pixel) : (Enc.advance e p).run = e.run := rfl
@[simp] theorem Enc.advance_pxpos (e : Enc) (p : Pixel) : (Enc.advance e p).pxpos = cursorAdd e.pxpos 1 := rfl
@[simp] theorem Enc.advance_opos (e : Enc) (p : Pixel) : (Enc.advance e p).opos = e.opos := rfl
@[simp] theorem Enc.advance_pixIn (e : Enc) (p : Pixel) : (Enc.advance e p).pixIn = e.pixIn := rfl
@[simp] theorem Enc.advance_strmOut (e : Enc) (p : Pixel) : (Enc.advance e p).strmOut = e.strmOut := rfl

@[simp] theorem Enc.begin_ctrl (e : Enc) : (Enc.begin e).ctrl = 0 := rfl
@[simp] theorem Enc.begin_status (e : Enc) : (Enc.begin e).status = Status.running := rfl
@[simp] theorem Enc.begin_width (e : Enc) : (Enc.begin e).width = e.width := rfl
@[simp] theorem Enc.begin_height (e : Enc) : (Enc.begin e).height = e.height := rfl
@[simp] theorem Enc.begin_channels (e : Enc) : (Enc.begin e).channels = e.channels := rfl
@[simp] theorem Enc.begin_colorspace (e : Enc) : (Enc.begin e).colorspace = e.colorspace := rfl
@[simp] theorem Enc.begin_descValid (e : Enc) : (Enc.begin e).descValid = e.descValid := rfl
@[simp] theorem Enc.begin_pixLen (e : Enc) : (Enc.begin e).pixLen = e.pixLen := rfl
@[simp] theorem Enc.begin_byteCount (e : Enc) : (Enc.begin e).byteCount = e.byteCount := rfl
@[simp] theorem Enc.begin_idx (e : Enc) : (Enc.begin e).idx = Pxc.clear := rfl
@[simp] theorem Enc.begin_prev (e : Enc) : (Enc.begin e).prev = Pixel.opaqueBlack := rfl
@[simp] theorem Enc.begin_run (e : Enc) : (Enc.begin e).run = 0 := rfl
@[simp] theorem Enc.begin_pxpos (e : Enc) : (Enc.begin e).pxpos = 0 := rfl
@[simp] theorem Enc.begin_opos (e : Enc) : (Enc.begin e).opos = 14 := rfl
@[simp] theorem Enc.begin_pixIn (e : Enc) : (Enc.begin e).pixIn = e.pixIn := rfl
@[simp] theorem Enc.begin_strmOut (e : Enc) : (Enc.begin e).strmOut = Memory.writeBytes e.strmOut 0 (encode (.header e.width e.height e.channels e.colorspace)) := rfl

@[simp] theorem Enc.finish_ctrl (e : Enc) : (Enc.finish e).ctrl = e.ctrl := rfl
@[simp] theorem Enc.finish_status (e : Enc) : (Enc.finish e).status = Status.finished := rfl
@[simp] theorem Enc.finish_width (e : Enc) : (Enc.finish e).width = e.width := rfl
@[simp] theorem Enc.finish_height (e : Enc) : (Enc.finish e).height = e.height := rfl
@[simp] theorem Enc.finish_channels (e : Enc) : (Enc.finish e).channels = e.channels := rfl
@[simp] theorem Enc.finish_colorspace (e : Enc) : (Enc.finish e).colorspace = e.colorspace := rfl
@[simp] theorem Enc.finish_descValid (e : Enc) : (Enc.finish e).descValid = e.descValid := rfl
@[simp] theorem Enc.finish_pixLen (e : Enc) : (Enc.finish e).pixLen = e.pixLen := rfl
@[simp] theorem Enc.finish_byteCount (e : Enc) : (Enc.finish e).byteCount = cursorAdd e.opos 8 := rfl
@[simp] theorem Enc.finish_idx (e : Enc) : (Enc.finish e).idx = e.idx := rfl
@[simp] theorem Enc.finish_prev (e : Enc) : (Enc.finish e).prev = e.prev := rfl
@[simp] theorem Enc.finish_run (e : Enc) : (Enc.finish e).run = e.run := rfl
@[simp] theorem Enc.finish_pxpos (e : Enc) : (Enc.finish e).pxpos = e.pxpos := rfl
@[simp] theorem Enc.finish_opos (e : Enc) : (Enc.finish e).opos = cursorAdd e.opos 8 := rfl
@[simp] theorem Enc.finish_pixIn (e : Enc) : (Enc.finish e).pixIn = e.pixIn := rfl
@[simp] theorem Enc.finish_strmOut (e : Enc) : (Enc.finish e).strmOut = Memory.writeBytes e.strmOut e.opos.toNat Config.endMarker := rfl

/-! ### DEC -/

@[simp] theorem Dec.fail_ctrl (d : Dec) (c : Cause) : (Dec.fail d c).ctrl = 0 := rfl
@[simp] theorem Dec.fail_status (d : Dec) (c : Cause) : (Dec.fail d c).status = Status.fail c := rfl
@[simp] theorem Dec.fail_width (d : Dec) (c : Cause) : (Dec.fail d c).width = d.width := rfl
@[simp] theorem Dec.fail_height (d : Dec) (c : Cause) : (Dec.fail d c).height = d.height := rfl
@[simp] theorem Dec.fail_channels (d : Dec) (c : Cause) : (Dec.fail d c).channels = d.channels := rfl
@[simp] theorem Dec.fail_colorspace (d : Dec) (c : Cause) : (Dec.fail d c).colorspace = d.colorspace := rfl
@[simp] theorem Dec.fail_reqch (d : Dec) (c : Cause) : (Dec.fail d c).reqch = d.reqch := rfl
@[simp] theorem Dec.fail_inLen (d : Dec) (c : Cause) : (Dec.fail d c).inLen = d.inLen := rfl
@[simp] theorem Dec.fail_och (d : Dec) (c : Cause) : (Dec.fail d c).och = d.och := rfl
@[simp] theorem Dec.fail_outLen (d : Dec) (c : Cause) : (Dec.fail d c).outLen = d.outLen := rfl
@[simp] theorem Dec.fail_idx (d : Dec) (c : Cause) : (Dec.fail d c).idx = d.idx := rfl
@[simp] theorem Dec.fail_prev (d : Dec) (c : Cause) : (Dec.fail d c).prev = d.prev := rfl
@[simp] theorem Dec.fail_ipos (d : Dec) (c : Cause) : (Dec.fail d c).ipos = d.ipos := rfl
@[simp] theorem Dec.fail_pxpos (d : Dec) (c : Cause) : (Dec.fail d c).pxpos = d.pxpos := rfl
@[simp] theorem Dec.fail_opos (d : Dec) (c : Cause) : (Dec.fail d c).opos = d.opos := rfl
@[simp] theorem Dec.fail_strmIn (d : Dec) (c : Cause) : (Dec.fail d c).strmIn = d.strmIn := rfl
@[simp] theorem Dec.fail_pixOut (d : Dec) (c : Cause) : (Dec.fail d c).pixOut = d.pixOut := rfl

@[simp] theorem Dec.put_ctrl (d : Dec) (p : Pixel) : (Dec.put d p).ctrl = d.ctrl := rfl
@[simp] theorem Dec.put_status (d : Dec) (p : Pixel) : (Dec.put d p).status = d.status := rfl
@[simp] theorem Dec.put_width (d : Dec) (p : Pixel) : (Dec.put d p).width = d.width := rfl
@[simp] theorem Dec.put_height (d : Dec) (p : Pixel) : (Dec.put d p).height = d.height := rfl
@[simp] theorem Dec.put_channels (d : Dec) (p : Pixel) : (Dec.put d p).channels = d.channels := rfl
@[simp] theorem Dec.put_colorspace (d : Dec) (p : Pixel) : (Dec.put d p).colorspace = d.colorspace := rfl
@[simp] theorem Dec.put_reqch (d : Dec) (p : Pixel) : (Dec.put d p).reqch = d.reqch := rfl
@[simp] theorem Dec.put_inLen (d : Dec) (p : Pixel) : (Dec.put d p).inLen = d.inLen := rfl
@[simp] theorem Dec.put_och (d : Dec) (p : Pixel) : (Dec.put d p).och = d.och := rfl
@[simp] theorem Dec.put_outLen (d : Dec) (p : Pixel) : (Dec.put d p).outLen = d.outLen := rfl
@[simp] theorem Dec.put_idx (d : Dec) (p : Pixel) : (Dec.put d p).idx = d.idx := rfl
@[simp] theorem Dec.put_prev (d : Dec) (p : Pixel) : (Dec.put d p).prev = d.prev := rfl
@[simp] theorem Dec.put_ipos (d : Dec) (p : Pixel) : (Dec.put d p).ipos = d.ipos := rfl
@[simp] theorem Dec.put_pxpos (d : Dec) (p : Pixel) : (Dec.put d p).pxpos = d.pxpos := rfl
@[simp] theorem Dec.put_opos (d : Dec) (p : Pixel) : (Dec.put d p).opos = cursorAdd d.opos d.och.toNat := rfl
@[simp] theorem Dec.put_strmIn (d : Dec) (p : Pixel) : (Dec.put d p).strmIn = d.strmIn := rfl
@[simp] theorem Dec.put_pixOut (d : Dec) (p : Pixel) : (Dec.put d p).pixOut = Memory.writeBytes d.pixOut d.opos.toNat (p.bytes d.och) := rfl

@[simp] theorem Dec.putTimes_ctrl (d : Dec) (p : Pixel) (k : Nat) : (Dec.putTimes d p k).ctrl = d.ctrl := by
  induction k generalizing d with
  | zero => rfl
  | succ k ih => exact ih (d.put p)
@[simp] theorem Dec.putTimes_status (d : Dec) (p : Pixel) (k : Nat) : (Dec.putTimes d p k).status = d.status := by
  induction k generalizing d with
  | zero => rfl
  | succ k ih => exact ih (d.put p)
@[simp] theorem Dec.putTimes_width (d : Dec) (p : Pixel) (k : Nat) : (Dec.putTimes d p k).width = d.width := by
  induction k generalizing d with
  | zero => rfl
  | succ k ih => exact ih (d.put p)
@[simp] theorem Dec.putTimes_height (d : Dec) (p : Pixel) (k : Nat) : (Dec.putTimes d p k).height = d.height := by
  induction k generalizing d with
  | zero => rfl
  | succ k ih => exact ih (d.put p)
@[simp] theorem Dec.putTimes_channels (d : Dec) (p : Pixel) (k : Nat) : (Dec.putTimes d p k).channels = d.channels := by
  induction k generalizing d with
  | zero => rfl
  | succ k ih => exact ih (d.put p)
@[simp] theorem Dec.putTimes_colorspace (d : Dec) (p : Pixel) (k : Nat) : (Dec.putTimes d p k).colorspace = d.colorspace := by
  induction k generalizing d with
  | zero => rfl
  | succ k ih => exact ih (d.put p)
@[simp] theorem Dec.putTimes_reqch (d : Dec) (p : Pixel) (k : Nat) : (Dec.putTimes d p k).reqch = d.reqch := by
  induction k generalizing d with
  | zero => rfl
  | succ k ih => exact ih (d.put p)
@[simp] theorem Dec.putTimes_inLen (d : Dec) (p : Pixel) (k : Nat) : (Dec.putTimes d p k).inLen = d.inLen := by
  induction k generalizing d with
  | zero => rfl
  | succ k ih => exact ih (d.put p)
@[simp] theorem Dec.putTimes_och (d : Dec) (p : Pixel) (k : Nat) : (Dec.putTimes d p k).och = d.och := by
  induction k generalizing d with
  | zero => rfl
  | succ k ih => exact ih (d.put p)
@[simp] theorem Dec.putTimes_outLen (d : Dec) (p : Pixel) (k : Nat) : (Dec.putTimes d p k).outLen = d.outLen := by
  induction k generalizing d with
  | zero => rfl
  | succ k ih => exact ih (d.put p)
@[simp] theorem Dec.putTimes_idx (d : Dec) (p : Pixel) (k : Nat) : (Dec.putTimes d p k).idx = d.idx := by
  induction k generalizing d with
  | zero => rfl
  | succ k ih => exact ih (d.put p)
@[simp] theorem Dec.putTimes_prev (d : Dec) (p : Pixel) (k : Nat) : (Dec.putTimes d p k).prev = d.prev := by
  induction k generalizing d with
  | zero => rfl
  | succ k ih => exact ih (d.put p)
@[simp] theorem Dec.putTimes_ipos (d : Dec) (p : Pixel) (k : Nat) : (Dec.putTimes d p k).ipos = d.ipos := by
  induction k generalizing d with
  | zero => rfl
  | succ k ih => exact ih (d.put p)
@[simp] theorem Dec.putTimes_pxpos (d : Dec) (p : Pixel) (k : Nat) : (Dec.putTimes d p k).pxpos = d.pxpos := by
  induction k generalizing d with
  | zero => rfl
  | succ k ih => exact ih (d.put p)
@[simp] theorem Dec.putTimes_strmIn (d : Dec) (p : Pixel) (k : Nat) : (Dec.putTimes d p k).strmIn = d.strmIn := by
  induction k generalizing d with
  | zero => rfl
  | succ k ih => exact ih (d.put p)

@[simp] theorem Dec.cacheWrite_ctrl (d : Dec) (ins : Bool) (p : Pixel) : (Dec.cacheWrite d ins p).ctrl = d.ctrl := by cases ins <;> rfl
@[simp] theorem Dec.cacheWrite_status (d : Dec) (ins : Bool) (p : Pixel) : (Dec.cacheWrite d ins p).status = d.status := by cases ins <;> rfl
@[simp] theorem Dec.cacheWrite_width (d : Dec) (ins : Bool) (p : Pixel) : (Dec.cacheWrite d ins p).width = d.width := by cases ins <;> rfl
@[simp] theorem Dec.cacheWrite_height (d : Dec) (ins : Bool) (p : Pixel) : (Dec.cacheWrite d ins p).height = d.height := by cases ins <;> rfl
@[simp] theorem Dec.cacheWrite_channels (d : Dec) (ins : Bool) (p : Pixel) : (Dec.cacheWrite d ins p).channels = d.channels := by cases ins <;> rfl
@[simp] theorem Dec.cacheWrite_colorspace (d : Dec) (ins : Bool) (p : Pixel) : (Dec.cacheWrite d ins p).colorspace = d.colorspace := by cases ins <;> rfl
@[simp] theorem Dec.cacheWrite_reqch (d : Dec) (ins : Bool) (p : Pixel) : (Dec.cacheWrite d ins p).reqch = d.reqch := by cases ins <;> rfl
@[simp] theorem Dec.cacheWrite_inLen (d : Dec) (ins : Bool) (p : Pixel) : (Dec.cacheWrite d ins p).inLen = d.inLen := by cases ins <;> rfl
@[simp] theorem Dec.cacheWrite_och (d : Dec) (ins : Bool) (p : Pixel) : (Dec.cacheWrite d ins p).och = d.och := by cases ins <;> rfl
@[simp] theorem Dec.cacheWrite_outLen (d : Dec) (ins : Bool) (p : Pixel) : (Dec.cacheWrite d ins p).outLen = d.outLen := by cases ins <;> rfl
@[simp] theorem Dec.cacheWrite_idx (d : Dec) (ins : Bool) (p : Pixel) : (Dec.cacheWrite d ins p).idx = if ins then Pxc.insert d.idx p else d.idx := by cases ins <;> rfl
@[simp] theorem Dec.cacheWrite_prev (d : Dec) (ins : Bool) (p : Pixel) : (Dec.cacheWrite d ins p).prev = d.prev := by cases ins <;> rfl
@[simp] theorem Dec.cacheWrite_ipos (d : Dec) (ins : Bool) (p : Pixel) : (Dec.cacheWrite d ins p).ipos = d.ipos := by cases ins <;> rfl
@[simp] theorem Dec.cacheWrite_pxpos (d : Dec) (ins : Bool) (p : Pixel) : (Dec.cacheWrite d ins p).pxpos = d.pxpos := by cases ins <;> rfl
@[simp] theorem Dec.cacheWrite_opos (d : Dec) (ins : Bool) (p : Pixel) : (Dec.cacheWrite d ins p).opos = d.opos := by cases ins <;> rfl
@[simp] theorem Dec.cacheWrite_strmIn (d : Dec) (ins : Bool) (p : Pixel) : (Dec.cacheWrite d ins p).strmIn = d.strmIn := by cases ins <;> rfl
@[simp] theorem Dec.cacheWrite_pixOut (d : Dec) (ins : Bool) (p : Pixel) : (Dec.cacheWrite d ins p).pixOut = d.pixOut := by cases ins <;> rfl

@[simp] theorem Dec.begin_ctrl (d : Dec) (w h : U32) (c cs : Byte) : (Dec.begin d w h c cs).ctrl = 0 := rfl
@[simp] theorem Dec.begin_status (d : Dec) (w h : U32) (c cs : Byte) : (Dec.begin d w h c cs).status = Status.running := rfl
@[simp] theorem Dec.begin_width (d : Dec) (w h : U32) (c cs : Byte) : (Dec.begin d w h c cs).width = w := rfl
@[simp] theorem Dec.begin_height (d : Dec) (w h : U32) (c cs : Byte) : (Dec.begin d w h c cs).height = h := rfl
@[simp] theorem Dec.begin_channels (d : Dec) (w h : U32) (c cs : Byte) : (Dec.begin d w h c cs).channels = c := rfl
@[simp] theorem Dec.begin_colorspace (d : Dec) (w h : U32) (c cs : Byte) : (Dec.begin d w h c cs).colorspace = cs := rfl
@[simp] theorem Dec.begin_reqch (d : Dec) (w h : U32) (c cs : Byte) : (Dec.begin d w h c cs).reqch = d.reqch := rfl
@[simp] theorem Dec.begin_inLen (d : Dec) (w h : U32) (c cs : Byte) : (Dec.begin d w h c cs).inLen = d.inLen := rfl
@[simp] theorem Dec.begin_och (d : Dec) (w h : U32) (c cs : Byte) : (Dec.begin d w h c cs).och = outputChannels c d.reqch := rfl
@[simp] theorem Dec.begin_outLen (d : Dec) (w h : U32) (c cs : Byte) : (Dec.begin d w h c cs).outLen = d.outLen := rfl
@[simp] theorem Dec.begin_idx (d : Dec) (w h : U32) (c cs : Byte) : (Dec.begin d w h c cs).idx = Pxc.clear := rfl
@[simp] theorem Dec.begin_prev (d : Dec) (w h : U32) (c cs : Byte) : (Dec.begin d w h c cs).prev = Pixel.opaqueBlack := rfl
@[simp] theorem Dec.begin_ipos (d : Dec) (w h : U32) (c cs : Byte) : (Dec.begin d w h c cs).ipos = 14 := rfl
@[simp] theorem Dec.begin_pxpos (d : Dec) (w h : U32) (c cs : Byte) : (Dec.begin d w h c cs).pxpos = 0 := rfl
@[simp] theorem Dec.begin_opos (d : Dec) (w h : U32) (c cs : Byte) : (Dec.begin d w h c cs).opos = 0 := rfl
@[simp] theorem Dec.begin_strmIn (d : Dec) (w h : U32) (c cs : Byte) : (Dec.begin d w h c cs).strmIn = d.strmIn := rfl
@[simp] theorem Dec.begin_pixOut (d : Dec) (w h : U32) (c cs : Byte) : (Dec.begin d w h c cs).pixOut = d.pixOut := rfl

@[simp] theorem Dec.finish_ctrl (d : Dec) (len : Nat) : (Dec.finish d len).ctrl = d.ctrl := rfl
@[simp] theorem Dec.finish_status (d : Dec) (len : Nat) : (Dec.finish d len).status = Status.finished := rfl
@[simp] theorem Dec.finish_width (d : Dec) (len : Nat) : (Dec.finish d len).width = d.width := rfl
@[simp] theorem Dec.finish_height (d : Dec) (len : Nat) : (Dec.finish d len).height = d.height := rfl
@[simp] theorem Dec.finish_channels (d : Dec) (len : Nat) : (Dec.finish d len).channels = d.channels := rfl
@[simp] theorem Dec.finish_colorspace (d : Dec) (len : Nat) : (Dec.finish d len).colorspace = d.colorspace := rfl
@[simp] theorem Dec.finish_reqch (d : Dec) (len : Nat) : (Dec.finish d len).reqch = d.reqch := rfl
@[simp] theorem Dec.finish_inLen (d : Dec) (len : Nat) : (Dec.finish d len).inLen = d.inLen := rfl
@[simp] theorem Dec.finish_och (d : Dec) (len : Nat) : (Dec.finish d len).och = d.och := rfl
@[simp] theorem Dec.finish_outLen (d : Dec) (len : Nat) : (Dec.finish d len).outLen = BitVec.ofNat 32 (d.pixels * d.och.toNat) := rfl
@[simp] theorem Dec.finish_idx (d : Dec) (len : Nat) : (Dec.finish d len).idx = d.idx := rfl
@[simp] theorem Dec.finish_prev (d : Dec) (len : Nat) : (Dec.finish d len).prev = d.prev := rfl
@[simp] theorem Dec.finish_ipos (d : Dec) (len : Nat) : (Dec.finish d len).ipos = cursorAdd d.ipos len := rfl
@[simp] theorem Dec.finish_pxpos (d : Dec) (len : Nat) : (Dec.finish d len).pxpos = d.pxpos := rfl
@[simp] theorem Dec.finish_opos (d : Dec) (len : Nat) : (Dec.finish d len).opos = d.opos := rfl
@[simp] theorem Dec.finish_strmIn (d : Dec) (len : Nat) : (Dec.finish d len).strmIn = d.strmIn := rfl
@[simp] theorem Dec.finish_pixOut (d : Dec) (len : Nat) : (Dec.finish d len).pixOut = d.pixOut := rfl

@[simp] theorem Dec.place_ctrl (d : Dec) (bs : List Byte) : (Dec.place d bs).ctrl = d.ctrl := rfl
@[simp] theorem Dec.place_status (d : Dec) (bs : List Byte) : (Dec.place d bs).status = d.status := rfl
@[simp] theorem Dec.place_width (d : Dec) (bs : List Byte) : (Dec.place d bs).width = d.width := rfl
@[simp] theorem Dec.place_height (d : Dec) (bs : List Byte) : (Dec.place d bs).height = d.height := rfl
@[simp] theorem Dec.place_channels (d : Dec) (bs : List Byte) : (Dec.place d bs).channels = d.channels := rfl
@[simp] theorem Dec.place_colorspace (d : Dec) (bs : List Byte) : (Dec.place d bs).colorspace = d.colorspace := rfl
@[simp] theorem Dec.place_reqch (d : Dec) (bs : List Byte) : (Dec.place d bs).reqch = d.reqch := rfl
@[simp] theorem Dec.place_inLen (d : Dec) (bs : List Byte) : (Dec.place d bs).inLen = cursorAdd d.ipos bs.length := rfl
@[simp] theorem Dec.place_och (d : Dec) (bs : List Byte) : (Dec.place d bs).och = d.och := rfl
@[simp] theorem Dec.place_outLen (d : Dec) (bs : List Byte) : (Dec.place d bs).outLen = d.outLen := rfl
@[simp] theorem Dec.place_idx (d : Dec) (bs : List Byte) : (Dec.place d bs).idx = d.idx := rfl
@[simp] theorem Dec.place_prev (d : Dec) (bs : List Byte) : (Dec.place d bs).prev = d.prev := rfl
@[simp] theorem Dec.place_ipos (d : Dec) (bs : List Byte) : (Dec.place d bs).ipos = d.ipos := rfl
@[simp] theorem Dec.place_pxpos (d : Dec) (bs : List Byte) : (Dec.place d bs).pxpos = d.pxpos := rfl
@[simp] theorem Dec.place_opos (d : Dec) (bs : List Byte) : (Dec.place d bs).opos = d.opos := rfl
@[simp] theorem Dec.place_strmIn (d : Dec) (bs : List Byte) : (Dec.place d bs).strmIn = Memory.writeBytes d.strmIn d.ipos.toNat bs := rfl
@[simp] theorem Dec.place_pixOut (d : Dec) (bs : List Byte) : (Dec.place d bs).pixOut = d.pixOut := rfl

/-! ### Cursors (10_state.md R30 to R32) -/

/-- A cursor that does not pass 32 bits moves by exactly the amount. -/
theorem toNat_cursorAdd {x : U32} {n : Nat} (h : x.toNat + n < 2 ^ 32) : (cursorAdd x n).toNat = x.toNat + n := by
  simp only [cursorAdd, BitVec.toNat_add, BitVec.toNat_ofNat]
  omega

@[simp] theorem cursorAdd_zero (x : U32) : cursorAdd x 0 = x := by simp [cursorAdd]

@[simp] theorem cursorAdd_cursorAdd (x : U32) (m n : Nat) : cursorAdd (cursorAdd x m) n = cursorAdd x (m + n) := by
  simp [cursorAdd, BitVec.add_assoc, BitVec.ofNat_add]

/-! ### The block -/

@[simp] theorem State.passTurn_enc (s : State) : s.passTurn.enc = s.enc := rfl
@[simp] theorem State.passTurn_dec (s : State) : s.passTurn.dec = s.dec := rfl

theorem Enc.pixels_eq (e : Enc) : pixelCount e.width e.height = e.pixels := rfl
theorem Dec.pixels_eq (d : Dec) : pixelCount d.width d.height = d.pixels := rfl

@[simp] theorem Status.fail_phase (c : Cause) : (Status.fail c).phase = .failed := rfl
@[simp] theorem Status.fail_err (c : Cause) : (Status.fail c).err = some c := rfl
@[simp] theorem Status.fail_eclass (c : Cause) : (Status.fail c).eclass = c.eclass := rfl
@[simp] theorem Status.running_phase : Status.running.phase = .body := rfl
@[simp] theorem Status.running_err : Status.running.err = none := rfl
@[simp] theorem Status.running_eclass : Status.running.eclass = .none := rfl
@[simp] theorem Status.finished_phase : Status.finished.phase = .done := rfl
@[simp] theorem Status.finished_err : Status.finished.err = none := rfl
@[simp] theorem Status.finished_eclass : Status.finished.eclass = .none := rfl

end Sys2Proof.Machine
end

