-- ==== Sys2Proof/Laws/Ops.lean ====
section
/-! SUPPORT. One lemma per shared operation that says once what it can do: the enabling of steps, the checks, the
chunk step, emission. Later proofs cite these and do not unfold the operations. -/

namespace Sys2Proof.Machine

/-! ### Which step is enabled (10_state.md R45) -/

theorem enabledAction_eq_start {t : Status} {c : BitVec 1} {p n : Nat} :
    enabledAction t c p n = some .start ↔ t.phase ≠ .body ∧ c = 1 := by
  obtain ⟨ph, er, ec⟩ := t
  cases ph <;> simp only [enabledAction] <;> (repeat' split) <;> simp_all

theorem enabledAction_eq_body {t : Status} {c : BitVec 1} {p n : Nat} :
    enabledAction t c p n = some .body ↔ t.phase = .body ∧ c ≠ 1 ∧ p < n := by
  obtain ⟨ph, er, ec⟩ := t
  cases ph <;> simp only [enabledAction] <;> (repeat' split) <;> simp_all

theorem enabledAction_eq_finish {t : Status} {c : BitVec 1} {p n : Nat} :
    enabledAction t c p n = some .finish ↔ t.phase = .body ∧ c ≠ 1 ∧ p = n := by
  obtain ⟨ph, er, ec⟩ := t
  cases ph <;> simp only [enabledAction] <;> (repeat' split) <;> simp_all
  omega

theorem enabledAction_eq_clash {t : Status} {c : BitVec 1} {p n : Nat} :
    enabledAction t c p n = some .clash ↔ t.phase = .body ∧ c = 1 := by
  obtain ⟨ph, er, ec⟩ := t
  cases ph <;> simp only [enabledAction] <;> (repeat' split) <;> simp_all

theorem ctrl_ne_one {c : BitVec 1} : c ≠ 1 ↔ c = 0 := by
  revert c
  decide

/-! ### An engine's step as a step of the block (R20) -/

theorem State.withDec_eq_next {s t : State} {o : Host.Outcome Dec Fault Refusal} :
    s.withDec o = .next t ↔ ∃ d, o = .next d ∧ t = { s with dec := d } := by
  cases o <;> simp [State.withDec, eq_comm]

theorem State.withEnc_eq_next {s t : State} {o : Host.Outcome Enc Fault Refusal} :
    s.withEnc o = .next t ↔ ∃ e, o = .next e ∧ t = { s with enc := e } := by
  cases o <;> simp [State.withEnc, eq_comm]

theorem passTurn_eq_next {o : Host.Outcome State Fault Refusal} {t : State} :
    passTurn o = .next t ↔ ∃ u, o = .next u ∧ t = u.passTurn := by
  cases o <;> simp [passTurn, eq_comm]

/-! ### The start steps' checks (43_framing.md R225, R226) -/

theorem descriptorCheck_eq_none {w h : U32} {c cs : Byte} :
    descriptorCheck w h c cs = none ↔
      w ≠ 0 ∧ h ≠ 0 ∧ (c = 3 ∨ c = 4) ∧ (cs = 0 ∨ cs = 1) ∧ h.toNat < 400000000 / w.toNat := by
  unfold descriptorCheck tooManyPixels Config.maxPixels
  repeat' split
  all_goals simp_all
  all_goals grind

theorem Dec.requestCheck_eq_none {d : Dec} :
    d.requestCheck = none ↔ (d.reqch = 0 ∨ d.reqch = 3 ∨ d.reqch = 4) ∧ 14 ≤ d.inLen.toNat := by
  unfold Dec.requestCheck Config.reqchOwn Config.headerSize
  repeat' split
  all_goals simp_all
  tauto

theorem Enc.startCheck_eq_none {e : Enc} :
    e.startCheck = none ↔ e.pixLen ≠ 0 ∧ e.descValid = 1 ∧
      descriptorCheck e.width e.height e.channels e.colorspace = none ∧
      e.pixLen.toNat = e.pixels * e.channels.toNat := by
  have hv : e.descValid ≠ 0 ↔ e.descValid = 1 := by
    generalize e.descValid = v
    revert v
    decide
  rw [← hv]
  unfold Enc.startCheck
  repeat' split
  all_goals simp_all

/-- What the bound check buys: every product the engines form fits 32 bits (R224 (a)). -/
theorem pixelCount_bound {w h : U32} {c cs : Byte} (hd : descriptorCheck w h c cs = none) :
    0 < pixelCount w h ∧ pixelCount w h ≤ 399999999 := by
  obtain ⟨hw, hh, -, -, hb⟩ := descriptorCheck_eq_none.1 hd
  have hw' : 0 < w.toNat := by
    rcases Nat.eq_zero_or_pos w.toNat with h0 | h0
    · exact absurd (BitVec.eq_of_toNat_eq (by simpa using h0)) hw
    · exact h0
  have hh' : 0 < h.toNat := by
    rcases Nat.eq_zero_or_pos h.toNat with h0 | h0
    · exact absurd (BitVec.eq_of_toNat_eq (by simpa using h0)) hh
    · exact h0
  refine ⟨Nat.mul_pos hw' hh', ?_⟩
  have hq : w.toNat * (h.toNat + 1) ≤ 400000000 :=
    Nat.le_trans (Nat.mul_le_mul_left _ hb) (Nat.mul_div_le ..)
  unfold pixelCount
  rw [Nat.mul_add] at hq
  omega

theorem outputChannels_legal {c r : Byte} (hc : c = 3 ∨ c = 4) (hr : r = 0 ∨ r = 3 ∨ r = 4) :
    outputChannels c r = 3 ∨ outputChannels c r = 4 := by
  rcases hr with rfl | rfl | rfl
  · exact hc
  · exact .inl rfl
  · exact .inr rfl

/-! ### Pixels as bytes (20_memory.md R61) -/

theorem Pixel.bytes_length {p : Pixel} {c : Byte} (h : c = 3 ∨ c = 4) : (p.bytes c).length = c.toNat := by
  rcases h with rfl | rfl <;> rfl

theorem Pixel.ofBytes_bytes {prev : Pixel} {c : Byte} {bs : List Byte} (hc : c = 3 ∨ c = 4)
    (hl : bs.length = if c = 4 then 4 else 3) : (Pixel.ofBytes prev bs).bytes c = bs := by
  rcases hc with rfl | rfl
  · match bs, hl with
    | [r, g, b], _ => rfl
  · match bs, hl with
    | [r, g, b, a], _ => rfl

/-! ### The chunk step (42_chunk_decoder.md R182) -/

/-- `put` does not look at the cache. -/
theorem Dec.putTimes_withIdx (d : Dec) (p : Pixel) (c : Pxc) (k : Nat) :
    Dec.putTimes { d with idx := c } p k = { d.putTimes p k with idx := c } := by
  induction k generalizing d with
  | zero => rfl
  | succ k ih => exact ih (d.put p)

/-- `k` times `put` is one block write of `k` pixels, when OPOS does not wrap before the last of them (R196). -/
theorem Dec.putTimes_eq (d : Dec) (p : Pixel) (k : Nat) (h : d.och = 3 ∨ d.och = 4)
    (hw : d.opos.toNat + (k - 1) * d.och.toNat < 2 ^ 32) :
    d.putTimes p k =
      { d with
        pixOut := Memory.writeBytes d.pixOut d.opos.toNat (List.replicate k (p.bytes d.och)).flatten
        opos := cursorAdd d.opos (k * d.och.toNat) } := by
  induction k generalizing d with
  | zero => simp [Dec.putTimes, Memory.writeBytes]
  | succ k ih =>
    cases k with
    | zero => simp [Dec.putTimes, Dec.put]
    | succ k =>
      have hk : (k + 1) * d.och.toNat = k * d.och.toNat + d.och.toNat := by rw [Nat.add_mul, Nat.one_mul]
      simp only [Nat.add_sub_cancel] at hw ih
      have hn : (cursorAdd d.opos d.och.toNat).toNat = d.opos.toNat + d.och.toNat := toNat_cursorAdd (by omega)
      rw [Dec.putTimes, ih (d.put p) h (by simp only [Dec.put_opos, Dec.put_och, hn]; omega)]
      simp only [Dec.put, hn, cursorAdd_cursorAdd, List.replicate_succ (n := k + 1), List.flatten_cons,
        Memory.writeBytes_append, Pixel.bytes_length h]
      congr 2
      rw [Nat.add_mul (k + 1), hk]
      omega

theorem getElem?_replicate_flatten (bs : List Byte) (k j i : Nat) (hj : j < k) (hi : i < bs.length) :
    (List.replicate k bs).flatten[j * bs.length + i]? = bs[i]? := by
  induction k generalizing j with
  | zero => omega
  | succ k ih =>
    rw [List.replicate_succ, List.flatten_cons]
    cases j with
    | zero => rw [List.getElem?_append_left (by omega)]; congr 1; omega
    | succ j =>
      rw [List.getElem?_append_right (by rw [Nat.add_mul]; omega), ← ih j (by omega)]
      congr 1
      rw [Nat.add_mul]
      omega

/-- Everything the writes of a chunk step do (R182). -/
theorem Dec.retire_effect (s : State) (len : Nat) (cur : Pixel) (k : Nat) (ins : Bool)
    (h : s.dec.och = 3 ∨ s.dec.och = 4) (hw : s.dec.opos.toNat + (k - 1) * s.dec.och.toNat < 2 ^ 32) :
    ChunkEffect s { s with dec := s.dec.retire len cur k ins } len cur k ins := by
  have hp := Dec.putTimes_eq (s.dec.cacheWrite ins cur) cur k (by simpa using h) (by simpa using hw)
  have hl : ((List.replicate k (cur.bytes s.dec.och)).flatten).length = k * s.dec.och.toNat := by
    simp [Pixel.bytes_length h]
  refine ⟨rfl, ?_, ?_, ?_, ?_, ?_, ?_, ?_, ?_⟩
  · simp [Dec.retire]
  · simp [Dec.retire]
  · simp [Dec.retire, hp]
  · cases ins <;> simp [Dec.retire]
  · intro x hx
    cases ins <;> simp [Dec.retire, Pxc.read_insert_other _ (Ne.symm hx)]
  · intro j hj
    refine (Memory.readBytes_eq_some_iff ..).2 ⟨Pixel.bytes_length h, fun i hi => ?_⟩
    have hji : j * s.dec.och.toNat + i < k * s.dec.och.toNat := by
      have := Nat.mul_le_mul_right s.dec.och.toNat (show j + 1 ≤ k from hj)
      rw [Nat.add_mul] at this
      omega
    simp only [Dec.retire, hp, Dec.cacheWrite_pixOut, Dec.cacheWrite_opos, Dec.cacheWrite_och, Nat.add_assoc]
    rw [Memory.read_writeBytes_inside _ _ _ _ (by rw [hl]; exact hji)]
    have := getElem?_replicate_flatten (cur.bytes s.dec.och) k j i hj (by rw [Pixel.bytes_length h]; exact hi)
    rwa [Pixel.bytes_length h] at this
  · intro a ha
    simp only [Dec.retire, hp, Dec.cacheWrite_pixOut, Dec.cacheWrite_opos, Dec.cacheWrite_och]
    exact Memory.read_writeBytes_outside _ _ _ _ (by rw [hl]; exact ha)
  · cases ins <;> simp [Dec.retire, Dec.putTimes_eq _ _ _ h hw, Dec.cacheWrite, Dec.putTimes_withIdx]

/-- The chunk step answers its writes, ErrTruncated, or a refusal when it is not enabled (R45, R183). -/
theorem Dec.chunkStep_cases (d : Dec) (len : Nat) (cur : Pixel) (k : Nat) (ins : Bool) :
    (d.action = some .body ∧ d.ipos.toNat + len ≤ d.inLen.toNat ∧ d.chunkStep len cur k ins = .next (d.retire len cur k ins)) ∨
    (d.action = some .body ∧ d.inLen.toNat < d.ipos.toNat + len ∧ d.chunkStep len cur k ins = .next (d.fail .truncated)) ∨
    (d.action ≠ some .body ∧ d.chunkStep len cur k ins = .refused .recordNotEnabled) := by
  by_cases ha : d.action = some .body
  · by_cases hl : d.ipos.toNat + len ≤ d.inLen.toNat
    · exact .inl ⟨ha, hl, by simp [Dec.chunkStep, Dec.has, ha, hl]⟩
    · exact .inr (.inl ⟨ha, by omega, by simp [Dec.chunkStep, Dec.has, ha, hl]⟩)
  · exact .inr (.inr ⟨ha, by simp [Dec.chunkStep, ha]⟩)

/-- A chunk that is enabled and whole executes, with the effect of R182. -/
theorem Dec.chunkStep_executes (s : State) (len : Nat) (cur : Pixel) (k : Nat) (ins : Bool)
    (ha : s.dec.action = some .body) (hl : s.dec.ipos.toNat + len ≤ s.dec.inLen.toNat)
    (ho : s.dec.och = 3 ∨ s.dec.och = 4) (hw : s.dec.opos.toNat + (k - 1) * s.dec.och.toNat < 2 ^ 32) :
    ∃ t, s.withDec (s.dec.chunkStep len cur k ins) = .next t ∧ ChunkEffect s t len cur k ins := by
  refine ⟨_, ?_, Dec.retire_effect s len cur k ins ho hw⟩
  simp [Dec.chunkStep, Dec.has, ha, hl, State.withDec]

/-- `DEC.start` answers the operation begun, the first failure, or a refusal when it is not enabled (R232). -/
theorem Dec.start_cases (d : Dec) (w h : U32) (c cs : Byte) :
    (d.action = some .start ∧ d.headerCheck w h c cs = none ∧ d.start w h c cs = .next (d.begin w h c cs)) ∨
    (∃ x, d.action = some .start ∧ d.headerCheck w h c cs = some x ∧ d.start w h c cs = .next (d.fail x)) ∨
    (d.action ≠ some .start ∧ d.start w h c cs = .refused .recordNotEnabled) := by
  by_cases ha : d.action = some .start
  · cases hc : d.headerCheck w h c cs with
    | none => exact .inl ⟨ha, rfl, by simp [Dec.start, ha, hc]⟩
    | some x => exact .inr (.inl ⟨x, ha, rfl, by simp [Dec.start, ha, hc]⟩)
  · exact .inr (.inr ⟨ha, by simp [Dec.start, ha]⟩)

theorem Dec.headerCheck_eq_none {d : Dec} {w h : U32} {c cs : Byte} :
    d.headerCheck w h c cs = none ↔ d.requestCheck = none ∧ descriptorCheck w h c cs = none := by
  unfold Dec.headerCheck
  split <;> simp_all

/-- `DEC.end` answers the operation finished, ErrTruncated, or a refusal when it is not enabled (R228). -/
theorem Dec.endStep_cases (d : Dec) (check : Bool) :
    (d.action = some .finish ∧ (check = true → d.ipos.toNat + 8 ≤ d.inLen.toNat) ∧
      d.endStep check = .next (d.finish (if check then 8 else 0))) ∨
    (d.action = some .finish ∧ check = true ∧ d.inLen.toNat < d.ipos.toNat + 8 ∧ d.endStep check = .next (d.fail .truncated)) ∨
    (d.action ≠ some .finish ∧ d.endStep check = .refused .recordNotEnabled) := by
  by_cases ha : d.action = some .finish
  · cases check with
    | false => exact .inl ⟨ha, by simp, by simp [Dec.endStep, ha]⟩
    | true =>
      by_cases hl : d.ipos.toNat + 8 ≤ d.inLen.toNat
      · exact .inl ⟨ha, fun _ => hl, by simp [Dec.endStep, Dec.has, Config.markerSize, ha, hl]⟩
      · exact .inr (.inl ⟨ha, rfl, by omega, by simp [Dec.endStep, Dec.has, Config.markerSize, ha, hl]⟩)
  · exact .inr (.inr ⟨ha, by simp [Dec.endStep, ha]⟩)

/-! ### Host writes (10_state.md R34) -/

theorem hostWrite_of_quiet {w : HostWrite} {s : State} (h : s.busy w.engine = false) :
    hostWrite w s = .next (w.apply s) := by simp [hostWrite, h]

theorem hostWrite_of_busy {w : HostWrite} {s : State} (h : s.busy w.engine = true) :
    hostWrite w s = if w.isStart then .refused .startWhileBusy else .refused .hostWriteWhileBusy := by
  simp [hostWrite, h]

/-- A host write that is taken found its engine quiet. -/
theorem hostWrite_eq_next {w : HostWrite} {s t : State} :
    hostWrite w s = .next t ↔ s.busy w.engine = false ∧ t = w.apply s := by
  cases h : s.busy w.engine
  · simp [hostWrite_of_quiet h, eq_comm]
  · rw [hostWrite_of_busy h]
    cases w.isStart <;> simp

/-! ### The platform's reset (70_reset_and_hazards.md R292) -/

@[simp] theorem powerReset_enc (s : State) : (powerReset s).enc = Enc.reset := rfl
@[simp] theorem powerReset_dec (s : State) : (powerReset s).dec = Dec.reset := rfl
@[simp] theorem powerReset_turn (s : State) : (powerReset s).turn = .enc := rfl
@[simp] theorem powerReset_fresh (s : State) : (powerReset s).fresh = s.fresh := rfl

/-! ### Emission (00_scope.md R11) -/

theorem encode_length (i : Instr) : (encode i).length = i.length := by cases i <;> rfl

/-- `emit` emits its bytes and nothing else. -/
theorem Enc.emit_emits (e : Enc) (bs : List Byte) : Emits e (e.emit bs) bs :=
  ⟨Memory.readBytes_writeBytes .., rfl, fun a h => Memory.read_writeBytes_outside _ _ _ a h⟩

/-- Two emissions, one after the other, when OPOS does not wrap between them. -/
theorem Emits.trans {e e' e'' : Enc} {bs cs : List Byte} (h : Emits e e' bs) (h' : Emits e' e'' cs)
    (hw : e.opos.toNat + bs.length < 2 ^ 32) : Emits e e'' (bs ++ cs) := by
  obtain ⟨hb, ho, hr⟩ := h
  obtain ⟨hb', ho', hr'⟩ := h'
  have hn : e'.opos.toNat = e.opos.toNat + bs.length := by rw [ho]; exact toNat_cursorAdd hw
  refine ⟨?_, by rw [ho', ho, cursorAdd_cursorAdd, List.length_append], fun a ha => ?_⟩
  · obtain ⟨-, h1⟩ := (Memory.readBytes_eq_some_iff ..).1 hb
    obtain ⟨-, h2⟩ := (Memory.readBytes_eq_some_iff ..).1 hb'
    refine (Memory.readBytes_eq_some_iff ..).2 ⟨rfl, fun i hi => ?_⟩
    simp only [List.length_append] at hi
    by_cases hlt : i < bs.length
    · rw [hr' _ (.inl (by omega)), h1 i hlt, List.getElem?_append_left hlt]
    · have := h2 (i - bs.length) (by omega)
      rw [hn, show e.opos.toNat + bs.length + (i - bs.length) = e.opos.toNat + i by omega] at this
      rw [this, List.getElem?_append_right (by omega)]
  · simp only [List.length_append] at ha
    rw [hr' a (by omega), hr a (by omega)]

/-- Emission does not look at the other fields. -/
theorem Emits.congr {e e' f f' : Enc} {bs : List Byte} (h : Emits e e' bs) (ho : f.opos = e.opos)
    (hs : f.strmOut = e.strmOut) (ho' : f'.opos = e'.opos) (hs' : f'.strmOut = e'.strmOut) : Emits f f' bs :=
  ⟨by rw [ho, hs']; exact h.bytes, by rw [ho', ho]; exact h.opos, by rw [ho, hs', hs]; exact h.otherBytes⟩

theorem Emits.refl (e : Enc) : Emits e e [] := ⟨rfl, (cursorAdd_zero _).symm, fun _ _ => rfl⟩

end Sys2Proof.Machine
end

