-- ==== Sys2Proof/Laws/PerInstr.lean ====
section
/-! SUPPORT. Statements made per record: the family EncodedLength, by the lengths of 30_encoding.md R90. -/

namespace Sys2Proof.Laws.EncodedLength

/-- The bytes of a record are as many as its length says, and of a chunk the first byte says so too (R90, R104). -/
def Statement (i : Instr) : Prop :=
  (encode i).length = i.length ∧
    (i.wf = true → i.position = .chunk → ∃ b0 bs, encode i = b0 :: bs ∧ chunkLength b0 = i.length)

theorem rgb (r g b : Byte) : Statement (.rgb r g b) :=
  ⟨rfl, fun _ _ => ⟨0xFE, [r, g, b], rfl, rfl⟩⟩

theorem rgba (r g b a : Byte) : Statement (.rgba r g b a) :=
  ⟨rfl, fun _ _ => ⟨0xFF, [r, g, b, a], rfl, rfl⟩⟩

theorem index (slot : Slot) : Statement (.index slot) := by
  refine ⟨rfl, fun _ _ => ⟨slot.setWidth 8, [], rfl, ?_⟩⟩
  revert slot
  decide

theorem diff (dr dg db : Int) : Statement (.diff dr dg db) := by
  refine ⟨rfl, fun h _ => ⟨_, [], rfl, ?_⟩⟩
  simp only [Instr.wf, fitsTwoBits, Bool.and_eq_true, decide_eq_true_eq] at h
  obtain ⟨⟨⟨h1, h2⟩, h3, h4⟩, h5, h6⟩ := h
  interval_cases dr <;> interval_cases dg <;> interval_cases db <;> rfl

theorem luma (dg drdg dbdg : Int) : Statement (.luma dg drdg dbdg) := by
  refine ⟨rfl, fun h _ => ⟨_, _, rfl, ?_⟩⟩
  simp only [Instr.wf, fitsSixBits, Bool.and_eq_true, decide_eq_true_eq] at h
  obtain ⟨⟨⟨h1, h2⟩, -⟩, -⟩ := h
  interval_cases dg <;> rfl

theorem run (n : Nat) : Statement (.run n) := by
  refine ⟨rfl, fun h _ => ⟨_, [], rfl, ?_⟩⟩
  simp only [Instr.wf, Bool.and_eq_true, decide_eq_true_eq] at h
  obtain ⟨h1, h2⟩ := h
  interval_cases n <;> rfl

theorem header (w h : U32) (c cs : Byte) : Statement (.header w h c cs) := ⟨rfl, fun _ h => by cases h⟩

theorem endMarker : Statement .endMarker := ⟨rfl, fun _ h => by cases h⟩

end Sys2Proof.Laws.EncodedLength
end

