-- ==== Sys2Proof/Laws/Step.lean ====
section
/-! SUPPORT. What a record's execution and a step of the block can answer, said once (10_state.md R45). -/

namespace Sys2Proof.Machine

/-- What the execution of a record can do to DEC when it answers a next state. -/
inductive ExecOutcome (i : Instr) (d d' : Dec) : Prop where
  /-- the writes of a chunk: at least one pixel when the record is well formed, never more than are missing -/
  | chunk (cur : Pixel) (k : Nat) (ins : Bool) (pos : i.position = .chunk) (enabled : d.action = some .body)
      (fits : d.ipos.toNat + i.length ≤ d.inLen.toNat) (clipped : d.pxpos.toNat + k ≤ d.pixels) (some : i.wf = true → 1 ≤ k)
      (eq : d' = d.retire i.length cur k ins)
  /-- the operation begun by a header -/
  | begun (w h : U32) (c cs : Byte) (is : i = .header w h c cs) (enabled : d.action = some .start)
      (accepted : d.headerCheck w h c cs = none) (eq : d' = d.begin w h c cs)
  /-- the operation finished by the end marker -/
  | finished (is : i = .endMarker) (enabled : d.action = some .finish) (fits : d.ipos.toNat + 8 ≤ d.inLen.toNat)
      (eq : d' = d.finish 8)
  /-- a failure -/
  | failed (c : Cause) (ofDec : c.ofDec = true) (enabled : d.action = some (stepOf i.position)) (eq : d' = d.fail c)

theorem Cause.ofDec_of_headerCheck {d : Dec} {w h : U32} {c cs : Byte} {x : Cause}
    (hx : d.headerCheck w h c cs = some x) : x.ofDec = true := by
  unfold Dec.headerCheck at hx
  split at hx
  · rename_i y hy
    obtain rfl := Option.some.inj hx
    unfold Dec.requestCheck at hy
    repeat' split at hy
    all_goals simp at hy
    all_goals subst hy; rfl
  · unfold descriptorCheck at hx
    repeat' split at hx
    all_goals simp at hx
    all_goals subst hx; rfl

theorem Cause.ofDec_of_requestCheck {d : Dec} {x : Cause} (hx : d.requestCheck = some x) : x.ofDec = true :=
  Cause.ofDec_of_headerCheck (d := d) (w := 0) (h := 0) (c := 0) (cs := 0) (by simp [Dec.headerCheck, hx])

theorem chunkStep_outcome {i : Instr} {s t : State} {cur : Pixel} {k : Nat} {ins : Bool} (pos : i.position = .chunk)
    (hk : s.dec.pxpos.toNat < s.dec.pixels → s.dec.pxpos.toNat + k ≤ s.dec.pixels ∧ (i.wf = true → 1 ≤ k))
    (h : s.withDec (s.dec.chunkStep i.length cur k ins) = .next t) :
    ∃ d, t = { s with dec := d } ∧ ExecOutcome i s.dec d := by
  obtain ⟨d, hd, rfl⟩ := State.withDec_eq_next.1 h
  refine ⟨d, rfl, ?_⟩
  rcases Dec.chunkStep_cases s.dec i.length cur k ins with ⟨ha, hl, he⟩ | ⟨ha, hl, he⟩ | ⟨ha, he⟩
  · obtain rfl := Host.Outcome.next.inj (he.symm.trans hd)
    obtain ⟨-, -, hp⟩ := enabledAction_eq_body.1 ha
    exact .chunk cur k ins pos ha hl (hk hp).1 (hk hp).2 rfl
  · obtain rfl := Host.Outcome.next.inj (he.symm.trans hd)
    exact .failed .truncated rfl (by rw [pos]; exact ha) rfl
  · rw [he] at hd
    cases hd

/-- Every next state the execution of a record answers. -/
theorem exec_next_cases {i : Instr} {s t : State} (h : exec i s = .next t) :
    ∃ d, t = { s with dec := d } ∧ ExecOutcome i s.dec d := by
  cases i with
  | rgb r g b => exact chunkStep_outcome rfl (fun hp => ⟨hp, fun _ => Nat.le_refl 1⟩) h
  | rgba r g b a => exact chunkStep_outcome rfl (fun hp => ⟨hp, fun _ => Nat.le_refl 1⟩) h
  | index slot => exact chunkStep_outcome rfl (fun hp => ⟨hp, fun _ => Nat.le_refl 1⟩) h
  | diff dr dg db => exact chunkStep_outcome rfl (fun hp => ⟨hp, fun _ => Nat.le_refl 1⟩) h
  | luma dg drdg dbdg => exact chunkStep_outcome rfl (fun hp => ⟨hp, fun _ => Nat.le_refl 1⟩) h
  | run n =>
    refine chunkStep_outcome (i := .run n) rfl (fun hp => ⟨by omega, fun hw => ?_⟩) h
    simp only [Instr.wf, Bool.and_eq_true, decide_eq_true_eq] at hw
    omega
  | header w hh c cs =>
    obtain ⟨d, hd, rfl⟩ := State.withDec_eq_next.1 h
    refine ⟨d, rfl, ?_⟩
    rcases Dec.start_cases s.dec w hh c cs with ⟨ha, hc, he⟩ | ⟨x, ha, hc, he⟩ | ⟨ha, he⟩
    · obtain rfl := Host.Outcome.next.inj (he.symm.trans hd)
      exact .begun w hh c cs rfl ha hc rfl
    · obtain rfl := Host.Outcome.next.inj (he.symm.trans hd)
      exact .failed x (Cause.ofDec_of_headerCheck hc) ha rfl
    · rw [he] at hd
      cases hd
  | endMarker =>
    obtain ⟨d, hd, rfl⟩ := State.withDec_eq_next.1 h
    refine ⟨d, rfl, ?_⟩
    rcases Dec.endStep_cases s.dec Config.checkEndMarker with ⟨ha, hl, he⟩ | ⟨ha, -, -, he⟩ | ⟨ha, he⟩
    · obtain rfl := Host.Outcome.next.inj (he.symm.trans hd)
      exact .finished rfl ha (hl rfl) rfl
    · obtain rfl := Host.Outcome.next.inj (he.symm.trans hd)
      exact .failed .truncated rfl ha rfl
    · rw [he] at hd
      cases hd

/-- What one step of ENC can do when it answers a next state. -/
inductive EncOutcome (e e' : Enc) : Prop where
  | idle (enabled : e.action = none) (eq : e' = e)
  | begun (enabled : e.action = some .start) (accepted : e.startCheck = none) (eq : e' = e.begin)
  | failed (c : Cause) (enabled : e.action = some .start) (check : e.startCheck = some c) (eq : e' = e.fail c)
  | pixel (cur : Pixel) (enabled : e.action = some .body) (fetched : e.fetch = some cur) (eq : e' = e.pixel cur)
  | finished (enabled : e.action = some .finish) (eq : e' = e.finish)

/-- Every next state a step of ENC answers. -/
theorem Enc.step_next_cases {e e' : Enc} (h : e.step = .next e') : EncOutcome e e' := by
  unfold Enc.step at h
  split at h
  · rename_i ha
    exact .idle ha (Host.Outcome.next.inj h).symm
  · rename_i ha
    unfold Enc.start at h
    split at h
    · rename_i c hc
      exact .failed c ha hc (Host.Outcome.next.inj h).symm
    · rename_i hc
      exact .begun ha hc (Host.Outcome.next.inj h).symm
  · rename_i ha
    unfold Enc.pixelStep at h
    split at h
    · rename_i cur hf
      exact .pixel cur ha hf (Host.Outcome.next.inj h).symm
    · cases h
  · rename_i ha
    exact .finished ha (Host.Outcome.next.inj h).symm
  · cases h

/-- What one step of the block can do when it answers a next state. -/
inductive StepOutcome (s t : State) : Prop where
  | idle (mover : s.mover = none) (eq : t = s)
  | enc (e : Enc) (mover : s.mover = some .enc) (did : EncOutcome s.enc e) (eq : t = { s with enc := e }.passTurn)
  | record (i : Instr) (d : Dec) (mover : s.mover = some .dec) (fetched : s.dec.fetch = some (.record i))
      (did : ExecOutcome i s.dec d) (eq : t = { s with dec := d }.passTurn)
  | fails (c : Cause) (mover : s.mover = some .dec) (fetched : s.dec.fetch = some (.fails c))
      (eq : t = { s with dec := s.dec.fail c }.passTurn)

/-- Every next state a step of the block answers. -/
theorem step_next_cases {s t : State} (h : step s = .next t) : StepOutcome s t := by
  unfold step at h
  split at h
  · rename_i hm
    exact .idle hm (Host.Outcome.next.inj h).symm
  · rename_i hm
    obtain ⟨u, hu, rfl⟩ := passTurn_eq_next.1 h
    obtain ⟨e, he, rfl⟩ := State.withEnc_eq_next.1 hu
    exact .enc e hm (Enc.step_next_cases he) rfl
  · rename_i hm
    obtain ⟨u, hu, rfl⟩ := passTurn_eq_next.1 h
    unfold decStep at hu
    split at hu
    · rename_i i hf
      obtain ⟨d, rfl, hd⟩ := exec_next_cases hu
      exact .record i d hm hf hd rfl
    · rename_i c hf
      exact .fails c hm hf (by rw [← Host.Outcome.next.inj hu])
    · cases hu
    · cases hu

/-- Any cause DEC's fetch finds is one of DEC's. -/
theorem Dec.fetch_fails_ofDec {d : Dec} {c : Cause} (h : d.fetch = some (.fails c)) : c.ofDec = true := by
  have hrec : ∀ {p a n}, d.recordAt p a n = .fails c → c.ofDec = true := by
    intro p a n hr
    unfold Dec.recordAt at hr
    split at hr
    · cases hr
    · split at hr
      · cases hr
      · rename_i e _
        obtain rfl := Fetched.fails.inj hr
        cases e <;> rfl
  unfold Dec.fetch at h
  split at h
  · have h := Option.some.inj h
    unfold Dec.fetchHeader at h
    split at h
    · rename_i x hx
      obtain rfl := Fetched.fails.inj h
      exact Cause.ofDec_of_requestCheck hx
    · exact hrec h
  · have h := Option.some.inj h
    unfold Dec.fetchChunk at h
    repeat' split at h
    · cases h
    · exact hrec h
    · obtain rfl := Fetched.fails.inj h; rfl
    · obtain rfl := Fetched.fails.inj h; rfl
  · have h := Option.some.inj h
    unfold Dec.fetchMarker at h
    repeat' split at h
    · exact hrec h
    · obtain rfl := Fetched.fails.inj h; rfl
    · cases h
  · cases h
  · cases h

end Sys2Proof.Machine
end

