-- ==== Sys2Proof/Tests/Slice0.lean ====
section
/-! SUPPORT. Tests of the model, and for every obligation with hypotheses a concrete input that meets them all.
Expected results are the spec's own (95_test_vectors.md; the vector's name stands beside each) or written out from
the layouts of 30_encoding.md. -/

namespace Sys2Proof.Machine

set_option Elab.async false

/-! ### Well-formedness: each check refuses an ill-formed record (30_encoding.md R101) -/

theorem test_wf_refuses_diff_red : (Instr.diff 2 0 0).wf = false ∧ (Instr.diff (-3) 0 0).wf = false := by decide
theorem test_wf_refuses_diff_green : (Instr.diff 0 2 0).wf = false ∧ (Instr.diff 0 (-3) 0).wf = false := by decide
theorem test_wf_refuses_diff_blue : (Instr.diff 0 0 2).wf = false ∧ (Instr.diff 0 0 (-3)).wf = false := by decide
theorem test_wf_refuses_luma_green : (Instr.luma 32 0 0).wf = false ∧ (Instr.luma (-33) 0 0).wf = false := by decide
theorem test_wf_refuses_luma_red : (Instr.luma 0 8 0).wf = false ∧ (Instr.luma 0 (-9) 0).wf = false := by decide
theorem test_wf_refuses_luma_blue : (Instr.luma 0 0 8).wf = false ∧ (Instr.luma 0 0 (-9)).wf = false := by decide
theorem test_wf_refuses_run : (Instr.run 0).wf = false ∧ (Instr.run 63).wf = false := by decide

/-! ### Decoding: words written out from the layouts, and the decoder's rejections -/

/-- V-L17 and V-L18. -/
theorem test_decode_rgb_rgba :
    decodeChunk [0b11111110, 0x0A, 0x14, 0x1E] = .ok (.rgb 10 20 30, []) ∧
    decodeChunk [0b11111111, 0x01, 0x00, 0x00, 0x80] = .ok (.rgba 1 0 0 128, []) := by decide

/-- V-L1 to V-L3: tag 00. -/
theorem test_decode_index :
    decodeChunk [0b00000000] = .ok (.index 0, []) ∧ decodeChunk [0b00111111] = .ok (.index 63, []) ∧
    decodeChunk [0b00110001] = .ok (.index 49, []) := by decide

/-- V-L4 to V-L8: tag 01, three fields biased by 2. -/
theorem test_decode_diff :
    decodeChunk [0b01000000] = .ok (.diff (-2) (-2) (-2), []) ∧ decodeChunk [0b01111111] = .ok (.diff 1 1 1, []) ∧
    decodeChunk [0b01111001] = .ok (.diff 1 0 (-1), []) ∧ decodeChunk [0b01001100] = .ok (.diff (-2) 1 (-2), []) := by
  decide

/-- V-L9, V-L10, V-L12 and V-L13: tag 10, green biased by 32, the differences by 8. -/
theorem test_decode_luma :
    decodeChunk [0b10000000, 0b00000000] = .ok (.luma (-32) (-8) (-8), []) ∧
    decodeChunk [0b10111111, 0b11111111] = .ok (.luma 31 7 7, []) ∧
    decodeChunk [0b10101000, 0b10100110] = .ok (.luma 8 2 (-2), []) ∧
    decodeChunk [0b10011000, 0b01011011] = .ok (.luma (-8) (-3) 3, []) := by decide

/-- V-L14 to V-L16: tag 11, stored less 1. -/
theorem test_decode_run :
    decodeChunk [0b11000000] = .ok (.run 1, []) ∧ decodeChunk [0b11000001] = .ok (.run 2, []) ∧
    decodeChunk [0b11111101] = .ok (.run 62, []) := by decide

/-- V-F4, and V-X4 and V-X2 for the rejections. -/
theorem test_decode_header :
    decodeHeader [0x71, 0x6F, 0x69, 0x66, 0, 1, 0, 0, 0, 0, 1, 0, 3, 1] = .ok (.header 65536 256 3 1, []) ∧
    decodeHeader [0x71, 0x6F, 0x69, 0x67, 0, 0, 0, 1, 0, 0, 0, 1, 4, 0] = .error .badMagic ∧
    decodeHeader [0x71, 0x6F, 0x69, 0x66] = .error .truncated := by decide

/-- END (R93), and V-X12 and V-X11 for the rejections. -/
theorem test_decode_end :
    decodeMarker [0, 0, 0, 0, 0, 0, 0, 1] = .ok (.endMarker, []) ∧
    decodeMarker [0, 0, 0, 0, 0, 0, 0, 0] = .error .badMarker ∧
    decodeMarker [0, 0, 0, 0, 0, 0, 0] = .error .truncated := by decide

/-- V-X13 to V-X15: chunks cut short; no first byte at all. -/
theorem test_decode_truncated :
    decodeChunk [0xFE, 1, 2] = .error .truncated ∧ decodeChunk [0xFF, 1, 2, 3] = .error .truncated ∧
    decodeChunk [0x80] = .error .truncated ∧ decodeChunk [] = .error .truncated := by decide

/-- The same words in the other direction (V-L7, V-L13, V-L16; V-F2). -/
theorem test_encode :
    encode (.diff 1 0 (-1)) = [0x79] ∧ encode (.luma (-8) (-3) 3) = [0x98, 0x5B] ∧ encode (.run 62) = [0xFD] ∧
    encode (.header 4 2 3 1) = [0x71, 0x6F, 0x69, 0x66, 0, 0, 0, 4, 0, 0, 0, 2, 3, 1] := by decide

/-- Words numbered as the opcode table numbers them: LUMA −8,−3,3 with its second byte in bits 15..8; END. -/
theorem test_decode_table_word :
    decodeTableWord 16 0x5B98 = some (.luma (-8) (-3) 3) ∧ decodeTableWord 64 0x0100000000000000 = some .endMarker ∧
    decodeTableWord 64 0 = none := by decide

/-- V-H1, V-H10, V-H14, V-H15, V-H18. -/
theorem test_hash :
    Pixel.hash ⟨0, 0, 0, 0⟩ = 0 ∧ Pixel.hash ⟨128, 64, 32, 16⟩ = 16 ∧ Pixel.hash ⟨1, 0, 0, 255⟩ = 56 ∧
    Pixel.hash ⟨65, 0, 0, 255⟩ = 56 ∧ Pixel.hash ⟨36, 29, 36, 0⟩ = 57 := by decide

/-! ### Small states -/

/-- A space that holds bytes from offset 0 on. -/
def spaceOf (bs : List Byte) : Memory := bs.mapIdx fun i b => (i, b)

/-- DEC in the chunk sequence of a `w` × 1 image of `c` channels: `bs` is the stream after the header. -/
def decAt (w : U32) (c : Byte) (prev : Pixel) (idx : Pxc) (pxpos : Nat) (bs : List Byte) : State :=
  { State.reset with
    dec := { Dec.reset.begin w 1 c 0 with
      prev := prev
      idx := idx
      pxpos := BitVec.ofNat 32 pxpos
      opos := BitVec.ofNat 32 (pxpos * c.toNat)
      inLen := BitVec.ofNat 32 (14 + bs.length)
      strmIn := spaceOf (encode (.header w 1 c 0) ++ bs) } }

/-- DEC with a stream in STRM_IN and a START pending. -/
def decStarting (reqch : Byte) (bs : List Byte) : State :=
  { State.reset with
    dec := { Dec.reset with ctrl := 1, reqch := reqch, inLen := BitVec.ofNat 32 bs.length, strmIn := spaceOf bs } }

/-- ENC with a `w` × `h` image in PIX_IN and a START pending. -/
def encStarting (w h : U32) (c cs : Byte) (valid : BitVec 1) (bs : List Byte) : State :=
  { State.reset with
    enc := { Enc.reset with
      ctrl := 1
      width := w
      height := h
      channels := c
      colorspace := cs
      descValid := valid
      pixLen := BitVec.ofNat 32 bs.length
      pixIn := spaceOf bs } }

/-- ENC in the pixel sequence of a `w` × 1 image; the header has been emitted and `opos` bytes with it. -/
def encAt (w : U32) (c : Byte) (prev : Pixel) (idx : Pxc) (run pxpos opos : Nat) (bs : List Byte) : State :=
  { State.reset with
    enc := { (encStarting w 1 c 0 1 bs).enc.begin with
      prev := prev
      idx := idx
      run := BitVec.ofNat 6 run
      pxpos := BitVec.ofNat 32 pxpos
      opos := BitVec.ofNat 32 opos } }

/-- Whether a step answers a next state with a property. -/
def answers (o : Host.Outcome State Fault Refusal) (p : State → Bool) : Bool :=
  match o with
  | .next t => p t
  | .fault _ => false
  | .refused _ => false

theorem exists_of_answers {o : Host.Outcome State Fault Refusal} {p : State → Bool} (h : answers o p = true) :
    ∃ t, o = .next t ∧ p t = true := by
  cases o with
  | next t => exact ⟨t, rfl, h⟩
  | fault _ => cases h
  | refused _ => cases h

/-! ### One step of DEC -/

/-- V-D1. -/
theorem test_rgb : answers (exec (.rgb 10 20 30) (decAt 2 4 ⟨0, 0, 0, 255⟩ Pxc.clear 0 [0xFE, 10, 20, 30])) (fun t =>
    t.dec.prev = ⟨10, 20, 30, 255⟩ && Pxc.read t.dec.idx 9 = ⟨10, 20, 30, 255⟩ && t.dec.ipos = 18 && t.dec.pxpos = 1 &&
    t.dec.pixOut = spaceOf [10, 20, 30, 255]) = true := by decide +kernel

/-- V-D2. -/
theorem test_rgba : answers (exec (.rgba 1 0 0 128) (decAt 2 4 ⟨10, 20, 30, 255⟩ Pxc.clear 0 [0xFF, 1, 0, 0, 128])) (fun t =>
    t.dec.prev = ⟨1, 0, 0, 128⟩ && Pxc.read t.dec.idx 3 = ⟨1, 0, 0, 128⟩ && t.dec.ipos = 19) = true := by decide +kernel

/-- V-D3: no cache write. -/
theorem test_index : answers (exec (.index 5) (decAt 2 4 ⟨0, 0, 0, 255⟩ Pxc.clear 0 [0x05])) (fun t =>
    t.dec.prev = ⟨0, 0, 0, 0⟩ && t.dec.idx = Pxc.clear && t.dec.ipos = 15 && t.dec.pxpos = 1) = true := by decide +kernel

/-- V-D4. -/
theorem test_diff : answers (exec (.diff 1 0 (-1)) (decAt 2 4 ⟨0, 0, 0, 255⟩ Pxc.clear 0 [0x79])) (fun t =>
    t.dec.prev = ⟨1, 0, 255, 255⟩ && Pxc.read t.dec.idx 49 = ⟨1, 0, 255, 255⟩ && t.dec.ipos = 15) = true := by
  decide +kernel

/-- V-D5. -/
theorem test_luma : answers (exec (.luma 8 2 (-2)) (decAt 2 4 ⟨1, 0, 255, 255⟩ Pxc.clear 0 [0xA8, 0xA6])) (fun t =>
    t.dec.prev = ⟨11, 8, 5, 255⟩ && Pxc.read t.dec.idx 33 = ⟨11, 8, 5, 255⟩ && t.dec.ipos = 16) = true := by
  decide +kernel

/-- Program P4, step 3: wrap-around of all three channels, alpha from PREV. -/
theorem test_luma_wraps : answers (exec (.luma 31 7 7) (decAt 6 4 ⟨254, 254, 254, 0⟩ Pxc.clear 2 [0xBF, 0xFF])) (fun t =>
    t.dec.prev = ⟨36, 29, 36, 0⟩ && Pxc.read t.dec.idx 57 = ⟨36, 29, 36, 0⟩ && t.dec.pxpos = 3) = true := by
  decide +kernel

/-- V-D14. -/
theorem test_run : answers (exec (.run 2) (decAt 2 4 ⟨200, 100, 50, 255⟩ Pxc.clear 0 [0xC1])) (fun t =>
    t.dec.prev = ⟨200, 100, 50, 255⟩ && Pxc.read t.dec.idx 31 = ⟨200, 100, 50, 255⟩ && t.dec.ipos = 15 &&
    t.dec.pxpos = 2 && t.dec.pixOut = spaceOf [200, 100, 50, 255, 200, 100, 50, 255]) = true := by decide +kernel

/-- Program P4, step 4: a run clipped to the 3 pixels still missing. -/
theorem test_run_clipped : answers (exec (.run 62) (decAt 6 4 ⟨36, 29, 36, 0⟩ Pxc.clear 3 [0xFD])) (fun t =>
    t.dec.pxpos = 6 && t.dec.opos = 24 && t.dec.ipos = 15) = true := by decide +kernel

/-- V-S1: the header of the source's scenario. -/
theorem test_header : answers (exec (.header 2 1 4 0) (decStarting 0 (encode (.header 2 1 4 0)))) (fun t =>
    t.dec.status = ⟨.body, none, .none⟩ && t.dec.width = 2 && t.dec.height = 1 && t.dec.och = 4 && t.dec.ipos = 14 &&
    t.dec.prev = ⟨0, 0, 0, 255⟩ && t.dec.ctrl = 0) = true := by decide +kernel

/-- V-X5c: the first check that applies wins. -/
theorem test_header_fails : answers (step (decStarting 0 [0x71, 0x6F, 0x69, 0x66, 0, 0, 0, 0, 0, 0, 0, 1, 7, 0])) (fun t =>
    t.dec.status.word = 0x0133) = true := by decide +kernel

/-- V-S1: the end marker after the last pixel. -/
theorem test_end : answers (step (decAt 2 4 ⟨10, 20, 30, 255⟩ Pxc.clear 2 [0, 0, 0, 0, 0, 0, 0, 1])) (fun t =>
    t.dec.status = ⟨.done, none, .none⟩ && t.dec.outLen = 8 && t.dec.ipos = 22) = true := by decide +kernel

/-- V-X17: a zero byte before the marker. -/
theorem test_end_fails : answers (step (decAt 1 4 ⟨0, 0, 0, 255⟩ Pxc.clear 1 [0, 0, 0, 0, 0, 0, 0, 0, 1])) (fun t =>
    t.dec.status.word = 0x02A3) = true := by decide +kernel

/-- V-X9: no chunk byte. -/
theorem test_chunk_fails : answers (step (decAt 1 4 ⟨0, 0, 0, 255⟩ Pxc.clear 0 [])) (fun t =>
    t.dec.status.word = 0x0293) = true := by decide +kernel

/-- The fetch interface: the RGB word of V-D1 runs as the first record after reset. -/
theorem test_with_fetch_word : answers (step (State.reset.withFetchWord 32 0x1E140AFE)) (fun t =>
    t.dec.prev = ⟨10, 20, 30, 255⟩) = true := by decide +kernel

/-! ### One step of ENC -/

/-- V-S1: the header. -/
theorem test_enc_start : answers (step (encStarting 2 1 4 0 1 [10, 20, 30, 255, 10, 20, 30, 255])) (fun t =>
    t.enc.strmOut = spaceOf [0x71, 0x6F, 0x69, 0x66, 0, 0, 0, 2, 0, 0, 0, 1, 4, 0] && t.enc.opos = 14 &&
    t.enc.status.phase = .body) = true := by decide +kernel

/-- V-Y8: 3 bytes expected, 4 placed. -/
theorem test_enc_start_fails : answers (step (encStarting 1 1 3 0 1 [1, 2, 3, 4])) (fun t =>
    t.enc.status.word = 0x01B3 && t.enc.strmOut = []) = true := by decide +kernel

/-- V-E27: two chunks in one step. -/
theorem test_enc_pixel : answers (step (encAt 2 4 ⟨5, 5, 5, 255⟩ (Pxc.insert Pxc.clear ⟨6, 6, 6, 255⟩) 1 1 20
      [5, 5, 5, 255, 6, 6, 6, 255])) (fun t =>
    Memory.readBytes t.enc.strmOut 20 2 = some [0xC0, 0x0F] && t.enc.opos = 22 && t.enc.run = 0) = true := by
  decide +kernel

/-- V-E26: the run is flushed at 62. -/
theorem test_enc_run : answers (step (encAt 80 4 ⟨0, 0, 0, 255⟩ Pxc.clear 61 61 14
      (List.replicate 62 [0, 0, 0, 255]).flatten)) (fun t =>
    Memory.readBytes t.enc.strmOut 14 1 = some [0xFD] && t.enc.run = 0) = true := by decide +kernel

/-- V-E5, V-E8, V-E10, V-E12 to V-E14, V-E17, V-E20, V-E22 to V-E24: the selector at its edges. -/
theorem test_selector :
    chunkFor Pxc.clear ⟨0, 0, 0, 255⟩ ⟨2, 0, 0, 255⟩ = .luma 0 2 0 ∧
    chunkFor Pxc.clear ⟨0, 0, 0, 255⟩ ⟨247, 0, 0, 255⟩ = .rgb 247 0 0 ∧
    chunkFor Pxc.clear ⟨0, 0, 0, 255⟩ ⟨8, 0, 0, 255⟩ = .rgb 8 0 0 ∧
    chunkFor Pxc.clear ⟨0, 0, 0, 255⟩ ⟨38, 31, 23, 255⟩ = .luma 31 7 (-8) ∧
    chunkFor Pxc.clear ⟨0, 0, 0, 255⟩ ⟨216, 224, 231, 255⟩ = .luma (-32) (-8) 7 ∧
    chunkFor Pxc.clear ⟨0, 0, 0, 255⟩ ⟨0, 32, 0, 255⟩ = .rgb 0 32 0 ∧
    chunkFor Pxc.clear ⟨0, 0, 0, 255⟩ ⟨128, 0, 0, 255⟩ = .rgb 128 0 0 ∧
    chunkFor Pxc.clear ⟨0, 0, 0, 255⟩ ⟨0, 0, 0, 254⟩ = .rgba 0 0 0 254 ∧
    chunkFor Pxc.clear ⟨255, 255, 255, 255⟩ ⟨0, 0, 0, 255⟩ = .diff 1 1 1 ∧
    chunkFor Pxc.clear ⟨250, 251, 252, 255⟩ ⟨2, 3, 1, 255⟩ = .luma 8 0 (-3) ∧
    chunkFor Pxc.clear ⟨0, 0, 0, 255⟩ ⟨0, 0, 0, 0⟩ = .index 0 := by decide +kernel

/-- V-B1 to V-B9: the bound check at its edges. -/
theorem test_bound_check :
    tooManyPixels 20000 19999 = false ∧ tooManyPixels 20000 20000 = true ∧ tooManyPixels 1 399999999 = false ∧
    tooManyPixels 1 400000000 = true ∧ tooManyPixels 3 133333332 = false ∧ tooManyPixels 3 133333333 = true ∧
    tooManyPixels 200000000 1 = false ∧ tooManyPixels 200000001 1 = true ∧ tooManyPixels 400000001 1 = true := by
  decide

/-! ### Witnesses: encoding. Each theorem shows inputs that meet every hypothesis of the obligation it is named
after, one for each clause, at the edges of the clauses' ranges. -/

theorem witness_DecodeOfEncodeGivesTheRecord :
    ∀ i ∈ [Instr.rgb 255 0 255, .rgba 0 255 0 255, .index 63, .diff (-2) 1 (-2), .luma 31 (-8) 7, .luma (-32) 7 (-8),
      .run 1, .run 62, .header 0xFFFFFFFF 0 255 255, .endMarker], i.wf = true := by decide

theorem witness_DecodedBytesAreTheEncoding :
    decode .chunk [0x79, 5] = .ok (.diff 1 0 (-1), [5]) ∧
    decode .header [0x71, 0x6F, 0x69, 0x66, 0, 1, 0, 0, 0, 0, 1, 0, 3, 1, 9] = .ok (.header 65536 256 3 1, [9]) ∧
    decode .endMarker [0, 0, 0, 0, 0, 0, 0, 1] = .ok (.endMarker, []) := by decide

theorem witness_EveryChunkDecodesUnlessCutShort :
    (∀ x ∈ [(0x3F#8, 0), (0x7F#8, 0), (0x80#8, 1), (0xFD#8, 0), (0xFE#8, 3), (0xFF#8, 4)], chunkLength x.1 ≤ x.2 + 1) ∧
    (∀ x ∈ [(0xBF#8, 0), (0xFE#8, 2), (0xFF#8, 3)], x.2 + 1 < chunkLength x.1) := by decide

theorem witness_FirstByteSelectsTheChunk :
    decodeChunk [0x00] = .ok (.index 0, []) ∧ decodeChunk [0x3F] = .ok (.index 63, []) ∧
    decodeChunk [0x40] = .ok (.diff (-2) (-2) (-2), []) ∧ decodeChunk [0x7F] = .ok (.diff 1 1 1, []) ∧
    decodeChunk [0x80, 0x00] = .ok (.luma (-32) (-8) (-8), []) ∧ decodeChunk [0xBF, 0xFF] = .ok (.luma 31 7 7, []) ∧
    decodeChunk [0xC0] = .ok (.run 1, []) ∧ decodeChunk [0xFD] = .ok (.run 62, []) ∧
    decodeChunk [0xFE, 1, 2, 3] = .ok (.rgb 1 2 3, []) ∧ decodeChunk [0xFF, 1, 2, 3, 4] = .ok (.rgba 1 2 3 4, []) := by
  decide

/-- Chunks that account for 10 pixels, the last of them with pixels to spare. -/
theorem witness_ListingRecoversTheChunks :
    covers [.luma 31 7 7, .run 7, .index 5, .run 62] 10 ∧ [Instr.luma 31 7 7, .run 7, .index 5, .run 62].length ≤ 4 := by
  refine ⟨?_, by decide⟩
  simp [covers, Instr.position, Instr.wf, Instr.pixels, fitsSixBits, fitsFourBits]

/-! ### Witnesses: cache and spaces -/

theorem witness_HashIsTheSameInEveryWidth : 6 ≤ 6 ∧ 6 ≤ 8 ∧ 6 ≤ 32 := by decide

theorem witness_InsertOverwritesItsSlotOnly :
    (0 : Slot) ≠ Pixel.hash ⟨1, 0, 0, 255⟩ ∧
    Pxc.read (Pxc.insert Pxc.clear ⟨1, 0, 0, 255⟩) (Pixel.hash ⟨1, 0, 0, 255⟩) = ⟨1, 0, 0, 255⟩ ∧
    Pxc.read (Pxc.insert Pxc.clear ⟨1, 0, 0, 255⟩) 56 = ⟨1, 0, 0, 255⟩ := by decide +kernel

theorem witness_CanonicalSpacesThatReadAlikeAreEqual :
    Memory.wf (spaceOf [7, 8, 9]) ∧ Memory.wf (Memory.write (Memory.write (Memory.write [] 2 9) 0 7) 1 8) ∧
    ∀ a, Memory.read (spaceOf [7, 8, 9]) a = Memory.read (Memory.write (Memory.write (Memory.write [] 2 9) 0 7) 1 8) a :=
  ⟨by decide, by decide, fun _ => rfl⟩

/-! ### Witnesses: the chunks -/

/-- A state in which a chunk step is enabled, with exactly `len` bytes left, and one with a byte too few; 4 and 3
output channels. -/
theorem witness_chunks (len : Nat) (h : len = 1 ∨ len = 2 ∨ len = 4 ∨ len = 5) :
    ∃ s s' : State,
      s.dec.action = some .body ∧ s.dec.och = 4 ∧ s.dec.ipos.toNat + len = s.dec.inLen.toNat ∧ s.dec.pxpos.toNat + 1 = s.dec.pixels ∧
      s'.dec.action = some .body ∧ s'.dec.och = 3 ∧ s'.dec.inLen.toNat + 1 = s'.dec.ipos.toNat + len :=
  ⟨decAt 2 4 ⟨1, 2, 3, 4⟩ Pxc.clear 1 (List.replicate len 0), decAt 2 3 ⟨1, 2, 3, 4⟩ Pxc.clear 0 (List.replicate (len - 1) 0),
    by rcases h with rfl | rfl | rfl | rfl <;> decide +kernel⟩

theorem witness_RgbExecutes : ∃ s s' : State,
    s.dec.action = some .body ∧ s.dec.och = 4 ∧ s.dec.ipos.toNat + 4 = s.dec.inLen.toNat ∧ s.dec.pxpos.toNat + 1 = s.dec.pixels ∧
    s'.dec.action = some .body ∧ s'.dec.och = 3 ∧ s'.dec.inLen.toNat + 1 = s'.dec.ipos.toNat + 4 := witness_chunks 4 (by decide)

theorem witness_RgbaExecutes : ∃ s s' : State,
    s.dec.action = some .body ∧ s.dec.och = 4 ∧ s.dec.ipos.toNat + 5 = s.dec.inLen.toNat ∧ s.dec.pxpos.toNat + 1 = s.dec.pixels ∧
    s'.dec.action = some .body ∧ s'.dec.och = 3 ∧ s'.dec.inLen.toNat + 1 = s'.dec.ipos.toNat + 5 := witness_chunks 5 (by decide)

theorem witness_IndexExecutes : ∃ s s' : State,
    s.dec.action = some .body ∧ s.dec.och = 4 ∧ s.dec.ipos.toNat + 1 = s.dec.inLen.toNat ∧ s.dec.pxpos.toNat + 1 = s.dec.pixels ∧
    s'.dec.action = some .body ∧ s'.dec.och = 3 ∧ s'.dec.inLen.toNat + 1 = s'.dec.ipos.toNat + 1 := witness_chunks 1 (by decide)

theorem witness_IndexExecutes_slot : (0x31#8).extractLsb' 6 2 = 0 ∧ (0x31#8).extractLsb' 0 6 = (49 : Slot) := by decide

theorem witness_DiffExecutes : ∃ s s' : State,
    s.dec.action = some .body ∧ s.dec.och = 4 ∧ s.dec.ipos.toNat + 1 = s.dec.inLen.toNat ∧ s.dec.pxpos.toNat + 1 = s.dec.pixels ∧
    s'.dec.action = some .body ∧ s'.dec.och = 3 ∧ s'.dec.inLen.toNat + 1 = s'.dec.ipos.toNat + 1 := witness_chunks 1 (by decide)

theorem witness_LumaExecutes : ∃ s s' : State,
    s.dec.action = some .body ∧ s.dec.och = 4 ∧ s.dec.ipos.toNat + 2 = s.dec.inLen.toNat ∧ s.dec.pxpos.toNat + 1 = s.dec.pixels ∧
    s'.dec.action = some .body ∧ s'.dec.och = 3 ∧ s'.dec.inLen.toNat + 1 = s'.dec.ipos.toNat + 2 := witness_chunks 2 (by decide)

/-- DEC before the last two pixels of three, its PREV in its slot. -/
def runState : State := decAt 3 4 ⟨9, 9, 9, 255⟩ (Pxc.insert Pxc.clear ⟨9, 9, 9, 255⟩) 1 [0xC1]

theorem witness_RunCacheWriteIsInvisibleWhenPrevIsCached :
    (∃ a, runState.dec.runChunk true 2 = .next a) ∧ (∃ b, runState.dec.runChunk false 2 = .next b) ∧
    (0 : Slot) ≠ Pixel.hash runState.dec.prev ∧
    Pxc.read runState.dec.idx (Pixel.hash runState.dec.prev) = runState.dec.prev := by
  have ha : runState.dec.action = some .body := by decide +kernel
  have hl : runState.dec.has 1 = true := by decide +kernel
  have run (c : Bool) : ∃ a, runState.dec.runChunk c 2 = .next a :=
    ⟨runState.dec.retire 1 runState.dec.prev (min 2 (runState.dec.pixels - runState.dec.pxpos.toNat)) c,
      by rw [Dec.runChunk, Dec.chunkStep, if_pos ha, if_pos hl]⟩
  exact ⟨run true, run false, by decide +kernel, by decide +kernel⟩

theorem witness_RecordExecutesExactlyWhenItsStepIsEnabled :
    (decStarting 0 [1]).dec.action = some (stepOf (Instr.header 1 1 3 0).position) ∧
    runState.dec.action = some (stepOf (Instr.run 2).position) ∧
    (decAt 2 4 ⟨0, 0, 0, 255⟩ Pxc.clear 2 []).dec.action = some (stepOf Instr.endMarker.position) ∧
    State.reset.dec.action ≠ some (stepOf (Instr.run 2).position) := by decide +kernel

/-! ### Witnesses: framing -/

theorem witness_HeaderBeginsTheOperation :
    (decStarting 3 (encode (.header 1 399999999 4 1))).dec.action = some .start ∧
    (decStarting 3 (encode (.header 1 399999999 4 1))).dec.inLen.toNat = 14 ∧
    (decStarting 3 (encode (.header 1 399999999 4 1))).dec.reqch = 3 ∧
    (1 : U32) ≠ 0 ∧ (399999999 : U32) ≠ 0 ∧ (399999999 : U32).toNat < 400000000 / (1 : U32).toNat := by decide +kernel

/-- One start for each branch, in their order; each list entry is IN_LEN, REQCH and the header's four fields. -/
theorem witness_HeaderFailsWithTheFirstCheckThatApplies :
    ∀ x ∈ [(0, 9#8, 0#32, 0#32, 7#8, 7#8, some Cause.empty), (13, 5, 0, 0, 7, 7, some .reqChannels),
        (13, 4, 0, 0, 7, 7, some .truncated), (14, 3, 0, 1, 7, 7, some .zeroDim), (14, 3, 1, 0, 7, 7, some .zeroDim),
        (14, 0, 1, 1, 2, 7, some .channels), (14, 0, 20000, 20000, 3, 2, some .colorspace),
        (14, 0, 20000, 20000, 4, 1, some .tooManyPixels), (14, 0, 20000, 19999, 4, 1, none)],
      (decStarting x.2.1 (List.replicate x.1 0)).dec.action = some .start ∧
      (decStarting x.2.1 (List.replicate x.1 0)).dec.inLen.toNat = x.1 ∧
      (decStarting x.2.1 (List.replicate x.1 0)).dec.headerCheck x.2.2.1 x.2.2.2.1 x.2.2.2.2.1 x.2.2.2.2.2.1 =
        x.2.2.2.2.2.2 := by decide +kernel

theorem witness_AcceptedImagesFitThirtyTwoBits :
    descriptorCheck 1 399999999 4 0 = none ∧ descriptorCheck 200000000 1 3 1 = none ∧
    descriptorCheck 20000 19999 4 0 = none := by decide

/-- DEC after the last pixel, with the marker in place, and with a marker cut short by a byte. -/
theorem witness_EndMarkerFinishesTheOperation :
    (decAt 2 4 ⟨0, 0, 0, 255⟩ Pxc.clear 2 [0, 0, 0, 0, 0, 0, 0, 1]).dec.action = some .finish ∧
    (decAt 2 4 ⟨0, 0, 0, 255⟩ Pxc.clear 2 [0, 0, 0, 0, 0, 0, 0, 1]).dec.ipos.toNat + 8 =
      (decAt 2 4 ⟨0, 0, 0, 255⟩ Pxc.clear 2 [0, 0, 0, 0, 0, 0, 0, 1]).dec.inLen.toNat ∧
    (decAt 2 4 ⟨0, 0, 0, 255⟩ Pxc.clear 2 [0, 0, 0, 0, 0, 0, 0]).dec.action = some .finish ∧
    (decAt 2 4 ⟨0, 0, 0, 255⟩ Pxc.clear 2 [0, 0, 0, 0, 0, 0, 0]).dec.inLen.toNat + 1 =
      (decAt 2 4 ⟨0, 0, 0, 255⟩ Pxc.clear 2 [0, 0, 0, 0, 0, 0, 0]).dec.ipos.toNat + 8 := by decide +kernel

/-! ### Witnesses: steps of the block -/

/-- A state, a record and its bytes that meet every hypothesis of the obligation. -/
def placed (s : State) (i : Instr) (bs : List Byte) : Bool :=
  s.mover = some .dec && decide (decode i.position bs = .ok (i, [])) && s.dec.action = some (stepOf i.position) &&
  Memory.readBytes s.dec.strmIn (if i.position = .header then 0 else s.dec.ipos.toNat) bs.length = some bs &&
  (i.position ≠ .chunk || s.dec.ipos.toNat + bs.length ≤ s.dec.inLen.toNat) &&
  (i.position ≠ .endMarker || s.dec.ipos.toNat + 8 ≤ s.dec.inLen.toNat)

theorem witness_StepRunsTheDecodedRecord :
    placed (decStarting 0 (encode (.header 2 1 4 0))) (.header 2 1 4 0) (encode (.header 2 1 4 0)) = true ∧
    placed (decAt 2 4 ⟨0, 0, 0, 255⟩ Pxc.clear 0 [0xBF, 0xFF]) (.luma 31 7 7) [0xBF, 0xFF] = true ∧
    placed (decAt 2 4 ⟨0, 0, 0, 255⟩ Pxc.clear 2 Config.endMarker) .endMarker Config.endMarker = true := by
  decide +kernel

theorem witness_StreamsCutShortFailAsTruncated :
    ((decStarting 4 (List.replicate 13 0)).mover = some .dec ∧
      (decStarting 4 (List.replicate 13 0)).dec.action = some .start ∧
      (decStarting 4 (List.replicate 13 0)).dec.inLen.toNat = 13 ∧ (decStarting 4 (List.replicate 13 0)).dec.reqch = 4) ∧
    ((decAt 2 4 ⟨0, 0, 0, 255⟩ Pxc.clear 1 []).mover = some .dec ∧
      (decAt 2 4 ⟨0, 0, 0, 255⟩ Pxc.clear 1 []).dec.action = some .body ∧
      (decAt 2 4 ⟨0, 0, 0, 255⟩ Pxc.clear 1 []).dec.inLen.toNat = (decAt 2 4 ⟨0, 0, 0, 255⟩ Pxc.clear 1 []).dec.ipos.toNat) ∧
    ((decAt 2 4 ⟨0, 0, 0, 255⟩ Pxc.clear 1 [0xFF, 1, 2, 3]).mover = some .dec ∧
      (decAt 2 4 ⟨0, 0, 0, 255⟩ Pxc.clear 1 [0xFF, 1, 2, 3]).dec.action = some .body ∧
      Memory.read (decAt 2 4 ⟨0, 0, 0, 255⟩ Pxc.clear 1 [0xFF, 1, 2, 3]).dec.strmIn 14 = some 0xFF ∧
      (decAt 2 4 ⟨0, 0, 0, 255⟩ Pxc.clear 1 [0xFF, 1, 2, 3]).dec.ipos = 14 ∧
      (decAt 2 4 ⟨0, 0, 0, 255⟩ Pxc.clear 1 [0xFF, 1, 2, 3]).dec.inLen.toNat + 1 = 14 + chunkLength 0xFF) ∧
    ((decAt 2 4 ⟨0, 0, 0, 255⟩ Pxc.clear 2 (List.replicate 7 0)).mover = some .dec ∧
      (decAt 2 4 ⟨0, 0, 0, 255⟩ Pxc.clear 2 (List.replicate 7 0)).dec.action = some .finish ∧
      (decAt 2 4 ⟨0, 0, 0, 255⟩ Pxc.clear 2 (List.replicate 7 0)).dec.inLen.toNat + 1 =
        (decAt 2 4 ⟨0, 0, 0, 255⟩ Pxc.clear 2 (List.replicate 7 0)).dec.ipos.toNat + 8) := by decide +kernel

theorem witness_WrongMagicAndWrongMarkerFail :
    ((decStarting 0 [0x71, 0x6F, 0x69, 0x67, 0, 0, 0, 1, 0, 0, 0, 1, 4, 0]).mover = some .dec ∧
      (decStarting 0 [0x71, 0x6F, 0x69, 0x67, 0, 0, 0, 1, 0, 0, 0, 1, 4, 0]).dec.action = some .start ∧
      (decStarting 0 [0x71, 0x6F, 0x69, 0x67, 0, 0, 0, 1, 0, 0, 0, 1, 4, 0]).dec.inLen.toNat = 14 ∧
      Memory.readBytes (decStarting 0 [0x71, 0x6F, 0x69, 0x67, 0, 0, 0, 1, 0, 0, 0, 1, 4, 0]).dec.strmIn 0 14 =
        some [0x71, 0x6F, 0x69, 0x67, 0, 0, 0, 1, 0, 0, 0, 1, 4, 0] ∧
      [0x71, 0x6F, 0x69, 0x67, 0, 0, 0, 1, 0, 0, 0, 1, 4, 0].take 4 ≠ [0x71#8, 0x6F, 0x69, 0x66]) ∧
    ((decAt 2 4 ⟨0, 0, 0, 255⟩ Pxc.clear 2 (List.replicate 8 0)).mover = some .dec ∧
      (decAt 2 4 ⟨0, 0, 0, 255⟩ Pxc.clear 2 (List.replicate 8 0)).dec.action = some .finish ∧
      (decAt 2 4 ⟨0, 0, 0, 255⟩ Pxc.clear 2 (List.replicate 8 0)).dec.ipos.toNat + 8 =
        (decAt 2 4 ⟨0, 0, 0, 255⟩ Pxc.clear 2 (List.replicate 8 0)).dec.inLen.toNat ∧
      Memory.readBytes (decAt 2 4 ⟨0, 0, 0, 255⟩ Pxc.clear 2 (List.replicate 8 0)).dec.strmIn 14 8 =
        some (List.replicate 8 0) ∧
      List.replicate 8 0 ≠ [0#8, 0, 0, 0, 0, 0, 0, 1]) := by decide +kernel

/-- A quiet block that is not the reset state: DEC's last operation has failed. -/
theorem witness_QuietBlockKeepsItsState :
    State.reset.enc.status.phase ≠ .body ∧ State.reset.enc.ctrl = 0 ∧
    (Dec.fail State.reset.dec .badMagic).status.phase ≠ .body ∧ (Dec.fail State.reset.dec .badMagic).ctrl = 0 := by
  decide

/-- ENC in its pixel sequence beside DEC in its chunk sequence: both can step. -/
def bothBusy : State :=
  { (encAt 2 4 ⟨5, 5, 5, 255⟩ (Pxc.insert Pxc.clear ⟨5, 5, 5, 255⟩) 0 1 18 [5, 5, 5, 255, 6, 6, 6, 255]) with
    dec := (decAt 2 4 ⟨0, 0, 0, 255⟩ Pxc.clear 0 [0x79, 0x79]).dec }

theorem witness_StepsOfTheEnginesCommute :
    (∃ a, encStep bothBusy = .next a) ∧ (∃ b, decStep bothBusy = .next b) := by
  have h1 : answers (encStep bothBusy) (fun _ => true) = true := by decide +kernel
  have h2 : answers (decStep bothBusy) (fun _ => true) = true := by decide +kernel
  exact ⟨(exists_of_answers h1).imp fun _ h => h.1, (exists_of_answers h2).imp fun _ h => h.1⟩

theorem witness_PlacedTableWordRunsNext :
    decodeTableWord 8 0xFD = some (.run 62) ∧ decodeTableWord 40 0x80000001FF = some (.rgba 1 0 0 128) ∧
    decodeTableWord 64 0x0100000000000000 = some .endMarker ∧
    decodeTableWord 112 0x0004010000000200000066696F71 = some (.header 2 1 4 0) := by decide

/-! ### Witnesses: the encoder -/

theorem witness_EncodeStartWritesTheHeader :
    let e := (encStarting 2 1 4 1 1 [1, 2, 3, 4, 5, 6, 7, 8]).enc
    e.action = some .start ∧ e.pixLen ≠ 0 ∧ e.descValid = 1 ∧ e.width ≠ 0 ∧ e.height ≠ 0 ∧ e.channels = 4 ∧
    e.colorspace = 1 ∧ e.height.toNat < 400000000 / e.width.toNat ∧
    e.pixLen.toNat = e.width.toNat * e.height.toNat * e.channels.toNat := by decide +kernel

/-- One start for each branch, in their order: V-Y1 to V-Y8, and one that succeeds. -/
theorem witness_EncodeStartFailsWithTheFirstCheckThatApplies :
    ∀ x ∈ [(encStarting 0 0 9 9 0 [], some Cause.empty), (encStarting 0 0 9 9 0 [1], some .noDescriptor),
        (encStarting 0 1 9 9 1 [1], some .zeroDim), (encStarting 1 0 9 9 1 [1], some .zeroDim),
        (encStarting 1 1 2 9 1 [1], some .channels), (encStarting 20000 20000 4 7 1 [1], some .colorspace),
        (encStarting 20000 20000 4 0 1 [1], some .tooManyPixels), (encStarting 1 1 3 0 1 [1, 2, 3, 4], some .pixbufSize),
        (encStarting 1 1 3 0 1 [1, 2, 3], none)],
      x.1.enc.action = some .start ∧ x.1.enc.startCheck = x.2 := by decide +kernel

theorem witness_PixelStepFetchesThePixel :
    (let e := (encAt 2 4 ⟨5, 5, 5, 255⟩ Pxc.clear 0 1 20 [5, 5, 5, 255, 6, 7, 8, 9]).enc
     e.action = some .body ∧ e.channels = 4 ∧ Memory.readBytes e.pixIn (4 * e.pxpos.toNat) 4 = some [6, 7, 8, 9]) ∧
    (let e := (encAt 2 3 ⟨5, 5, 5, 255⟩ Pxc.clear 0 1 20 [5, 5, 5, 6, 7, 8]).enc
     e.action = some .body ∧ e.channels ≠ 4 ∧ Memory.readBytes e.pixIn (3 * e.pxpos.toNat) 3 = some [6, 7, 8] ∧
     (255 : Byte) = e.prev.a) := by decide +kernel

/-- A run that reaches 62, one cut by the last pixel, and one that grows. -/
theorem witness_EqualPixelGrowsOrFlushesTheRun :
    (encAt 80 4 ⟨0, 0, 0, 255⟩ Pxc.clear 61 61 14 []).enc.run.toNat + 1 = 62 ∧
    (encAt 80 4 ⟨0, 0, 0, 255⟩ Pxc.clear 3 79 14 []).enc.pxpos.toNat + 1 =
      (encAt 80 4 ⟨0, 0, 0, 255⟩ Pxc.clear 3 79 14 []).enc.width.toNat *
        (encAt 80 4 ⟨0, 0, 0, 255⟩ Pxc.clear 3 79 14 []).enc.height.toNat ∧
    ¬((encAt 80 4 ⟨0, 0, 0, 255⟩ Pxc.clear 60 60 14 []).enc.run.toNat + 1 = 62 ∨
      (encAt 80 4 ⟨0, 0, 0, 255⟩ Pxc.clear 60 60 14 []).enc.pxpos.toNat + 1 =
        (encAt 80 4 ⟨0, 0, 0, 255⟩ Pxc.clear 60 60 14 []).enc.width.toNat *
          (encAt 80 4 ⟨0, 0, 0, 255⟩ Pxc.clear 60 60 14 []).enc.height.toNat) := by decide +kernel

/-- A hit with a run pending (V-E27) and a miss. -/
theorem witness_UnequalPixelFlushesAndEmitsItsChunk :
    let e := (encAt 2 4 ⟨5, 5, 5, 255⟩ (Pxc.insert Pxc.clear ⟨6, 6, 6, 255⟩) 1 1 20 [5, 5, 5, 255, 6, 6, 6, 255]).enc
    (⟨6, 6, 6, 255⟩ : Pixel) ≠ e.prev ∧ 0 < e.run.toNat ∧ e.opos.toNat < 2000000022 ∧ Pxc.read e.idx (Pixel.hash ⟨6, 6, 6, 255⟩) = ⟨6, 6, 6, 255⟩ ∧
    (⟨7, 7, 7, 255⟩ : Pixel) ≠ e.prev ∧ (0 : Slot) ≠ Pixel.hash ⟨7, 7, 7, 255⟩ := by decide +kernel

/-- The deltas of V-E12, at the upper edges of LUMA, V-E4 at the edges of DIFF, and the branches' conditions. -/
theorem witness_SelectorFollowsThePriorityTable :
    ((0 : Byte).toNat + (38 : Int)) % 256 = (38 : Byte).toNat ∧ ((0 : Byte).toNat + (31 : Int)) % 256 = (31 : Byte).toNat ∧
    ((0 : Byte).toNat + (23 : Int)) % 256 = (23 : Byte).toNat ∧
    ((0 : Byte).toNat + (-2 : Int)) % 256 = (254 : Byte).toNat ∧ ((0 : Byte).toNat + (1 : Int)) % 256 = (1 : Byte).toNat ∧
    ((0 : Byte).toNat + (-128 : Int)) % 256 = (128 : Byte).toNat ∧
    Pxc.read Pxc.clear (Pixel.hash ⟨0, 0, 0, 0⟩) = ⟨0, 0, 0, 0⟩ ∧
    Pxc.read Pxc.clear (Pixel.hash ⟨0, 0, 0, 254⟩) ≠ ⟨0, 0, 0, 254⟩ ∧
    Pxc.read Pxc.clear (Pixel.hash ⟨38, 31, 23, 255⟩) ≠ ⟨38, 31, 23, 255⟩ ∧
    Pxc.read Pxc.clear (Pixel.hash ⟨254, 1, 254, 255⟩) ≠ ⟨254, 1, 254, 255⟩ ∧
    Pxc.read Pxc.clear (Pixel.hash ⟨128, 0, 0, 255⟩) ≠ ⟨128, 0, 0, 255⟩ := by decide +kernel

theorem witness_AdjacentIndexChunksDiffer :
    let e := (encAt 4 4 ⟨5, 5, 5, 255⟩ (Pxc.insert Pxc.clear ⟨6, 6, 6, 255⟩) 0 1 20 []).enc
    (⟨6, 6, 6, 255⟩ : Pixel) ≠ e.prev ∧ (⟨5, 5, 5, 255⟩ : Pixel) ≠ ⟨6, 6, 6, 255⟩ ∧
    chunkFor e.idx e.prev ⟨6, 6, 6, 255⟩ = .index 15 := by decide +kernel

theorem witness_ThreeChannelInputNeverChangesAlpha :
    let e := (encAt 2 3 ⟨5, 5, 5, 255⟩ Pxc.clear 0 1 20 [5, 5, 5, 6, 7, 8]).enc
    e.channels = 3 ∧ e.fetch = some ⟨6, 7, 8, 255⟩ := by decide +kernel

/-! ### Witnesses: states that meet the invariant -/

/-- ENC after three pixels of five, the last two of them a pending run. -/
def encRunning : State :=
  encAt 5 3 ⟨6, 7, 8, 255⟩ (Pxc.insert Pxc.clear ⟨6, 7, 8, 255⟩) 2 3 18 [6, 7, 8, 6, 7, 8, 6, 7, 8, 6, 7, 8, 9, 9, 9]

/-- ENC after its last pixel. -/
def encEnding : State := encAt 1 4 ⟨1, 2, 3, 4⟩ (Pxc.insert Pxc.clear ⟨1, 2, 3, 4⟩) 0 1 19 [1, 2, 3, 4]

/-- DEC in the middle of an image. -/
def decRunning : State := decAt 3 4 ⟨9, 9, 9, 255⟩ (Pxc.insert Pxc.clear ⟨9, 9, 9, 255⟩) 1 [0xC1]

theorem coherent_insert {c : Pxc} (h : c.Coherent) (p : Pixel) : (Pxc.insert c p).Coherent := by
  intro s
  rw [Pxc.read_insert]
  split
  · rename_i hs; exact .inr hs
  · exact h s

theorem coherent_clear : Pxc.clear.Coherent := fun s => .inl (Pxc.read_clear s)

theorem status_coherent_of_ok {t : Status} (h : t.phase ≠ .failed) (he : t.err = none) (hc : t.eclass = .none) :
    t.Coherent := ⟨fun hf => absurd hf h, fun _ => ⟨he, hc⟩⟩

/-- The invariant of ENC in BODY from facts about one state. -/
theorem enc_inv_of {e : Enc} (hs : e.status = Status.running) (h1 : e.pixIn.wf) (h2 : e.strmOut.wf)
    (h3 : e.run.toNat ≤ 61 ∧ e.pxpos.toNat < 400000000 ∧ e.opos.toNat < 2000000022) (hb : e.BodyInv) : e.Inv where
  status := by rw [hs]; exact status_coherent_of_ok (by decide) rfl rfl
  causes := by rw [hs]; intro c h; cases h
  pixIn := h1
  strmOut := h2
  run_le := h3.1
  pxpos_lt := h3.2.1
  opos_lt := h3.2.2
  body := fun _ => hb

/-- The invariant of an engine at rest. -/
theorem enc_inv_of_idle {e : Enc} (hs : e.status = Status.reset) (h1 : e.pixIn.wf) (h2 : e.strmOut.wf)
    (h3 : e.run.toNat ≤ 61 ∧ e.pxpos.toNat < 400000000 ∧ e.opos.toNat < 2000000022) : e.Inv where
  status := by rw [hs]; exact status_coherent_of_ok (by decide) rfl rfl
  causes := by rw [hs]; intro c h; cases h
  pixIn := h1
  strmOut := h2
  run_le := h3.1
  pxpos_lt := h3.2.1
  opos_lt := h3.2.2
  body := by rw [hs]; intro h; cases h

theorem dec_inv_of_idle {d : Dec} (hs : d.status = Status.reset) (h1 : d.strmIn.wf) (h2 : d.pixOut.wf)
    (h3 : d.pxpos.toNat < 400000000 ∧ d.opos.toNat < 1600000000) : d.Inv where
  status := by rw [hs]; exact status_coherent_of_ok (by decide) rfl rfl
  causes := by rw [hs]; intro c h; cases h
  strmIn := h1
  pixOut := h2
  pxpos_lt := h3.1
  opos_lt := h3.2
  body := by rw [hs]; intro h; cases h
  done := by rw [hs]; intro h; cases h

theorem encRunning_inv : encRunning.Inv where
  enc := enc_inv_of rfl (by decide +kernel) (by decide +kernel) (by decide +kernel)
    { noStart := by decide +kernel
      accepted := by decide +kernel
      pxpos_le := by decide +kernel
      run_le_pxpos := by decide +kernel
      flushed := by decide +kernel
      runPixels := by
        intro j hj
        have hj' : j < 2 := hj
        have : j = 0 ∨ j = 1 := by omega
        rcases this with rfl | rfl <;> (unfold Enc.HasPixel; decide +kernel)
      cached := .inr (by decide +kernel)
      alpha := by decide +kernel
      header_le := by decide +kernel
      emitted := by decide +kernel
      opos_le := by decide +kernel
      coherent := coherent_insert coherent_clear _ }
  dec := dec_inv_of_idle rfl (by decide +kernel) (by decide +kernel) (by decide +kernel)

theorem encEnding_inv : encEnding.Inv where
  enc := enc_inv_of rfl (by decide +kernel) (by decide +kernel) (by decide +kernel)
    { noStart := by decide +kernel
      accepted := by decide +kernel
      pxpos_le := by decide +kernel
      run_le_pxpos := by decide +kernel
      flushed := by decide +kernel
      runPixels := fun j hj => absurd (show j < 0 from hj) (Nat.not_lt_zero j)
      cached := .inr (by decide +kernel)
      alpha := by decide +kernel
      header_le := by decide +kernel
      emitted := by decide +kernel
      opos_le := by decide +kernel
      coherent := coherent_insert coherent_clear _ }
  dec := dec_inv_of_idle rfl (by decide +kernel) (by decide +kernel) (by decide +kernel)

/-- The invariant of a state `decAt` builds, from facts about that state. -/
theorem decAt_inv {w : U32} {c : Byte} {prev : Pixel} {idx : Pxc} {pxpos : Nat} {bs : List Byte}
    (h : let d := (decAt w c prev idx pxpos bs).dec
      d.strmIn.wf ∧ d.pxpos.toNat < 400000000 ∧ d.opos.toNat < 1600000000 ∧ d.requestCheck = none ∧
      descriptorCheck d.width d.height d.channels d.colorspace = none ∧
      d.recordAt .header 0 Config.headerSize = .record (.header d.width d.height d.channels d.colorspace) ∧
      14 ≤ d.ipos.toNat ∧ d.ipos.toNat ≤ d.inLen.toNat ∧ d.pxpos.toNat ≤ d.pixels ∧
      d.opos.toNat = d.pxpos.toNat * d.och.toNat) (hi : idx.Coherent) : (decAt w c prev idx pxpos bs).dec.Inv := by
  obtain ⟨h1, h2, h3, h4, h5, h6, h7, h8, h9, h10⟩ := h
  exact
    { status := status_coherent_of_ok (fun h => by cases h) rfl rfl
      causes := fun c h => by cases h
      strmIn := h1
      pixOut := .nil
      pxpos_lt := h2
      opos_lt := h3
      body := fun _ =>
        { noStart := rfl
          request := h4
          descriptor := h5
          headerSeen := h6
          och := rfl
          ipos_ge := h7
          ipos_le := h8
          pxpos_le := h9
          opos := h10
          coherent := hi }
      done := fun h => by cases h }

theorem decRunning_inv : decRunning.Inv where
  enc := enc_inv_of_idle rfl (by decide +kernel) (by decide +kernel) (by decide +kernel)
  dec := decAt_inv (by decide +kernel) (coherent_insert coherent_clear _)

/-- RUN: the last byte of the stream, and a stream that has ended; 4 and 3 output channels. -/
theorem witness_RunExecutes : ∃ s s' : State,
    s.dec.Inv ∧ s.dec.action = some .body ∧ s.dec.och = 4 ∧ s.dec.ipos.toNat + 1 = s.dec.inLen.toNat ∧
    s'.dec.Inv ∧ s'.dec.action = some .body ∧ s'.dec.och = 3 ∧ s'.dec.inLen.toNat + 1 = s'.dec.ipos.toNat + 1 :=
  ⟨decRunning, decAt 2 3 ⟨1, 2, 3, 4⟩ Pxc.clear 0 [], decRunning_inv.dec, by decide +kernel, by decide +kernel,
    by decide +kernel, decAt_inv (by decide +kernel) coherent_clear, by decide +kernel, by decide +kernel,
    by decide +kernel⟩

theorem witness_BusyEngineHasExactlyOneStep :
    encRunning.Inv ∧ encRunning.enc.status.phase = .body ∧ encRunning.enc.pxpos.toNat < encRunning.enc.pixels ∧
    encEnding.Inv ∧ encEnding.enc.status.phase = .body ∧ encEnding.enc.pxpos.toNat = encEnding.enc.pixels ∧
    decRunning.Inv ∧ decRunning.dec.status.phase = .body :=
  ⟨encRunning_inv, rfl, by decide +kernel, encEnding_inv, rfl, by decide +kernel, decRunning_inv, rfl⟩

/-- Every offset below the length of a placed sequence holds a byte. -/
theorem holds_of_readBytes {m : Memory} {n : Nat} {bs : List Byte} (h : Memory.readBytes m 0 n = some bs) :
    m.Holds n := by
  intro a ha
  obtain ⟨hl, hr⟩ := (Memory.readBytes_eq_some_iff ..).1 h
  have := hr a ha
  rw [Nat.zero_add] at this
  exact ⟨bs[a]'(by omega), by rw [this, List.getElem?_eq_getElem]⟩

theorem witness_PixelStepNeverFails :
    encRunning.Inv ∧ encRunning.enc.action = some .body ∧ encRunning.enc.pixIn.Holds encRunning.enc.pixLen.toNat :=
  ⟨encRunning_inv, by decide +kernel,
    holds_of_readBytes (bs := [6, 7, 8, 6, 7, 8, 6, 7, 8, 6, 7, 8, 9, 9, 9]) (by decide +kernel)⟩

theorem witness_EncodeEndWritesTheMarker : encEnding.Inv ∧ encEnding.enc.action = some .finish :=
  ⟨encEnding_inv, by decide +kernel⟩

/-! ### Witnesses: the host, runs and whole operations -/

/-- Both engines DONE, with results. -/
def bothDone : State :=
  { State.reset with
    enc := { Enc.reset with status := Status.finished, byteCount := 2, strmOut := spaceOf [0x71, 0x6F] }
    dec := { Dec.reset with status := Status.finished, outLen := 2, pixOut := spaceOf [8, 9] } }

theorem witness_ResultsReadBackWhenDone :
    (encStarting 1 1 3 0 1 [1, 2, 3]).enc.ctrl = 1 ∧ (decStarting 0 [1]).dec.ctrl = 1 ∧
    bothDone.dec.status.phase = .done ∧ bothDone.dec.ctrl = 0 ∧ (1 : U32).toNat < bothDone.dec.outLen.toNat ∧
    Memory.read bothDone.dec.pixOut (1 : U32).toNat = some 9 ∧
    bothDone.enc.status.phase = .done ∧ bothDone.enc.ctrl = 0 ∧ (1 : U32).toNat < bothDone.enc.byteCount.toNat ∧
    Memory.read bothDone.enc.strmOut (1 : U32).toNat = some 0x6F := by decide

/-- A quiet engine for each write, at the edges of the offsets, and a busy one for START, a register and a byte. -/
theorem witness_HostWritesWaitForAQuietEngine :
    (∀ w ∈ [HostWrite.encCtrl 1, .encCtrl 0, .encWidth 7, .encHeight 7, .encChannels 7, .encColorspace 7, .encDescValid 1,
        .encPixLen 7, .encPixIn 0 7, .encPixIn 0xFFFFFFFF 7, .decCtrl 1, .decReqch 7, .decInLen 7, .decStrmIn 0 7,
        .decStrmIn 0xFFFFFFFF 7], State.reset.busy w.engine = false) ∧
    (∀ w ∈ [HostWrite.decCtrl 1, .decReqch 3, .decStrmIn 0 7], decRunning.busy w.engine = true) ∧
    decRunning.busy (HostWrite.encWidth 3).engine = false ∧
    (encStarting 1 1 3 0 1 [1, 2, 3]).busy (HostWrite.encPixLen 3).engine = true := by decide +kernel

/-- A host write reaches its own register and no other (R34). -/
theorem test_host_write : answers (hostWrite (.encHeight 9) State.reset) (fun t =>
    t = { State.reset with enc := { Enc.reset with height := 9 } }) = true := by decide +kernel

theorem witness_EveryStepKeepsTheInvariant :
    (∃ t, encRunning.Inv ∧ step encRunning = .next t) ∧ (∃ t, encEnding.Inv ∧ step encEnding = .next t) ∧
    (∃ t, decRunning.Inv ∧ step decRunning = .next t) := by
  have h1 : answers (step encRunning) (fun _ => true) = true := by decide +kernel
  have h2 : answers (step encEnding) (fun _ => true) = true := by decide +kernel
  have h3 : answers (step decRunning) (fun _ => true) = true := by decide +kernel
  exact ⟨(exists_of_answers h1).imp fun _ h => ⟨encRunning_inv, h.1⟩,
    (exists_of_answers h2).imp fun _ h => ⟨encEnding_inv, h.1⟩, (exists_of_answers h3).imp fun _ h => ⟨decRunning_inv, h.1⟩⟩

theorem witness_CursorsOnlyRise :
    (∃ t, encRunning.Inv ∧ step encRunning = .next t ∧ encRunning.enc.status.phase = .body) ∧
    (∃ t, encEnding.Inv ∧ step encEnding = .next t ∧ encEnding.enc.status.phase = .body) ∧
    (∃ t, decRunning.Inv ∧ step decRunning = .next t ∧ decRunning.dec.status.phase = .body) := by
  obtain ⟨⟨t, h1⟩, ⟨u, h2⟩, ⟨v, h3⟩⟩ := witness_EveryStepKeepsTheInvariant
  exact ⟨⟨t, h1.1, h1.2, rfl⟩, ⟨u, h2.1, h2.2, rfl⟩, ⟨v, h3.1, h3.2, rfl⟩⟩

theorem witness_HostMovesKeepTheInvariant :
    decRunning.Inv ∧ ∃ t, hostWrite (.encPixIn 7 9) decRunning = .next t := by
  have h : answers (hostWrite (.encPixIn 7 9) decRunning) (fun _ => true) = true := by decide +kernel
  exact ⟨decRunning_inv, (exists_of_answers h).imp fun _ h => h.1⟩

/-- States a run reaches: both engines still IDLE; ENC failed; DEC failed. -/
theorem witness_ReachedStatesReportOnlyTheirCauses :
    (∃ s, Reachable s ∧ s.enc.status.phase ≠ .failed ∧ s.dec.status.phase ≠ .failed) ∧
    (∃ s, Reachable s ∧ s.enc.status.phase = .failed) ∧ (∃ s, Reachable s ∧ s.dec.status.phase = .failed) := by
  refine ⟨⟨_, .reset, by decide, by decide⟩, ?_, ?_⟩
  · have h : answers (hostWrite (.encCtrl 1) State.reset) (fun s => answers (step s) fun t =>
        t.enc.status.phase = .failed) = true := by decide +kernel
    obtain ⟨s, hs, h⟩ := exists_of_answers h
    obtain ⟨t, ht, h⟩ := exists_of_answers h
    exact ⟨t, .step (.write _ .reset hs) ht, of_decide_eq_true h⟩
  · have h : answers (hostWrite (.decCtrl 1) State.reset) (fun s => answers (step s) fun t =>
        t.dec.status.phase = .failed) = true := by decide +kernel
    obtain ⟨s, hs, h⟩ := exists_of_answers h
    obtain ⟨t, ht, h⟩ := exists_of_answers h
    exact ⟨t, .step (.write _ .reset hs) ht, of_decide_eq_true h⟩

theorem witness_EveryDecodeOperationEnds :
    (decStarting 0 [0x71, 0x6F]).enc.action = none ∧ (decStarting 0 [0x71, 0x6F]).dec.action = some .start ∧
    (decStarting 0 [0x71, 0x6F]).dec.strmIn.Holds (decStarting 0 [0x71, 0x6F]).dec.inLen.toNat :=
  ⟨by decide, by decide, holds_of_readBytes (bs := [0x71, 0x6F]) (by decide)⟩

/-- Two states that differ in STATUS, PREV, the cache and PIX_OUT; the operation decodes V-1x1-b and ends DONE. -/
theorem witness_DecodingForgetsTheState :
    let s := decStarting 0 (encode (.header 1 1 3 0) ++ [0xA7, 0x88] ++ Config.endMarker)
    let s' : State := { s with
      dec := { s.dec with status := Status.finished, prev := ⟨1, 2, 3, 4⟩, idx := Pxc.insert Pxc.clear ⟨1, 2, 3, 4⟩, pixOut := [(0, 7)] } }
    (s.enc.action = none ∧ s'.enc.action = none ∧ s.dec.action = some .start ∧ s'.dec.action = some .start ∧
      s'.dec.strmIn = s.dec.strmIn ∧ s'.dec.inLen = s.dec.inLen ∧ s'.dec.reqch = s.dec.reqch) ∧
    ∃ t, runs 3 s t ∧ t.dec.status.ended ∧ t.dec.status.phase = .done := by
  intro s s'
  refine ⟨⟨by decide, by decide, by decide, by decide, rfl, rfl, rfl⟩, ?_⟩
  have h : answers (Host.Core.run Sys2Proof.core 3 s) (fun t => t.dec.status.phase = .done) = true := by decide +kernel
  obtain ⟨t, ht, hp⟩ := exists_of_answers h
  exact ⟨t, ht, .inl (of_decide_eq_true hp), of_decide_eq_true hp⟩

theorem witness_EveryEncodeOperationEnds :
    ((encStarting 1 1 4 0 1 [1, 2, 3]).dec.action = none ∧ (encStarting 1 1 4 0 1 [1, 2, 3]).enc.action = some .start ∧
      (encStarting 1 1 4 0 1 [1, 2, 3]).enc.pixIn.Holds (encStarting 1 1 4 0 1 [1, 2, 3]).enc.pixLen.toNat ∧
      (encStarting 1 1 4 0 1 [1, 2, 3]).enc.startCheck ≠ none) ∧
    ((encStarting 1 1 3 0 1 [1, 2, 3]).dec.action = none ∧ (encStarting 1 1 3 0 1 [1, 2, 3]).enc.action = some .start ∧
      (encStarting 1 1 3 0 1 [1, 2, 3]).enc.pixIn.Holds (encStarting 1 1 3 0 1 [1, 2, 3]).enc.pixLen.toNat ∧
      (encStarting 1 1 3 0 1 [1, 2, 3]).enc.startCheck = none) :=
  ⟨⟨by decide, by decide, holds_of_readBytes (bs := [1, 2, 3]) (by decide), by decide⟩,
    ⟨by decide, by decide, holds_of_readBytes (bs := [1, 2, 3]) (by decide), by decide⟩⟩

/-- ENC and DEC in lockstep with the one difference R130 allows: DEC has executed a RUN of the initial PREV. -/
def inLockstep : State :=
  { (encAt 4 4 ⟨0, 0, 0, 255⟩ Pxc.clear 0 1 15 [0, 0, 0, 255]) with
    dec := (decAt 4 4 ⟨0, 0, 0, 255⟩ (Pxc.insert Pxc.clear ⟨0, 0, 0, 255⟩) 1 [0x7F]).dec }

theorem inLockstep_lockstep : Lockstep inLockstep.enc inLockstep.dec where
  prev := rfl
  cache := by
    intro s
    have he : Pxc.read inLockstep.enc.idx s = Pixel.zero := Pxc.read_clear s
    have hd : Pxc.read inLockstep.dec.idx s = if Pixel.hash ⟨0, 0, 0, 255⟩ = s then ⟨0, 0, 0, 255⟩ else Pixel.zero := by
      rw [← Pxc.read_clear s]
      exact Pxc.read_insert ..
    rw [he, hd]
    split
    · rename_i h
      exact .inr ⟨by rw [← h]; decide, rfl, rfl⟩
    · exact .inl rfl
  own := .inl ⟨rfl, rfl⟩

theorem witness_EachChunkKeepsTheEnginesInLockstep :
    (Lockstep inLockstep.enc inLockstep.dec ∧ (⟨1, 1, 1, 255⟩ : Pixel) ≠ inLockstep.enc.prev ∧
      inLockstep.dec.action = some .body ∧
      inLockstep.dec.ipos.toNat + (chunkFor inLockstep.enc.idx inLockstep.enc.prev ⟨1, 1, 1, 255⟩).length =
        inLockstep.dec.inLen.toNat) ∧
    (inLockstep.dec.ipos.toNat + 1 = inLockstep.dec.inLen.toNat ∧ 1 ≤ 3 ∧ 3 = inLockstep.dec.pixels - inLockstep.dec.pxpos.toNat) :=
  ⟨⟨inLockstep_lockstep, by decide +kernel, by decide +kernel, by decide +kernel⟩, by decide +kernel⟩

/-- V-1x1-b: the operation that encodes one grey pixel, and one that is about to decode what it wrote. -/
theorem witness_DecodingAnEncodedImageGivesItBack :
    let s := encStarting 1 1 3 0 1 [7, 7, 7]
    (s.dec.action = none ∧ s.enc.action = some .start ∧ s.enc.startCheck = none ∧
      s.enc.pixIn.Holds s.enc.pixLen.toNat) ∧
    ∃ s', runs (s.enc.width.toNat * s.enc.height.toNat + 2) s s' ∧ s'.enc.status.phase = .done ∧
      ∃ t : State, t.enc.action = none ∧ t.dec.action = some .start ∧ t.dec.inLen = s'.enc.byteCount ∧
        (∀ a, a < s'.enc.byteCount.toNat → Memory.read t.dec.strmIn a = Memory.read s'.enc.strmOut a) ∧
        (t.dec.reqch = 0 ∨ t.dec.reqch = s.enc.channels) := by
  intro s
  refine ⟨⟨by decide, by decide, by decide, holds_of_readBytes (bs := [7, 7, 7]) (by decide)⟩, ?_⟩
  have h : answers (Host.Core.run Sys2Proof.core 3 s) (fun t => t.enc.status.phase = .done) = true := by decide +kernel
  obtain ⟨s', hs, hd⟩ := exists_of_answers h
  refine ⟨s', hs, of_decide_eq_true hd, ?_⟩
  refine ⟨{ State.reset with
      dec := { Dec.reset with ctrl := 1, inLen := s'.enc.byteCount, strmIn := s'.enc.strmOut } }, ?_⟩
  exact ⟨(by decide : State.reset.enc.action = none), rfl, rfl, fun _ _ => rfl, .inl rfl⟩

end Sys2Proof.Machine
end

/-! ### O10: the packed scalar (00_scope.md R13) -/

namespace Sys2Proof.Machine

/-- The four bytes are the digits of the scalar in base 256: the packing never wraps. -/
theorem Pixel.toNat_scalar (p : Pixel) :
    p.scalar.toNat = p.r.toNat * 2 ^ 24 + p.g.toNat * 2 ^ 16 + p.b.toNat * 2 ^ 8 + p.a.toNat := by
  rw [Pixel.scalar, BitVec.toNat_ofNat, Nat.mod_eq_of_lt (by omega)]

theorem Pixel.scalar_injective : Function.Injective Pixel.scalar := by
  rintro ⟨r, g, b, a⟩ ⟨r', g', b', a'⟩ h
  have hn := congrArg BitVec.toNat h
  simp only [Pixel.toNat_scalar] at hn
  rw [Pixel.mk.injEq]
  refine ⟨?_, ?_, ?_, ?_⟩ <;> apply BitVec.eq_of_toNat_eq <;> omega

end Sys2Proof.Machine

/-- Settles O10: the packing is injective. -/
theorem scalarEqualityIsPixelEquality : Obligations.ScalarEqualityIsPixelEquality :=
  fun _ _ => Sys2Proof.Machine.Pixel.scalar_injective.eq_iff

/-! ### O57: the cursors of a running operation (10_state.md R30 to R32) -/

namespace Sys2Proof.Machine

/-- From `d` to `d'` DEC's cursors move only up, and stay within IN_LEN, N and N * OCH of the running operation. -/
structure Dec.CursorsRise (d d' : Dec) : Prop where
  ipos_ge : d.ipos.toNat ≤ d'.ipos.toNat
  ipos_le : d'.ipos.toNat ≤ d.inLen.toNat
  pxpos_ge : d.pxpos.toNat ≤ d'.pxpos.toNat
  pxpos_le : d'.pxpos.toNat ≤ d.pixels
  opos_ge : d.opos.toNat ≤ d'.opos.toNat
  opos_le : d'.opos.toNat ≤ d.pixels * d.och.toNat

/-- From `e` to `e'` ENC's cursors move only up, and stay within N and the output bound of R69. -/
structure Enc.CursorsRise (e e' : Enc) : Prop where
  pxpos_ge : e.pxpos.toNat ≤ e'.pxpos.toNat
  pxpos_le : e'.pxpos.toNat ≤ e.pixels
  opos_ge : e.opos.toNat ≤ e'.opos.toNat
  opos_le : e'.opos.toNat ≤ e.pixels * (e.channels.toNat + 1) + 22

/-! #### DEC -/

namespace Dec.BodyInv

theorem och_legal {d : Dec} (h : d.BodyInv) : d.och = 3 ∨ d.och = 4 := by
  obtain ⟨-, -, hc, -, -⟩ := descriptorCheck_eq_none.1 h.descriptor
  rw [h.och]
  exact outputChannels_legal hc (Dec.requestCheck_eq_none.1 h.request).1

theorem pixels_le {d : Dec} (h : d.BodyInv) : d.pixels ≤ 399999999 := (pixelCount_bound h.descriptor).2

/-- The whole output fits 32 bits (R224). -/
theorem pixOut_fits {d : Dec} (h : d.BodyInv) : d.pixels * d.och.toNat < 2 ^ 32 := by
  have ho : d.och.toNat ≤ 4 := by rcases h.och_legal with ho | ho <;> rw [ho] <;> decide
  have := Nat.mul_le_mul h.pixels_le ho
  omega

/-- A step that leaves the cursors alone. -/
theorem cursorsRise_of_eq {d d' : Dec} (h : d.BodyInv) (hi : d'.ipos = d.ipos) (hp : d'.pxpos = d.pxpos)
    (ho : d'.opos = d.opos) : d.CursorsRise d' where
  ipos_ge := by rw [hi]
  ipos_le := by rw [hi]; exact h.ipos_le
  pxpos_ge := by rw [hp]
  pxpos_le := by rw [hp]; exact h.pxpos_le
  opos_ge := by rw [ho]
  opos_le := by rw [ho, h.opos]; exact Nat.mul_le_mul_right _ h.pxpos_le

/-- The writes of a chunk that fits the stream, clipped to the pixels still missing. -/
theorem cursorsRise_retire {s : State} (h : s.dec.BodyInv) {len k : Nat} (cur : Pixel) (ins : Bool)
    (fits : s.dec.ipos.toNat + len ≤ s.dec.inLen.toNat) (clipped : s.dec.pxpos.toNat + k ≤ s.dec.pixels) :
    s.dec.CursorsRise (s.dec.retire len cur k ins) := by
  have hout : s.dec.opos.toNat + k * s.dec.och.toNat ≤ s.dec.pixels * s.dec.och.toNat := by
    rw [h.opos, ← Nat.add_mul]
    exact Nat.mul_le_mul_right _ clipped
  have hfit := h.pixOut_fits
  have hn := h.pixels_le
  have hk : (k - 1) * s.dec.och.toNat ≤ k * s.dec.och.toNat := Nat.mul_le_mul_right _ (Nat.sub_le k 1)
  have he := Dec.retire_effect s len cur k ins h.och_legal (by omega)
  have hi : (s.dec.retire len cur k ins).ipos.toNat = s.dec.ipos.toNat + len :=
    (congrArg _ he.ipos).trans (toNat_cursorAdd (by omega))
  have hp : (s.dec.retire len cur k ins).pxpos.toNat = s.dec.pxpos.toNat + k :=
    (congrArg _ he.pxpos).trans (toNat_cursorAdd (by omega))
  have ho : (s.dec.retire len cur k ins).opos.toNat = s.dec.opos.toNat + k * s.dec.och.toNat :=
    (congrArg _ he.opos).trans (toNat_cursorAdd (by omega))
  constructor <;> omega

/-- The end step moves IPOS past the marker and nothing else. -/
theorem cursorsRise_finish {d : Dec} (h : d.BodyInv) (fits : d.ipos.toNat + 8 ≤ d.inLen.toNat) :
    d.CursorsRise (d.finish 8) := by
  have hi : (d.finish 8).ipos.toNat = d.ipos.toNat + 8 := by rw [Dec.finish_ipos, toNat_cursorAdd (by omega)]
  have hsame := h.cursorsRise_of_eq rfl rfl rfl
  exact { hsame with ipos_ge := by omega, ipos_le := by omega }

end Dec.BodyInv

/-- Executing a record while DEC is in BODY; HEADER is not enabled there (R45). -/
theorem ExecOutcome.cursorsRise {i : Instr} {s : State} {d : Dec} (did : ExecOutcome i s.dec d)
    (hb : s.dec.status.phase = .body) (h : s.dec.BodyInv) : s.dec.CursorsRise d := by
  cases did with
  | chunk cur k ins _ _ fits clipped _ eq =>
    subst eq
    exact h.cursorsRise_retire cur ins fits clipped
  | begun _ _ _ _ _ enabled => exact absurd hb (enabledAction_eq_start.1 enabled).1
  | finished _ _ fits eq =>
    subst eq
    exact h.cursorsRise_finish fits
  | failed _ _ _ eq =>
    subst eq
    exact h.cursorsRise_of_eq rfl rfl rfl

/-! #### ENC -/

/-- A chunk is at most 5 bytes long (R90). -/
theorem length_le_of_position_chunk {i : Instr} (h : i.position = .chunk) : i.length ≤ 5 := by
  cases i with
  | header | endMarker => cases h
  | rgb | rgba | index | diff | luma | run => simp [Instr.length]

theorem explicitChunk_position (prev cur : Pixel) : (explicitChunk prev cur).position = .chunk := by
  unfold explicitChunk
  extract_lets dr dg db
  repeat' split
  all_goals rfl

theorem chunkFor_position (idx : Pxc) (prev cur : Pixel) : (chunkFor idx prev cur).position = .chunk := by
  unfold chunkFor
  split
  · rfl
  · exact explicitChunk_position prev cur

@[simp] theorem Enc.samePath_pxpos (e : Enc) : e.samePath.pxpos = e.pxpos := by
  unfold Enc.samePath
  extract_lets grown
  split <;> rfl

@[simp] theorem Enc.flushPending_pxpos (e : Enc) : e.flushPending.pxpos = e.pxpos := by
  unfold Enc.flushPending
  split <;> rfl

@[simp] theorem Enc.otherPath_pxpos (e : Enc) (cur : Pixel) : (e.otherPath cur).pxpos = e.pxpos := by
  have hout : (e.flushPending.emitRecord (chunkFor e.idx e.prev cur)).pxpos = e.pxpos := by simp
  unfold Enc.otherPath
  extract_lets out
  split <;> exact hout

/-- Growing the run emits at most the one byte of a RUN chunk (R144, R145). -/
theorem Enc.samePath_opos (e : Enc) : ∃ n ≤ 1, e.samePath.opos = cursorAdd e.opos n := by
  unfold Enc.samePath
  extract_lets grown
  split
  · exact ⟨1, le_rfl, rfl⟩
  · exact ⟨0, Nat.zero_le 1, (cursorAdd_zero _).symm⟩

/-- Flushing a pending run emits at most the one byte of a RUN chunk (R147). -/
theorem Enc.flushPending_opos (e : Enc) : ∃ n ≤ 1, e.flushPending.opos = cursorAdd e.opos n := by
  unfold Enc.flushPending
  split
  · exact ⟨1, le_rfl, rfl⟩
  · exact ⟨0, Nat.zero_le 1, (cursorAdd_zero _).symm⟩

/-- The unequal path emits a pending run and one chunk (R147 to R154). -/
theorem Enc.otherPath_opos (e : Enc) (cur : Pixel) : ∃ n ≤ 6, (e.otherPath cur).opos = cursorAdd e.opos n := by
  obtain ⟨n, hn, ho⟩ := e.flushPending_opos
  have hc := length_le_of_position_chunk (chunkFor_position e.idx e.prev cur)
  refine ⟨n + (chunkFor e.idx e.prev cur).length, by omega, ?_⟩
  have hout : (e.flushPending.emitRecord (chunkFor e.idx e.prev cur)).opos =
      cursorAdd e.opos (n + (chunkFor e.idx e.prev cur).length) := by
    simp [ho, encode_length]
  unfold Enc.otherPath
  extract_lets out
  split <;> exact hout

/-- A pixel step emits at most 6 bytes: a pending RUN and the pixel's own chunk (R143). -/
theorem Enc.pixel_opos (e : Enc) (cur : Pixel) : ∃ n ≤ 6, (e.pixel cur).opos = cursorAdd e.opos n := by
  unfold Enc.pixel
  split
  · obtain ⟨n, hn, ho⟩ := e.samePath_opos
    exact ⟨n, by omega, ho⟩
  · exact e.otherPath_opos cur

theorem Enc.pixel_pxpos (e : Enc) (cur : Pixel) : (e.pixel cur).pxpos = cursorAdd e.pxpos 1 := by
  unfold Enc.pixel
  split <;> simp

theorem Enc.BodyInv.channels_legal {e : Enc} (h : e.BodyInv) : e.channels = 3 ∨ e.channels = 4 := by
  obtain ⟨-, -, hd, -⟩ := Enc.startCheck_eq_none.1 h.accepted
  obtain ⟨-, -, hc, -, -⟩ := descriptorCheck_eq_none.1 hd
  exact hc

namespace Enc.Inv

/-- What ENC has emitted before the end step, were every pixel so far in a longest chunk (R69). -/
theorem opos_le {e : Enc} (h : e.Inv) (hb : e.status.phase = .body) :
    e.opos.toNat ≤ 14 + e.pxpos.toNat * (e.channels.toNat + 1) :=
  (h.body hb).opos_le.trans (Nat.add_le_add_left (Nat.mul_le_mul_right _ (Nat.sub_le ..)) 14)

/-- A step that leaves the cursors alone. -/
theorem cursorsRise_refl {e : Enc} (h : e.Inv) (hb : e.status.phase = .body) : e.CursorsRise e where
  pxpos_ge := le_rfl
  pxpos_le := (h.body hb).pxpos_le
  opos_ge := le_rfl
  opos_le := by
    have ho := h.opos_le hb
    have := Nat.mul_le_mul_right (e.channels.toNat + 1) (h.body hb).pxpos_le
    omega

/-- The pixel step: its 6 bytes fit, for the pixel's own share of the bound is 4 and the marker's 8 are still free. -/
theorem cursorsRise_pixel {e : Enc} (h : e.Inv) (hb : e.status.phase = .body) (hlt : e.pxpos.toNat < e.pixels)
    (cur : Pixel) : e.CursorsRise (e.pixel cur) := by
  have hc : 3 ≤ e.channels.toNat := by rcases (h.body hb).channels_legal with hc | hc <;> rw [hc] <;> decide
  have hmul := Nat.mul_le_mul_right (e.channels.toNat + 1) (Nat.succ_le_of_lt hlt)
  rw [Nat.succ_mul] at hmul
  have hle := h.opos_le hb
  have hpx := h.pxpos_lt
  have hop := h.opos_lt
  obtain ⟨n, hn, ho⟩ := e.pixel_opos cur
  have hp' : (e.pixel cur).pxpos.toNat = e.pxpos.toNat + 1 := by rw [e.pixel_pxpos, toNat_cursorAdd (by omega)]
  have ho' : (e.pixel cur).opos.toNat = e.opos.toNat + n := by rw [ho, toNat_cursorAdd (by omega)]
  constructor <;> omega

/-- The end step emits the 8 bytes of the marker, which the bound counts apart (R69). -/
theorem cursorsRise_finish {e : Enc} (h : e.Inv) (hb : e.status.phase = .body) (hlast : e.pxpos.toNat = e.pixels) :
    e.CursorsRise e.finish := by
  have hle := h.opos_le hb
  rw [hlast] at hle
  have hop := h.opos_lt
  have ho : e.finish.opos.toNat = e.opos.toNat + 8 := by rw [Enc.finish_opos, toNat_cursorAdd (by omega)]
  have hsame := h.cursorsRise_refl hb
  exact { hsame with opos_ge := by omega, opos_le := by omega }

end Enc.Inv

/-- A step of ENC in BODY; the start step is not enabled there (R45). -/
theorem EncOutcome.cursorsRise {e e' : Enc} (did : EncOutcome e e') (hb : e.status.phase = .body) (h : e.Inv) :
    e.CursorsRise e' := by
  cases did with
  | idle _ eq =>
    subst eq
    exact h.cursorsRise_refl hb
  | begun enabled => exact absurd hb (enabledAction_eq_start.1 enabled).1
  | failed _ enabled => exact absurd hb (enabledAction_eq_start.1 enabled).1
  | pixel cur enabled _ eq =>
    subst eq
    obtain ⟨-, -, hlt⟩ := enabledAction_eq_body.1 enabled
    exact h.cursorsRise_pixel hb hlt cur
  | finished enabled eq =>
    subst eq
    obtain ⟨-, -, hlast⟩ := enabledAction_eq_finish.1 enabled
    exact h.cursorsRise_finish hb hlast

/-! #### The block: the engine that does not move keeps its cursors (R20) -/

theorem StepOutcome.dec_cursorsRise {s t : State} (did : StepOutcome s t) (hb : s.dec.status.phase = .body)
    (h : s.dec.BodyInv) : s.dec.CursorsRise t.dec := by
  cases did with
  | idle _ eq => subst eq; exact h.cursorsRise_of_eq rfl rfl rfl
  | enc _ _ _ eq => subst eq; exact h.cursorsRise_of_eq rfl rfl rfl
  | record _ _ _ _ did eq => subst eq; exact did.cursorsRise hb h
  | fails _ _ _ eq => subst eq; exact h.cursorsRise_of_eq rfl rfl rfl

theorem StepOutcome.enc_cursorsRise {s t : State} (did : StepOutcome s t) (hb : s.enc.status.phase = .body)
    (h : s.enc.Inv) : s.enc.CursorsRise t.enc := by
  cases did with
  | idle _ eq => subst eq; exact h.cursorsRise_refl hb
  | enc _ _ did eq => subst eq; exact did.cursorsRise hb h
  | record _ _ _ _ _ eq => subst eq; exact h.cursorsRise_refl hb
  | fails _ _ _ eq => subst eq; exact h.cursorsRise_refl hb

end Sys2Proof.Machine

/-- Settles O57, by the cases of what a step of the block can do. -/
theorem cursorsOnlyRise : Obligations.CursorsOnlyRise := by
  intro s t hi hs
  have did := Sys2Proof.Machine.step_next_cases hs
  constructor
  · intro hb
    obtain ⟨hi1, hi2, hp1, hp2, ho1, ho2⟩ := did.dec_cursorsRise hb (hi.dec.body hb)
    exact ⟨hi1, hi2, hp1, hp2, ho1, ho2⟩
  · intro hb
    obtain ⟨hp1, hp2, ho1, ho2⟩ := did.enc_cursorsRise hb hi.enc
    exact ⟨hp1, hp2, ho1, ho2⟩

section

open Sys2Proof Sys2Proof.Machine

/-! ### O49: every step keeps the invariant (10_state.md R47) -/

namespace Sys2Proof.Machine

/-! #### Parts of the invariant -/

theorem Pxc.coherent_clear : Pxc.clear.Coherent := fun s => .inl (Pxc.read_clear s)

/-- An insert writes a pixel into its own slot only (R126). -/
theorem Pxc.Coherent.insert {c : Pxc} (h : c.Coherent) (p : Pixel) : (Pxc.insert c p).Coherent := by
  intro s
  rw [Pxc.read_insert]
  split
  case isTrue hs => exact .inr hs
  case isFalse => exact h s

theorem Status.coherent_fail (c : Cause) : (Status.fail c).Coherent :=
  ⟨fun _ => ⟨c, rfl, rfl⟩, fun h => absurd rfl h⟩

theorem Status.coherent_running : Status.running.Coherent := ⟨fun h => (by cases h), fun _ => ⟨rfl, rfl⟩⟩

theorem Status.coherent_finished : Status.finished.Coherent := ⟨fun h => (by cases h), fun _ => ⟨rfl, rfl⟩⟩

/-- An accepted channel count is 3 or 4. -/
theorem channels_bounds {c : Byte} (h : c = 3 ∨ c = 4) : 3 ≤ c.toNat ∧ c.toNat ≤ 4 := by
  rcases h with rfl | rfl <;> decide

/-! #### ENC: the pixel step as equations (41_chunk_encoder.md R143) -/

/-- RUN is 6 bits wide (R24). -/
theorem toNat_run_succ (r : BitVec 6) : (r + 1).toNat = (r.toNat + 1) % 64 := BitVec.toNat_add r 1

/-- The equal path (R144, R145): the run is flushed at 62 and at the last pixel, and otherwise grows. -/
theorem Enc.pixel_prev (e : Enc) :
    e.pixel e.prev =
      if e.run.toNat + 1 = 62 ∨ e.pxpos.toNat + 1 = e.pixels then
        { e with
          run := 0
          pxpos := cursorAdd e.pxpos 1
          opos := cursorAdd e.opos 1
          strmOut := Memory.writeBytes e.strmOut e.opos.toNat (encode (.run (e.run + 1).toNat)) }
      else { e with run := e.run + 1, pxpos := cursorAdd e.pxpos 1 } := by
  have hrun : (e.run + 1).toNat = 62 ↔ e.run.toNat + 1 = 62 := by
    rw [toNat_run_succ]
    omega
  have hlast : e.last = true ↔ e.pxpos.toNat + 1 = e.pixels := decide_eq_true_iff
  rw [Enc.pixel, if_pos ((same_iff ..).2 rfl)]
  unfold Enc.samePath
  simp only [Config.runMax, hrun, hlast]
  split <;> rfl

/-- The unequal path (R147 to R149): a pending run is flushed, the pixel's own chunk follows, and the pixel stands in
its slot, where a hit finds it already. -/
theorem Enc.pixel_of_ne {e : Enc} {cur : Pixel} (h : cur ≠ e.prev) :
    e.pixel cur =
      { e with
        prev := cur
        run := 0
        pxpos := cursorAdd e.pxpos 1
        idx := Pxc.insert e.idx cur
        opos := cursorAdd e.flushPending.opos (chunkFor e.idx e.prev cur).length
        strmOut := Memory.writeBytes e.flushPending.strmOut e.flushPending.opos.toNat (encode (chunkFor e.idx e.prev cur)) } := by
  have hpending : e.flushPending = { e with run := 0, opos := e.flushPending.opos, strmOut := e.flushPending.strmOut } := by
    unfold Enc.flushPending
    split
    case isTrue => rfl
    case isFalse hr =>
      have hrun : e.run = 0 := BitVec.eq_of_toNat_eq (by simpa using hr)
      rw [← hrun]
  rw [Enc.pixel, if_neg (mt (same_iff ..).1 h), ← encode_length]
  unfold Enc.otherPath
  split
  case isTrue hhit =>
    rw [Pxc.insert_of_read ((hit_iff ..).1 hhit), hpending]
    rfl
  case isFalse =>
    rw [hpending]
    rfl

/-- A pixel step leaves every other register of ENC and PIX_IN alone (R156). -/
theorem Enc.pixel_frame (e : Enc) (cur : Pixel) :
    e.pixel cur =
      { e with
        prev := cur
        pxpos := cursorAdd e.pxpos 1
        run := (e.pixel cur).run
        idx := (e.pixel cur).idx
        opos := (e.pixel cur).opos
        strmOut := (e.pixel cur).strmOut } := by
  by_cases h : cur = e.prev
  · subst h
    rw [Enc.pixel_prev]
    split <;> rfl
  · rw [Enc.pixel_of_ne h]

/-- Flushing a pending run moves OPOS by the one byte of its chunk (R147). -/
theorem Enc.flushPending_opos_eq (e : Enc) :
    e.flushPending.opos = cursorAdd e.opos (if 0 < e.run.toNat then 1 else 0) := by
  unfold Enc.flushPending
  split
  · rfl
  · exact (cursorAdd_zero _).symm

theorem Enc.flushPending_strmOut_wf {e : Enc} (h : e.strmOut.wf) : e.flushPending.strmOut.wf := by
  unfold Enc.flushPending
  split
  · exact Memory.wf_writeBytes h ..
  · exact h

theorem Enc.pixel_strmOut_wf {e : Enc} (h : e.strmOut.wf) (cur : Pixel) : (e.pixel cur).strmOut.wf := by
  by_cases hc : cur = e.prev
  · subst hc
    rw [Enc.pixel_prev]
    split
    · exact Memory.wf_writeBytes h ..
    · exact h
  · rw [Enc.pixel_of_ne hc]
    exact Memory.wf_writeBytes (Enc.flushPending_strmOut_wf h) ..

/-- A fetched pixel is the pixel that stands in PIX_IN at PXPOS (R142). -/
theorem Enc.hasPixel_of_fetch {e : Enc} {cur : Pixel} (hc : e.channels = 3 ∨ e.channels = 4) (h : e.fetch = some cur) :
    e.HasPixel e.pxpos.toNat cur := by
  unfold Enc.fetch at h
  split at h
  case h_1 bs hbs =>
    obtain rfl := Option.some.inj h
    rw [Enc.HasPixel, hbs, Pixel.ofBytes_bytes hc (Memory.readBytes_length hbs)]
  case h_2 => cases h

/-- A pixel fetched from 3 channels has PREV's alpha (R142). -/
theorem Enc.alpha_of_fetch {e : Enc} {cur : Pixel} (hc : e.channels = 3) (h : e.fetch = some cur) : cur.a = e.prev.a := by
  unfold Enc.fetch at h
  split at h
  case h_1 bs hbs =>
    obtain rfl := Option.some.inj h
    have hl : bs.length = 3 := by rw [Memory.readBytes_length hbs, Enc.pixelBytes, hc]; rfl
    match bs, hl with
    | [r, g, b], _ => rfl
  case h_2 => cases h

/-- The chunk of a pixel whose alpha is PREV's is no RGBA chunk, so at most 4 bytes long (R155). -/
theorem chunkFor_length_of_alpha {idx : Pxc} {prev cur : Pixel} (h : cur.a = prev.a) :
    (chunkFor idx prev cur).length ≤ 4 := by
  unfold chunkFor explicitChunk
  extract_lets dr dg db
  rw [if_pos ((alphaSame_iff ..).2 h)]
  repeat' split
  all_goals simp [Instr.length]

/-- The chunk of a fetched pixel takes at most CHANNELS + 1 bytes (R69). -/
theorem Enc.chunkFor_length_of_fetch {e : Enc} {cur : Pixel} (hc : e.channels = 3 ∨ e.channels = 4)
    (h : e.fetch = some cur) : (chunkFor e.idx e.prev cur).length ≤ e.channels.toNat + 1 := by
  rcases hc with hc | hc
  · rw [hc]
    exact chunkFor_length_of_alpha (Enc.alpha_of_fetch hc h)
  · rw [hc]
    exact length_le_of_position_chunk (chunkFor_position ..)

/-! #### ENC: the invariant -/

/-- The pixel count of an accepted image (R224). -/
theorem Enc.pixels_le_of_accepted {e : Enc} (h : e.startCheck = none) : e.pixels ≤ 399999999 := by
  obtain ⟨-, -, hd, -⟩ := Enc.startCheck_eq_none.1 h
  exact (pixelCount_bound hd).2

namespace Enc.BodyInv

theorem pixels_le {e : Enc} (h : e.BodyInv) : e.pixels ≤ 399999999 := Enc.pixels_le_of_accepted h.accepted

/-- OPOS leaves room for the marker below the bound of R32. -/
theorem opos_bound {e : Enc} (h : e.BodyInv) : e.opos.toNat ≤ 2000000009 := by
  have hc := (channels_bounds h.channels_legal).2
  have hmul : (e.pxpos.toNat - e.run.toNat) * (e.channels.toNat + 1) ≤ 399999999 * 5 :=
    Nat.mul_le_mul ((Nat.sub_le ..).trans (h.pxpos_le.trans h.pixels_le)) (Nat.succ_le_succ hc)
  have ho := h.opos_le
  omega

/-- The invariant of a running operation bounds the cursors. -/
theorem inv {e : Enc} (h : e.BodyInv) (hs : e.status = Status.running) (hpix : e.pixIn.wf) (hstrm : e.strmOut.wf)
    (hrun : e.run.toNat ≤ 61) : e.Inv where
  status := hs ▸ Status.coherent_running
  causes := by rw [hs]; intro c hc; cases hc
  pixIn := hpix
  strmOut := hstrm
  run_le := hrun
  pxpos_lt := Nat.lt_of_le_of_lt (h.pxpos_le.trans h.pixels_le) (by decide)
  opos_lt := Nat.lt_of_le_of_lt h.opos_bound (by decide)
  body := fun _ => h

/-- An operation that has just begun (R141, R231). -/
theorem begin {e : Enc} (accepted : e.startCheck = none) : e.begin.BodyInv where
  noStart := rfl
  accepted := accepted
  pxpos_le := Nat.zero_le _
  run_le_pxpos := le_rfl
  flushed := fun _ => rfl
  runPixels := fun j hj => absurd hj (Nat.not_lt_zero j)
  cached := .inl rfl
  alpha := fun _ => rfl
  header_le := le_rfl
  emitted := fun h => absurd h (Nat.not_lt_zero 0)
  opos_le := Nat.le_add_right ..
  coherent := Pxc.coherent_clear

/-- A pixel step may emit one longest chunk for its own pixel and for each pixel of the pending run (R69). -/
theorem opos_add_le {e : Enc} (h : e.BodyInv) {n : Nat} (hn : n ≤ (e.run.toNat + 1) * (e.channels.toNat + 1)) :
    e.opos.toNat + n ≤ 14 + (e.pxpos.toNat + 1) * (e.channels.toNat + 1) := by
  have hp : e.pxpos.toNat + 1 = (e.pxpos.toNat - e.run.toNat) + (e.run.toNat + 1) := by
    have := h.run_le_pxpos
    omega
  rw [hp, Nat.add_mul]
  have := h.opos_le
  omega

/-- The equal path keeps the invariant; a grown run stands for one pixel more. -/
theorem pixel_prev {e : Enc} (h : e.BodyInv) (hrun : e.run.toNat ≤ 61) (hlt : e.pxpos.toNat < e.pixels)
    (hfetch : e.fetch = some e.prev) : (e.pixel e.prev).BodyInv := by
  have hn := h.pixels_le
  have ho := h.opos_bound
  have hrp := h.run_le_pxpos
  have hpx : (cursorAdd e.pxpos 1).toNat = e.pxpos.toNat + 1 := toNat_cursorAdd (by omega)
  rw [Enc.pixel_prev]
  split
  case isTrue =>
    have hop : (cursorAdd e.opos 1).toNat = e.opos.toNat + 1 := toNat_cursorAdd (by omega)
    exact
      { h with
        pxpos_le := hpx.trans_le hlt
        run_le_pxpos := Nat.zero_le _
        flushed := fun _ => rfl
        runPixels := fun j hj => absurd hj (Nat.not_lt_zero j)
        header_le := by have := h.header_le; simp only [hop]; omega
        emitted := fun _ => by have := h.header_le; simp only [hop]; omega
        opos_le := by
          simp only [hop, hpx]
          exact h.opos_add_le (Nat.mul_pos (Nat.succ_pos _) (Nat.succ_pos _)) }
  case isFalse hno =>
    have hgrown : (e.run + 1).toNat = e.run.toNat + 1 := by
      rw [toNat_run_succ]
      omega
    have hsub : e.pxpos.toNat + 1 - (e.run.toNat + 1) = e.pxpos.toNat - e.run.toNat := by omega
    exact
      { h with
        pxpos_le := hpx.trans_le hlt
        run_le_pxpos := by simp only [hgrown, hpx]; omega
        flushed := fun hlast => absurd (.inr (hpx.symm.trans hlast)) hno
        runPixels := by
          intro j hj
          simp only [hgrown] at hj
          simp only [hpx, Nat.add_sub_cancel]
          cases j with
          | zero => exact Enc.hasPixel_of_fetch h.channels_legal hfetch
          | succ j =>
            rw [show e.pxpos.toNat - (j + 1) = e.pxpos.toNat - 1 - j by omega]
            exact h.runPixels j (by omega)
        emitted := by
          simp only [hgrown, hpx]
          intro hr
          exact h.emitted (by omega)
        opos_le := by
          simp only [hgrown, hpx, hsub]
          exact h.opos_le }

/-- The unequal path keeps the invariant; the chunk of a pending run is paid for by the pixels it stands for. -/
theorem pixel_of_ne {e : Enc} {cur : Pixel} (h : e.BodyInv) (hlt : e.pxpos.toNat < e.pixels)
    (hfetch : e.fetch = some cur) (hne : cur ≠ e.prev) : (e.pixel cur).BodyInv := by
  have hn := h.pixels_le
  have hbound := h.opos_bound
  have hheader := h.header_le
  have hlen := Enc.chunkFor_length_of_fetch h.channels_legal hfetch
  have hpos : 1 ≤ (chunkFor e.idx e.prev cur).length := by
    cases chunkFor e.idx e.prev cur <;> simp [Instr.length]
  have hpx : (cursorAdd e.pxpos 1).toNat = e.pxpos.toNat + 1 := toNat_cursorAdd (by omega)
  have hflush : (if 0 < e.run.toNat then 1 else 0) ≤ e.run.toNat := by split <;> omega
  have hchan := (channels_bounds h.channels_legal).2
  have hop : (cursorAdd e.flushPending.opos (chunkFor e.idx e.prev cur).length).toNat =
      e.opos.toNat + ((if 0 < e.run.toNat then 1 else 0) + (chunkFor e.idx e.prev cur).length) := by
    rw [Enc.flushPending_opos_eq, cursorAdd_cursorAdd, toNat_cursorAdd (by split <;> omega)]
  rw [Enc.pixel_of_ne hne]
  exact
    { h with
      pxpos_le := hpx.trans_le hlt
      run_le_pxpos := Nat.zero_le _
      flushed := fun _ => rfl
      runPixels := fun j hj => absurd hj (Nat.not_lt_zero j)
      cached := .inr (Pxc.read_insert_same ..)
      alpha := fun hc => (Enc.alpha_of_fetch (e := e) hc hfetch).trans (h.alpha hc)
      header_le := by simp only [hop]; omega
      emitted := fun _ => by simp only [hop]; omega
      opos_le := by
        have hrun : e.run.toNat ≤ e.run.toNat * (e.channels.toNat + 1) := Nat.le_mul_of_pos_right _ (Nat.succ_pos _)
        simp only [hop, hpx]
        refine h.opos_add_le ?_
        rw [Nat.succ_mul]
        omega
      coherent := h.coherent.insert cur }

theorem pixel {e : Enc} {cur : Pixel} (h : e.BodyInv) (hrun : e.run.toNat ≤ 61) (hlt : e.pxpos.toNat < e.pixels)
    (hfetch : e.fetch = some cur) : (e.pixel cur).BodyInv := by
  by_cases hc : cur = e.prev
  · subst hc
    exact h.pixel_prev hrun hlt hfetch
  · exact h.pixel_of_ne hlt hfetch hc

end Enc.BodyInv

/-- The status of a running operation is the one its start step wrote (R38). -/
theorem Status.Coherent.eq_running {t : Status} (h : t.Coherent) (hp : t.phase = .body) : t = Status.running := by
  obtain ⟨phase, err, eclass⟩ := t
  obtain rfl : phase = .body := hp
  obtain ⟨rfl, rfl⟩ := h.2 (fun hf => by cases hf)
  rfl

theorem Cause.ofEnc_of_descriptorCheck {w h : U32} {c cs : Byte} {x : Cause} (hx : descriptorCheck w h c cs = some x) :
    x.ofEnc = true := by
  unfold descriptorCheck at hx
  repeat' split at hx
  all_goals simp at hx
  all_goals subst hx; rfl

theorem Cause.ofEnc_of_startCheck {e : Enc} {c : Cause} (h : e.startCheck = some c) : c.ofEnc = true := by
  unfold Enc.startCheck at h
  split at h
  · exact Option.some.inj h ▸ rfl
  split at h
  · exact Option.some.inj h ▸ rfl
  split at h
  case h_1 x hx => exact Option.some.inj h ▸ Cause.ofEnc_of_descriptorCheck hx
  split at h
  · exact Option.some.inj h ▸ rfl
  · cases h

namespace Enc.Inv

/-- A failure writes STATUS only (R262). -/
theorem fail {e : Enc} (h : e.Inv) {c : Cause} (hc : c.ofEnc = true) : (e.fail c).Inv :=
  { h with
    status := Status.coherent_fail c
    causes := fun _ hx => Option.some.inj hx ▸ hc
    body := fun hb => by cases hb }

theorem begin {e : Enc} (h : e.Inv) (accepted : e.startCheck = none) : e.begin.Inv :=
  (BodyInv.begin accepted).inv rfl h.pixIn (Memory.wf_writeBytes h.strmOut ..) (Nat.zero_le _)

theorem finish {e : Enc} (h : e.Inv) (hb : e.BodyInv) : e.finish.Inv :=
  { h with
    status := Status.coherent_finished
    causes := fun _ hx => by cases hx
    strmOut := Memory.wf_writeBytes h.strmOut ..
    opos_lt := by
      have hbound := hb.opos_bound
      rw [Enc.finish_opos, toNat_cursorAdd (by omega)]
      omega
    body := fun hb => by cases hb }

/-- RUN is flushed at 62, so that it is at most 61 between two pixel steps (R24). -/
theorem pixel_run_le {e : Enc} (h : e.Inv) (cur : Pixel) : (e.pixel cur).run.toNat ≤ 61 := by
  have hrun := h.run_le
  by_cases hc : cur = e.prev
  · subst hc
    rw [Enc.pixel_prev]
    split
    case isTrue => exact Nat.zero_le _
    case isFalse hno =>
      rw [toNat_run_succ]
      omega
  · rw [Enc.pixel_of_ne hc]
    exact Nat.zero_le _

theorem pixel {e : Enc} {cur : Pixel} (h : e.Inv) (hb : e.status.phase = .body) (hlt : e.pxpos.toNat < e.pixels)
    (hfetch : e.fetch = some cur) : (e.pixel cur).Inv := by
  have hs : (e.pixel cur).status = e.status := by rw [Enc.pixel_frame]
  have hp : (e.pixel cur).pixIn = e.pixIn := by rw [Enc.pixel_frame]
  exact ((h.body hb).pixel h.run_le hlt hfetch).inv (hs.trans (h.status.eq_running hb)) (hp ▸ h.pixIn)
    (Enc.pixel_strmOut_wf h.strmOut cur) (h.pixel_run_le cur)

end Enc.Inv

theorem EncOutcome.inv {e e' : Enc} (did : EncOutcome e e') (h : e.Inv) : e'.Inv := by
  cases did with
  | idle _ eq => exact eq ▸ h
  | begun _ accepted eq => exact eq ▸ h.begin accepted
  | failed c _ check eq => exact eq ▸ h.fail (Cause.ofEnc_of_startCheck check)
  | pixel cur enabled fetched eq =>
    obtain ⟨hb, -, hlt⟩ := enabledAction_eq_body.1 enabled
    exact eq ▸ h.pixel hb hlt fetched
  | finished enabled eq =>
    obtain ⟨hb, -, -⟩ := enabledAction_eq_finish.1 enabled
    exact eq ▸ h.finish (h.body hb)

/-! #### DEC -/

theorem Dec.putTimes_pixOut_wf {d : Dec} (h : d.pixOut.wf) (p : Pixel) (k : Nat) : (d.putTimes p k).pixOut.wf := by
  induction k generalizing d with
  | zero => exact h
  | succ k ih => exact ih (Memory.wf_writeBytes h ..)

/-- `put` writes PIX_OUT and OPOS only (R196). -/
theorem Dec.putTimes_frame (d : Dec) (p : Pixel) (k : Nat) :
    d.putTimes p k = { d with opos := (d.putTimes p k).opos, pixOut := (d.putTimes p k).pixOut } := by
  induction k generalizing d with
  | zero => rfl
  | succ k ih => exact ih (d.put p)

/-- The writes of a chunk step leave every other register of DEC alone (R182). -/
theorem Dec.retire_frame (d : Dec) (len : Nat) (cur : Pixel) (k : Nat) (ins : Bool) :
    d.retire len cur k ins =
      { d with
        idx := if ins then Pxc.insert d.idx cur else d.idx
        prev := cur
        ipos := cursorAdd d.ipos len
        pxpos := cursorAdd d.pxpos k
        opos := (d.retire len cur k ins).opos
        pixOut := (d.retire len cur k ins).pixOut } := by
  unfold Dec.retire
  rw [Dec.putTimes_frame]
  cases ins <;> rfl

/-- The record DEC's start step fetches is the one at offset 0 of STRM_IN (R232). -/
theorem Dec.recordAt_of_fetch_start {d : Dec} {i : Instr} (ha : d.action = some .start) (h : d.fetch = some (.record i)) :
    d.recordAt .header 0 Config.headerSize = .record i := by
  rw [Dec.fetch, ha] at h
  have h := Option.some.inj h
  unfold Dec.fetchHeader at h
  split at h
  · cases h
  · exact h

section
variable (d : Dec) (len : Nat) (cur : Pixel) (k : Nat) (ins : Bool)

@[simp] theorem Dec.retire_status : (d.retire len cur k ins).status = d.status := by rw [Dec.retire_frame]
@[simp] theorem Dec.retire_inLen : (d.retire len cur k ins).inLen = d.inLen := by rw [Dec.retire_frame]
@[simp] theorem Dec.retire_strmIn : (d.retire len cur k ins).strmIn = d.strmIn := by rw [Dec.retire_frame]
@[simp] theorem Dec.retire_pixels : (d.retire len cur k ins).pixels = d.pixels := by rw [Dec.retire_frame]; rfl
@[simp] theorem Dec.retire_pxpos : (d.retire len cur k ins).pxpos = cursorAdd d.pxpos k := by rw [Dec.retire_frame]

end

namespace Dec.BodyInv

theorem opos_bound {d : Dec} (h : d.BodyInv) : d.opos.toNat ≤ 1599999996 := by
  rw [h.opos]
  exact Nat.mul_le_mul (h.pxpos_le.trans h.pixels_le) (channels_bounds h.och_legal).2

/-- The invariant of a running operation bounds the cursors. -/
theorem inv {d : Dec} (h : d.BodyInv) (hs : d.status = Status.running) (hstrm : d.strmIn.wf) (hpix : d.pixOut.wf) :
    d.Inv where
  status := hs ▸ Status.coherent_running
  causes := by rw [hs]; intro c hc; cases hc
  strmIn := hstrm
  pixOut := hpix
  pxpos_lt := Nat.lt_of_le_of_lt (h.pxpos_le.trans h.pixels_le) (by decide)
  opos_lt := Nat.lt_of_le_of_lt h.opos_bound (by decide)
  body := fun _ => h
  done := by rw [hs]; intro hd; cases hd

/-- An operation that has just begun (R181, R232). -/
theorem begin {d : Dec} {w h : U32} {c cs : Byte} (accepted : d.headerCheck w h c cs = none)
    (seen : d.recordAt .header 0 Config.headerSize = .record (.header w h c cs)) : (d.begin w h c cs).BodyInv := by
  obtain ⟨hrequest, hdescriptor⟩ := Dec.headerCheck_eq_none.1 accepted
  exact
    { noStart := rfl
      request := hrequest
      descriptor := hdescriptor
      headerSeen := seen
      och := rfl
      ipos_ge := le_rfl
      ipos_le := (Dec.requestCheck_eq_none.1 hrequest).2
      pxpos_le := Nat.zero_le _
      opos := (Nat.zero_mul _).symm
      coherent := Pxc.coherent_clear }

/-- The writes of a chunk that fits the stream, clipped to the pixels still missing: no cursor wraps. -/
theorem retire {d : Dec} (h : d.BodyInv) {len k : Nat} (cur : Pixel) (ins : Bool)
    (fits : d.ipos.toNat + len ≤ d.inLen.toNat) (clipped : d.pxpos.toNat + k ≤ d.pixels) :
    (d.retire len cur k ins).BodyInv := by
  have hn := h.pixels_le
  have hout : d.opos.toNat + k * d.och.toNat ≤ d.pixels * d.och.toNat := by
    rw [h.opos, ← Nat.add_mul]
    exact Nat.mul_le_mul_right _ clipped
  have hfit := h.pixOut_fits
  have hk : (k - 1) * d.och.toNat ≤ k * d.och.toNat := Nat.mul_le_mul_right _ (Nat.sub_le k 1)
  have hw : d.opos.toNat + (k - 1) * d.och.toNat < 2 ^ 32 := by omega
  have hi : (cursorAdd d.ipos len).toNat = d.ipos.toNat + len := toNat_cursorAdd (by omega)
  have hp : (cursorAdd d.pxpos k).toNat = d.pxpos.toNat + k := toNat_cursorAdd (by omega)
  have ho : (d.retire len cur k ins).opos.toNat = (d.pxpos.toNat + k) * d.och.toNat := by
    have he := (Dec.retire_effect { State.reset with dec := d } len cur k ins h.och_legal hw).opos
    rw [Nat.add_mul, ← h.opos, ← toNat_cursorAdd (x := d.opos) (by omega)]
    exact congrArg BitVec.toNat he
  rw [Dec.retire_frame]
  exact
    { h with
      ipos_ge := h.ipos_ge.trans ((Nat.le_add_right ..).trans_eq hi.symm)
      ipos_le := hi.trans_le fits
      pxpos_le := hp.trans_le clipped
      opos := by simp only [hp, ho]
      coherent := by
        cases ins
        · exact h.coherent
        · exact h.coherent.insert cur }

/-- The results of an operation whose last pixel has been produced (R34, R228). -/
theorem doneInv {d : Dec} (h : d.BodyInv) (hlast : d.pxpos.toNat = d.pixels) (len : Nat) : (d.finish len).DoneInv where
  descriptor := h.descriptor
  och := h.och_legal
  pxpos := hlast
  opos := hlast ▸ h.opos
  outLen := (BitVec.toNat_ofNat ..).trans (Nat.mod_eq_of_lt h.pixOut_fits)

end Dec.BodyInv

namespace Dec.Inv

/-- A failure writes STATUS only (R262). -/
theorem fail {d : Dec} (h : d.Inv) {c : Cause} (hc : c.ofDec = true) : (d.fail c).Inv :=
  { h with
    status := Status.coherent_fail c
    causes := fun _ hx => Option.some.inj hx ▸ hc
    body := fun hb => by cases hb
    done := fun hd => by cases hd }

theorem retire {d : Dec} (h : d.Inv) (hb : d.status.phase = .body) {len k : Nat} (cur : Pixel) (ins : Bool)
    (fits : d.ipos.toNat + len ≤ d.inLen.toNat) (clipped : d.pxpos.toNat + k ≤ d.pixels) :
    (d.retire len cur k ins).Inv := by
  have hpix : (d.cacheWrite ins cur).pixOut.wf := (d.cacheWrite_pixOut ins cur).symm ▸ h.pixOut
  exact ((h.body hb).retire cur ins fits clipped).inv ((d.retire_status ..).trans (h.status.eq_running hb))
    ((d.retire_strmIn ..).symm ▸ h.strmIn) (Dec.putTimes_pixOut_wf hpix cur k)

theorem finish {d : Dec} (h : d.Inv) (hb : d.BodyInv) (hlast : d.pxpos.toNat = d.pixels) (len : Nat) :
    (d.finish len).Inv :=
  { h with
    status := Status.coherent_finished
    causes := fun _ hx => by cases hx
    body := fun hb => by cases hb
    done := fun _ => hb.doneInv hlast len }

end Dec.Inv

theorem ExecOutcome.inv {i : Instr} {d d' : Dec} (did : ExecOutcome i d d') (fetched : d.fetch = some (.record i))
    (h : d.Inv) : d'.Inv := by
  cases did with
  | chunk cur k ins _ enabled fits clipped _ eq =>
    obtain ⟨hb, -, -⟩ := enabledAction_eq_body.1 enabled
    exact eq ▸ h.retire hb cur ins fits clipped
  | begun w hh c cs is enabled accepted eq =>
    subst is
    have hb := Dec.BodyInv.begin accepted (Dec.recordAt_of_fetch_start enabled fetched)
    exact eq ▸ hb.inv rfl h.strmIn h.pixOut
  | finished _ enabled _ eq =>
    obtain ⟨hb, -, hlast⟩ := enabledAction_eq_finish.1 enabled
    exact eq ▸ h.finish (h.body hb) hlast 8
  | failed c ofDec _ eq => exact eq ▸ h.fail ofDec

/-! #### The block: the engine that does not move keeps its invariant (R20) -/

theorem StepOutcome.inv {s t : State} (did : StepOutcome s t) (h : s.Inv) : t.Inv := by
  cases did with
  | idle _ eq => exact eq ▸ h
  | enc e _ did eq => exact eq ▸ ⟨did.inv h.enc, h.dec⟩
  | record i d _ fetched did eq => exact eq ▸ ⟨h.enc, did.inv fetched h.dec⟩
  | fails c _ fetched eq => exact eq ▸ ⟨h.enc, h.dec.fail (Dec.fetch_fails_ofDec fetched)⟩

end Sys2Proof.Machine

/-- Settles O49, by the cases of what a step of the block can do. -/
theorem everyStepKeepsTheInvariant : Obligations.EveryStepKeepsTheInvariant :=
  fun _ _ h hs => (step_next_cases hs).inv h

/-! ### O21, O30, O31, O26, O29: which step moves, and what it moves (10_state.md R20, R45) -/

namespace Sys2Proof.Machine

/-! #### DEC's step as a function of DEC alone (R20) -/

/-- What the execution of a record does to DEC. -/
def Dec.exec (i : Instr) (d : Dec) : Host.Outcome Dec Fault Refusal :=
  match i with
  | .rgb r g b => d.chunkStep 4 (rgbPixel d.prev r g b) 1 true
  | .rgba r g b a => d.chunkStep 5 ⟨r, g, b, a⟩ 1 true
  | .index slot => d.chunkStep 1 (Pxc.read d.idx slot) 1 false
  | .diff dr dg db => d.chunkStep 1 (diffPixel d.prev dr dg db) 1 true
  | .luma dg drdg dbdg => d.chunkStep 2 (lumaPixel d.prev dg drdg dbdg) 1 true
  | .run n => d.runChunk Config.decRunCacheWrite n
  | .header width height channels colorspace => d.start width height channels colorspace
  | .endMarker => d.endStep Config.checkEndMarker

theorem exec_eq (i : Instr) (s : State) : exec i s = s.withDec (s.dec.exec i) := by
  cases i <;> rfl

/-- DEC's enabled step: its next record fetched and executed. -/
def Dec.step (d : Dec) : Host.Outcome Dec Fault Refusal :=
  match d.fetch with
  | some (.record i) => d.exec i
  | some (.fails c) => .next (d.fail c)
  | some .absent => .fault .absentInputByte
  | none => .refused .startWhileBusy

theorem Dec.step_of_record {d : Dec} {i : Instr} (h : d.fetch = some (.record i)) : d.step = d.exec i := by
  simp [Dec.step, h]

theorem Dec.step_of_fails {d : Dec} {c : Cause} (h : d.fetch = some (.fails c)) : d.step = .next (d.fail c) := by
  simp [Dec.step, h]

theorem decStep_eq (s : State) : decStep s = s.withDec s.dec.step := by
  unfold decStep
  split
  case h_1 i hf => rw [Dec.step_of_record hf, exec_eq]
  case h_2 c hf => rw [Dec.step_of_fails hf]; rfl
  case h_3 hf => simp [Dec.step, hf, State.withDec]
  case h_4 hf => simp [Dec.step, hf, State.withDec]

/-! #### A record executes exactly when its step is enabled -/

theorem Dec.chunkStep_enabled (d : Dec) (len : Nat) (cur : Pixel) (k : Nat) (ins : Bool) :
    (d.action = some .body → ∃ d', d.chunkStep len cur k ins = .next d') ∧
    (d.action ≠ some .body → d.chunkStep len cur k ins = .refused .recordNotEnabled) := by
  rcases d.chunkStep_cases len cur k ins with ⟨ha, -, he⟩ | ⟨ha, -, he⟩ | ⟨ha, he⟩
  · exact ⟨fun _ => ⟨_, he⟩, fun hn => absurd ha hn⟩
  · exact ⟨fun _ => ⟨_, he⟩, fun hn => absurd ha hn⟩
  · exact ⟨fun hp => absurd hp ha, fun _ => he⟩

theorem Dec.exec_enabled (i : Instr) (d : Dec) :
    (d.action = some (stepOf i.position) → ∃ d', d.exec i = .next d') ∧
    (d.action ≠ some (stepOf i.position) → d.exec i = .refused .recordNotEnabled) := by
  cases i with
  | rgb | rgba | index | diff | luma | run => exact d.chunkStep_enabled ..
  | header w h c cs =>
    rcases d.start_cases w h c cs with ⟨ha, -, he⟩ | ⟨x, ha, -, he⟩ | ⟨ha, he⟩
    · exact ⟨fun _ => ⟨_, he⟩, fun hn => absurd ha hn⟩
    · exact ⟨fun _ => ⟨_, he⟩, fun hn => absurd ha hn⟩
    · exact ⟨fun hp => absurd hp ha, fun _ => he⟩
  | endMarker =>
    rcases d.endStep_cases Config.checkEndMarker with ⟨ha, -, he⟩ | ⟨ha, -, -, he⟩ | ⟨ha, he⟩
    · exact ⟨fun _ => ⟨_, he⟩, fun hn => absurd ha hn⟩
    · exact ⟨fun _ => ⟨_, he⟩, fun hn => absurd ha hn⟩
    · exact ⟨fun hp => absurd hp ha, fun _ => he⟩

theorem exec_of_enabled {i : Instr} {s : State} (h : s.dec.action = some (stepOf i.position)) :
    ∃ t, exec i s = .next t := by
  obtain ⟨d, hd⟩ := (s.dec.exec_enabled i).1 h
  exact ⟨_, by rw [exec_eq, hd]; rfl⟩

theorem exec_of_not_enabled {i : Instr} {s : State} (h : s.dec.action ≠ some (stepOf i.position)) :
    exec i s = .refused .recordNotEnabled := by
  rw [exec_eq, (s.dec.exec_enabled i).2 h]
  rfl

/-- No record writes STRM_IN, IN_LEN or REQCH (R34). -/
theorem ExecOutcome.inputs {i : Instr} {d d' : Dec} (did : ExecOutcome i d d') :
    d'.strmIn = d.strmIn ∧ d'.inLen = d.inLen ∧ d'.reqch = d.reqch := by
  cases did with
  | chunk cur k ins _ _ _ _ _ eq => rw [eq, Dec.retire_frame]; exact ⟨rfl, rfl, rfl⟩
  | begun _ _ _ _ _ _ _ eq => rw [eq]; exact ⟨rfl, rfl, rfl⟩
  | finished _ _ _ eq => rw [eq]; exact ⟨rfl, rfl, rfl⟩
  | failed _ _ _ eq => rw [eq]; exact ⟨rfl, rfl, rfl⟩

end Sys2Proof.Machine

/-- Settles O21, by the cases of the chunk step, the start step and the end step. -/
theorem recordExecutesExactlyWhenItsStepIsEnabled : Obligations.RecordExecutesExactlyWhenItsStepIsEnabled := by
  intro i s
  refine ⟨fun ha => ?_, exec_of_not_enabled⟩
  obtain ⟨t, ht⟩ := exec_of_enabled ha
  obtain ⟨d, rfl, did⟩ := exec_next_cases ht
  obtain ⟨hstrm, hlen, hreq⟩ := did.inputs
  exact ⟨_, ht, rfl, hstrm, hlen, hreq, rfl, rfl⟩

namespace Sys2Proof.Machine

/-! #### Which engine has a step -/

/-- In BODY, with no START pending and PXPOS within the image, the step is the body step or the end step (R45). -/
theorem enabledAction_of_body {t : Status} {c : BitVec 1} {p n : Nat} (hb : t.phase = .body) (hc : c = 0) (hp : p ≤ n) :
    enabledAction t c p n = some (if p < n then .body else .finish) := by
  split
  case isTrue hlt => exact enabledAction_eq_body.2 ⟨hb, ctrl_ne_one.2 hc, hlt⟩
  case isFalse hge => exact enabledAction_eq_finish.2 ⟨hb, ctrl_ne_one.2 hc, by omega⟩

/-- Outside BODY only START moves an engine (R45). -/
theorem enabledAction_of_quiet {t : Status} {c : BitVec 1} {p n : Nat} (hb : t.phase ≠ .body) (hc : c = 0) :
    enabledAction t c p n = none := by
  subst hc
  obtain ⟨phase, err, eclass⟩ := t
  cases phase with
  | body => exact absurd rfl hb
  | idle | done | failed => rfl

theorem State.mover_of_none {s : State} (he : s.enc.action = none) (hd : s.dec.action = none) : s.mover = none := by
  simp [State.mover, he, hd]

theorem State.mover_of_dec {s : State} {a : Action} (he : s.enc.action = none) (hd : s.dec.action = some a) :
    s.mover = some .dec := by
  simp [State.mover, he, hd]

theorem State.mover_of_enc {s : State} {a : Action} (he : s.enc.action = some a) (hd : s.dec.action = none) :
    s.mover = some .enc := by
  simp [State.mover, he, hd]

theorem State.mover_of_turn_dec {s : State} {a : Action} (ht : s.turn = .dec) (hd : s.dec.action = some a) :
    s.mover = some .dec := by
  cases he : s.enc.action with
  | none => exact State.mover_of_dec he hd
  | some => simp [State.mover, he, hd, ht]

theorem step_of_mover_none {s : State} (hm : s.mover = none) : step s = .next s := by
  simp [step, hm]

theorem step_of_mover_dec {s : State} (hm : s.mover = some .dec) : step s = passTurn (s.withDec s.dec.step) := by
  simp [step, hm, decStep_eq]

theorem step_of_mover_enc {s : State} (hm : s.mover = some .enc) : step s = passTurn (s.withEnc s.enc.step) := by
  simp [step, hm, encStep]

end Sys2Proof.Machine

/-- Settles O30: the invariant shuts out a pending START and a PXPOS past the image. -/
theorem busyEngineHasExactlyOneStep : Obligations.BusyEngineHasExactlyOneStep :=
  fun _ h =>
    ⟨fun hb => enabledAction_of_body hb (h.enc.body hb).noStart (h.enc.body hb).pxpos_le,
      fun hb => enabledAction_of_body hb (h.dec.body hb).noStart (h.dec.body hb).pxpos_le⟩

/-- Settles O31: each engine's step is a function of that engine alone. -/
theorem stepsOfTheEnginesCommute : Obligations.StepsOfTheEnginesCommute := by
  intro s a b ha hb
  rw [decStep_eq] at hb
  obtain ⟨e, he, rfl⟩ := State.withEnc_eq_next.1 ha
  obtain ⟨d, hd, rfl⟩ := State.withDec_eq_next.1 hb
  refine ⟨{ s with enc := e, dec := d }, ?_, ?_, rfl, rfl⟩
  · rw [decStep_eq]
    exact State.withDec_eq_next.2 ⟨d, hd, rfl⟩
  · exact State.withEnc_eq_next.2 ⟨e, he, rfl⟩

/-- Settles O29: with no step enabled no engine moves. -/
theorem quietBlockKeepsItsState : Obligations.QuietBlockKeepsItsState :=
  fun _ heb hec hdb hdc =>
    step_of_mover_none
      (State.mover_of_none (enabledAction_of_quiet heb hec)
        (enabledAction_of_quiet hdb hdc))

namespace Sys2Proof

/-! #### What decodes, and from how many bytes (30_encoding.md R101 to R104) -/

theorem field_lt (b : Byte) (lo len : Nat) : field b lo len < 2 ^ len := (b.extractLsb' lo len).isLt

/-- A field read back through its bias (R10). -/
theorem unbias_field_bounds (b : Byte) (lo len bias : Nat) :
    -(bias : Int) ≤ unbias (field b lo len) bias ∧ unbias (field b lo len) bias < 2 ^ len - (bias : Int) := by
  have h : ((field b lo len : Nat) : Int) < ((2 ^ len : Nat) : Int) := Int.ofNat_lt.2 (field_lt b lo len)
  push_cast at h
  unfold unbias
  omega

theorem fitsTwoBits_unbias (b : Byte) (lo : Nat) : fitsTwoBits (unbias (field b lo 2) 2) = true := by
  have := unbias_field_bounds b lo 2 2
  simp only [fitsTwoBits, Bool.and_eq_true, decide_eq_true_eq]
  omega

theorem fitsFourBits_unbias (b : Byte) (lo : Nat) : fitsFourBits (unbias (field b lo 4) 8) = true := by
  have := unbias_field_bounds b lo 4 8
  simp only [fitsFourBits, Bool.and_eq_true, decide_eq_true_eq]
  omega

theorem fitsSixBits_unbias (b : Byte) (lo : Nat) : fitsSixBits (unbias (field b lo 6) 32) = true := by
  have := unbias_field_bounds b lo 6 32
  simp only [fitsSixBits, Bool.and_eq_true, decide_eq_true_eq]
  omega

/-- The two bytes that would be runs of 63 and 64 are the tags of RGB and RGBA (R98, R103). -/
theorem run_field_lt {b : Byte} (hrgb : b ≠ 0xFE) (hrgba : b ≠ 0xFF) (htag : field b 6 2 = 3) : field b 0 6 < 62 := by
  revert b
  decide

section
variable {b0 : Byte} (hrgb : b0 ≠ 0xFE) (hrgba : b0 ≠ 0xFF)
include hrgb hrgba

/-- The length a 2-bit tag names (R104). -/
theorem chunkLength_of_tag : chunkLength b0 = if field b0 6 2 = 2 then 2 else 1 := by
  rw [chunkLength, if_neg hrgb, if_neg hrgba]

theorem decodeChunk_index (htag : field b0 6 2 = 0) (bs : List Byte) :
    decodeChunk (b0 :: bs) = .ok (.index (b0.extractLsb' 0 6), bs) := by
  unfold decodeChunk
  dsimp only
  rw [if_neg hrgb, if_neg hrgba, if_pos htag]

theorem decodeChunk_diff (htag : field b0 6 2 = 1) (bs : List Byte) :
    decodeChunk (b0 :: bs) =
      .ok (.diff (unbias (field b0 4 2) 2) (unbias (field b0 2 2) 2) (unbias (field b0 0 2) 2), bs) := by
  unfold decodeChunk
  dsimp only
  rw [if_neg hrgb, if_neg hrgba, if_neg (by omega), if_pos htag]

theorem decodeChunk_luma (htag : field b0 6 2 = 2) (b1 : Byte) (bs : List Byte) :
    decodeChunk (b0 :: b1 :: bs) =
      .ok (.luma (unbias (field b0 0 6) 32) (unbias (field b1 4 4) 8) (unbias (field b1 0 4) 8), bs) := by
  unfold decodeChunk
  dsimp only
  rw [if_neg hrgb, if_neg hrgba, if_neg (by omega), if_neg (by omega), if_pos htag]

theorem decodeChunk_luma_short (htag : field b0 6 2 = 2) : decodeChunk [b0] = .error .truncated := by
  unfold decodeChunk
  dsimp only
  rw [if_neg hrgb, if_neg hrgba, if_neg (by omega), if_neg (by omega), if_pos htag]

theorem decodeChunk_run (htag : field b0 6 2 = 3) (bs : List Byte) :
    decodeChunk (b0 :: bs) = .ok (.run (field b0 0 6 + 1), bs) := by
  unfold decodeChunk
  dsimp only
  rw [if_neg hrgb, if_neg hrgba, if_neg (by omega), if_neg (by omega), if_neg (by omega)]

end

/-- A chunk that decodes from the front of some bytes: as long as its first byte says, well formed, and decoded from
its own bytes alone. -/
theorem decodeChunk_eq_ok {bs rest : List Byte} {i : Instr} (h : decodeChunk bs = .ok (i, rest)) :
    ∃ b0 tl, bs = b0 :: tl ++ rest ∧ tl.length + 1 = chunkLength b0 ∧ i.position = .chunk ∧ i.wf = true ∧
      decodeChunk (b0 :: tl) = .ok (i, []) := by
  match bs with
  | [] => cases h
  | b0 :: bs =>
    by_cases hrgb : b0 = 0xFE
    · subst hrgb
      match bs with
      | r :: g :: b :: bs =>
        obtain ⟨rfl, rfl⟩ := Prod.mk.inj (Except.ok.inj h)
        exact ⟨_, [r, g, b], rfl, rfl, rfl, rfl, rfl⟩
      | [] | [_] | [_, _] => cases h
    by_cases hrgba : b0 = 0xFF
    · subst hrgba
      match bs with
      | r :: g :: b :: a :: bs =>
        obtain ⟨rfl, rfl⟩ := Prod.mk.inj (Except.ok.inj h)
        exact ⟨_, [r, g, b, a], rfl, rfl, rfl, rfl, rfl⟩
      | [] | [_] | [_, _] | [_, _, _] => cases h
    have hlen := chunkLength_of_tag hrgb hrgba
    have htags : field b0 6 2 = 0 ∨ field b0 6 2 = 1 ∨ field b0 6 2 = 2 ∨ field b0 6 2 = 3 := by
      have := field_lt b0 6 2
      omega
    rcases htags with htag | htag | htag | htag <;> simp only [htag] at hlen
    · have hdec := decodeChunk_index hrgb hrgba htag
      obtain ⟨rfl, rfl⟩ := Prod.mk.inj (Except.ok.inj ((hdec bs).symm.trans h))
      exact ⟨b0, [], rfl, hlen.symm, rfl, rfl, hdec []⟩
    · have hdec := decodeChunk_diff hrgb hrgba htag
      obtain ⟨rfl, rfl⟩ := Prod.mk.inj (Except.ok.inj ((hdec bs).symm.trans h))
      exact ⟨b0, [], rfl, hlen.symm, rfl, by simp only [Instr.wf, fitsTwoBits_unbias]; rfl, hdec []⟩
    · match bs with
      | [] => rw [decodeChunk_luma_short hrgb hrgba htag] at h; cases h
      | b1 :: bs =>
        have hdec := decodeChunk_luma hrgb hrgba htag b1
        obtain ⟨rfl, rfl⟩ := Prod.mk.inj (Except.ok.inj ((hdec bs).symm.trans h))
        exact ⟨b0, [b1], rfl, hlen.symm, rfl, by simp only [Instr.wf, fitsFourBits_unbias, fitsSixBits_unbias]; rfl,
          hdec []⟩
    · have hdec := decodeChunk_run hrgb hrgba htag
      obtain ⟨rfl, rfl⟩ := Prod.mk.inj (Except.ok.inj ((hdec bs).symm.trans h))
      have hrun := run_field_lt hrgb hrgba htag
      exact ⟨b0, [], rfl, hlen.symm, rfl, by simp only [Instr.wf, Bool.and_eq_true, decide_eq_true_eq]; omega, hdec []⟩

/-- A header that decodes took 14 bytes (R92). -/
theorem decodeHeader_eq_ok {bs rest : List Byte} {i : Instr} (h : decodeHeader bs = .ok (i, rest)) :
    i.position = .header ∧ bs.length = 14 + rest.length := by
  unfold decodeHeader at h
  split at h
  case h_2 => cases h
  split at h
  case isFalse => cases h
  obtain ⟨rfl, rfl⟩ := Prod.mk.inj (Except.ok.inj h)
  exact ⟨rfl, by simp only [List.length_cons]; omega⟩

/-- An end marker that decodes took 8 bytes (R93). -/
theorem decodeMarker_eq_ok {bs rest : List Byte} {i : Instr} (h : decodeMarker bs = .ok (i, rest)) :
    i.position = .endMarker ∧ bs.length = 8 + rest.length := by
  unfold decodeMarker at h
  split at h
  case h_2 => cases h
  split at h
  case isFalse => cases h
  obtain ⟨rfl, rfl⟩ := Prod.mk.inj (Except.ok.inj h)
  exact ⟨rfl, by simp only [List.length_cons]; omega⟩

end Sys2Proof

namespace Sys2Proof.Machine

/-! #### The fetch of a record whose bytes stand where DEC reads -/

theorem Dec.recordAt_of_decoded {d : Dec} {p : Position} {a n : Nat} {bs : List Byte} {i : Instr}
    (hread : Memory.readBytes d.strmIn a n = some bs) (hdec : decode p bs = .ok (i, [])) :
    d.recordAt p a n = .record i := by
  simp [Dec.recordAt, hread, hdec]

/-- A header of 14 bytes at offset 0 is executed; a request that DEC rejects unread fails the operation alike (R226). -/
theorem Dec.step_of_header {d : Dec} {i : Instr} {bs : List Byte} (ha : d.action = some .start)
    (hdec : decodeHeader bs = .ok (i, [])) (hread : Memory.readBytes d.strmIn 0 bs.length = some bs) :
    d.step = d.exec i := by
  obtain ⟨hpos, hlen⟩ := decodeHeader_eq_ok hdec
  rw [hlen] at hread
  have hfetch : d.fetch = some d.fetchHeader := by rw [Dec.fetch, ha]
  cases hreq : d.requestCheck with
  | none =>
    refine Dec.step_of_record (hfetch.trans ?_)
    rw [Dec.fetchHeader, hreq]
    exact congrArg some (Dec.recordAt_of_decoded hread hdec)
  | some c =>
    have hfails : d.fetch = some (.fails c) := by rw [hfetch, Dec.fetchHeader, hreq]
    rw [Dec.step_of_fails hfails]
    cases i with
    | header w h ch cs => simp [Dec.exec, Dec.start, ha, Dec.headerCheck, hreq]
    | rgb | rgba | index | diff | luma | run | endMarker => cases hpos

/-- A chunk at IPOS that lies within the stream is executed (R182). -/
theorem Dec.step_of_chunk {d : Dec} {i : Instr} {bs : List Byte} (ha : d.action = some .body)
    (hdec : decodeChunk bs = .ok (i, [])) (hread : Memory.readBytes d.strmIn d.ipos.toNat bs.length = some bs)
    (hfits : d.ipos.toNat + bs.length ≤ d.inLen.toNat) : d.step = d.exec i := by
  obtain ⟨b0, tl, rfl, hlen, -, -, -⟩ := decodeChunk_eq_ok hdec
  simp only [List.append_nil, List.length_cons, hlen] at hdec hread hfits
  have hpos : 1 ≤ chunkLength b0 := hlen ▸ Nat.le_add_left ..
  have hb0 : Memory.read d.strmIn d.ipos.toNat = some b0 := ((Memory.readBytes_eq_some_iff ..).1 hread).2 0 hpos
  have hone : d.has 1 = true := decide_eq_true (by omega)
  have hall : d.has (chunkLength b0) = true := decide_eq_true hfits
  refine Dec.step_of_record ?_
  simp only [Dec.fetch, ha, Dec.fetchChunk, hone, hb0, hall, if_true]
  exact congrArg some (Dec.recordAt_of_decoded hread hdec)

/-- The marker at IPOS, within the stream, is executed (R228). -/
theorem Dec.step_of_marker {d : Dec} {i : Instr} {bs : List Byte} (ha : d.action = some .finish)
    (hdec : decodeMarker bs = .ok (i, [])) (hread : Memory.readBytes d.strmIn d.ipos.toNat bs.length = some bs)
    (hfits : d.ipos.toNat + 8 ≤ d.inLen.toNat) : d.step = d.exec i := by
  obtain ⟨-, hlen⟩ := decodeMarker_eq_ok hdec
  rw [hlen] at hread
  have hall : d.has Config.markerSize = true := decide_eq_true hfits
  refine Dec.step_of_record ?_
  simp only [Dec.fetch, ha, Dec.fetchMarker, hall, if_true]
  exact congrArg some (Dec.recordAt_of_decoded hread hdec)

end Sys2Proof.Machine

/-- Settles O26, by the three positions a record can stand at. -/
theorem stepRunsTheDecodedRecord : Obligations.StepRunsTheDecodedRecord := by
  intro s i bs hm hdec ha hread hchunk hmarker
  rw [step_of_mover_dec hm, exec_eq]
  congr 2
  cases hpos : i.position with
  | header =>
    rw [hpos] at hdec ha hread
    exact Dec.step_of_header ha hdec hread
  | chunk =>
    rw [hpos] at hdec ha hread
    exact Dec.step_of_chunk ha hdec hread (hchunk hpos)
  | endMarker =>
    rw [hpos] at hdec ha hread
    exact Dec.step_of_marker ha hdec hread (hmarker hpos)

/-! ### O32: a placed word of the opcode table (log entries 12, 13) -/

namespace Sys2Proof

theorem length_bytesOfNat (n w : Nat) : (bytesOfNat n w).length = n := by
  induction n generalizing w with
  | zero => rfl
  | succ n ih => simp [bytesOfNat, ih]

/-- How many bytes a word of the opcode table is laid out in, by its position (log entry 13). -/
def tableLength : Position → Nat
  | .header => 14
  | .chunk => 5
  | .endMarker => 8

theorem length_tableLayout (nbits w : Nat) :
    (tableLayout nbits w).2.length = tableLength (tableLayout nbits w).1 := by
  unfold tableLayout
  extract_lets w bytes printed
  have hbytes : bytes.length = 14 := length_bytesOfNat 14 w
  have hprinted : printed.length = 14 := by simp [printed, length_bytesOfNat, Config.magic]
  split
  · split
    · rfl
    · simp [tableLength, hbytes]
  repeat' split
  all_goals simp [tableLength, hbytes, hprinted]

end Sys2Proof

namespace Sys2Proof.Machine

theorem Memory.readBytes_writeBytes_front (m : Memory) (a : Nat) (bs cs : List Byte) :
    readBytes (writeBytes m a (bs ++ cs)) a bs.length = some bs := by
  rw [writeBytes_append, readBytes_writeBytes_outside _ _ _ _ _ (.inl le_rfl), readBytes_writeBytes]

/-- Where a chunk is placed, DEC's chunk step is enabled and the bytes fit the stream. -/
theorem Dec.withChunk_eq_place (d : Dec) {bs : List Byte} (hl : bs.length ≤ 14) :
    ∃ d0 : Dec, d.withChunk bs = d0.place bs ∧ d0.action = some .body ∧ d0.ipos.toNat + bs.length < 2 ^ 32 := by
  unfold Dec.withChunk
  split
  case isTrue h => exact ⟨d, rfl, h⟩
  case isFalse =>
    refine ⟨d.started, rfl, enabledAction_eq_body.2 ⟨rfl, ctrl_ne_one.2 rfl, Nat.zero_lt_succ 63⟩, ?_⟩
    show 14 + bs.length < 2 ^ 32
    omega

/-- Where a marker is placed, DEC's end step is enabled and the bytes fit the stream. -/
theorem Dec.withMarker_eq_place (d : Dec) {bs : List Byte} (hl : bs.length ≤ 14) :
    ∃ d0 : Dec, d.withMarker bs = d0.place bs ∧ d0.action = some .finish ∧ d0.ipos.toNat + bs.length < 2 ^ 32 := by
  unfold Dec.withMarker
  split
  case isTrue h => exact ⟨d, rfl, h⟩
  case isFalse =>
    refine ⟨_, rfl, enabledAction_eq_finish.2 ⟨rfl, ctrl_ne_one.2 rfl, rfl⟩, ?_⟩
    show 16 + bs.length < 2 ^ 32
    omega

theorem Dec.withHeader_action (d : Dec) (bs : List Byte) : (d.withHeader bs).action = some .start := by
  refine enabledAction_eq_start.2 ⟨?_, rfl⟩
  simp only [Dec.withHeader]
  split
  · decide
  · assumption

/-- DEC with a table word placed runs the record the word decodes to (R45). -/
theorem Dec.step_withWord (d : Dec) {nbits w : Nat} {i : Instr} (h : decodeTableWord nbits w = some i) :
    (d.withWord nbits w).action = some (stepOf i.position) ∧ (d.withWord nbits w).step = (d.withWord nbits w).exec i := by
  have hl := length_tableLayout nbits w
  unfold decodeTableWord at h
  unfold Dec.withWord
  generalize tableLayout nbits w = l at h hl ⊢
  obtain ⟨p, bs⟩ := l
  dsimp only at h hl
  split at h
  case h_2 => cases h
  case h_1 j rest hdec =>
    obtain rfl := Option.some.inj h
    cases p <;> dsimp only
    case header =>
      obtain ⟨hpos, hlen⟩ := decodeHeader_eq_ok hdec
      obtain rfl : rest = [] := List.eq_nil_of_length_eq_zero (by simp only [tableLength] at hl; omega)
      have ha := d.withHeader_action bs
      exact ⟨by rw [hpos]; exact ha, Dec.step_of_header ha hdec (Memory.readBytes_writeBytes ..)⟩
    case chunk =>
      obtain ⟨b0, tl, rfl, hlen, hpos, -, hdec⟩ := decodeChunk_eq_ok hdec
      obtain ⟨d0, hd, ha, hw⟩ := d.withChunk_eq_place (hl.trans_le (by decide))
      rw [hd]
      refine ⟨by rw [hpos]; exact ha, Dec.step_of_chunk ha hdec (Memory.readBytes_writeBytes_front ..) ?_⟩
      rw [Dec.place_inLen, toNat_cursorAdd hw, List.length_append]
      exact Nat.add_le_add_left (Nat.le_add_right ..) _
    case endMarker =>
      obtain ⟨hpos, hlen⟩ := decodeMarker_eq_ok hdec
      obtain rfl : rest = [] := List.eq_nil_of_length_eq_zero (by simp only [tableLength] at hl; omega)
      obtain ⟨d0, hd, ha, hw⟩ := d.withMarker_eq_place (hl.trans_le (by decide))
      rw [hd]
      refine ⟨by rw [hpos]; exact ha, Dec.step_of_marker ha hdec (Memory.readBytes_writeBytes ..) ?_⟩
      rw [Dec.place_inLen, toNat_cursorAdd hw, hlen]
      exact le_rfl

end Sys2Proof.Machine

/-- Settles O32: the record stands where DEC's enabled step reads, and it is DEC's turn. -/
theorem placedTableWordRunsNext : Obligations.PlacedTableWordRunsNext := by
  intro s nbits w i h
  obtain ⟨ha, hstep⟩ := s.dec.step_withWord h
  refine ⟨?_, exec_of_enabled ha⟩
  rw [step_of_mover_dec (State.mover_of_turn_dec rfl ha),
    exec_eq]
  exact congrArg (fun o => passTurn ((s.withFetchWord nbits w).withDec o)) hstep

/-! ### O44 to O48, O50, O51: the host's port and the reachable states (10_state.md R34, R38, R41, R47) -/

namespace Sys2Proof.Machine

/-! #### STATUS as a word (R38) -/

/-- The fields of a word put together as `Status.word` does. -/
theorem statusFields_extract (c : BitVec 2) (e : BitVec 4) (p : BitVec 2) :
    ((0#6 ++ c ++ e ++ 0#2 ++ p).extractLsb' 0 2 = p ∧ (0#6 ++ c ++ e ++ 0#2 ++ p).extractLsb' 2 2 = 0 ∧
      (0#6 ++ c ++ e ++ 0#2 ++ p).extractLsb' 4 4 = e ∧ (0#6 ++ c ++ e ++ 0#2 ++ p).extractLsb' 8 2 = c ∧
      (0#6 ++ c ++ e ++ 0#2 ++ p).extractLsb' 10 6 = 0) := by
  revert c e p
  decide

/-- The code in STATUS.ERR: 0 for no cause (R250). -/
def causeCode : Option Cause → BitVec 4
  | none => 0
  | some c => c.code

theorem Status.word_fields (t : Status) :
    t.word.extractLsb' 0 2 = t.phase.code ∧ t.word.extractLsb' 2 2 = 0 ∧ t.word.extractLsb' 4 4 = causeCode t.err ∧
      t.word.extractLsb' 8 2 = t.eclass.code ∧ t.word.extractLsb' 10 6 = 0 := by
  obtain ⟨phase, err, eclass⟩ := t
  cases err with
  | none => exact statusFields_extract eclass.code 0 phase.code
  | some c => exact statusFields_extract eclass.code c.code phase.code

end Sys2Proof.Machine

/-- Settles O44: the word's fields are the codes of STATUS's three parts. -/
theorem statusWordHasTheFieldsOfItsTable : Obligations.StatusWordHasTheFieldsOfItsTable := by
  refine ⟨fun t => ?_, by decide, by decide⟩
  obtain ⟨hphase, hlow, herr, hclass, hhigh⟩ := t.word_fields
  refine ⟨hphase.trans ?_, hlow, herr.trans ?_, hclass.trans ?_, hhigh⟩
  · cases t.phase <;> rfl
  · rcases t.err with - | c
    · rfl
    · cases c <;> rfl
  · cases t.eclass <;> rfl

namespace Sys2Proof.Machine

/-! #### Host reads (R41) -/

@[simp] theorem resultOrFree_true (v : BitVec 32) (s : State) : resultOrFree true v s = (v, s) := rfl

theorem byteOrFree_of_read {m : Memory} {off len : U32} {b : Byte} (hlt : off.toNat < len.toNat)
    (h : Memory.read m off.toNat = some b) (s : State) : byteOrFree true m off len s = (b.setWidth 32, s) := by
  simp [byteOrFree, hlt, h]

theorem Enc.resultsValid_of_done {e : Enc} (hp : e.status.phase = .done) (hc : e.ctrl = 0) : e.resultsValid = true :=
  decide_eq_true ⟨hp, hc⟩

theorem Dec.resultsValid_of_done {d : Dec} (hp : d.status.phase = .done) (hc : d.ctrl = 0) : d.resultsValid = true :=
  decide_eq_true ⟨hp, hc⟩

/-- With no START pending the host reads STATUS as it stands. -/
theorem statusRead_of_quiet {t : Status} {c : BitVec 1} (h : c = 0) :
    (visibleStatus t c).word.setWidth 32 = t.word.setWidth 32 := by
  rw [visibleStatus, if_neg (ctrl_ne_one.2 h)]

/-- While a START is pending the host reads BODY with no cause and no class (log entry 3). -/
theorem statusRead_of_pending {t : Status} {c : BitVec 1} (h : c = 1) : (visibleStatus t c).word.setWidth 32 = 1 := by
  rw [visibleStatus, if_pos h]
  decide

end Sys2Proof.Machine

/-- Settles O45: results are valid when DONE with no START pending, and CTRL and STATUS never draw a free value. -/
theorem resultsReadBackWhenDone : Obligations.ResultsReadBackWhenDone := by
  intro s
  refine ⟨⟨rfl, rfl, ?_, ?_, ?_, ?_⟩, fun hp hc => ?_, fun hp hc => ?_⟩
  · exact fun h => congrArg (·, s) (statusRead_of_quiet h)
  · exact fun h => congrArg (·, s) (statusRead_of_pending h)
  · exact fun h => congrArg (·, s) (statusRead_of_quiet h)
  · exact fun h => congrArg (·, s) (statusRead_of_pending h)
  · have hv := Dec.resultsValid_of_done hp hc
    simp only [hostRead, hv, resultOrFree_true, true_and]
    exact fun off b hlt hb => byteOrFree_of_read hlt hb s
  · have hv := Enc.resultsValid_of_done hp hc
    simp only [hostRead, hv, resultOrFree_true, true_and]
    exact fun off b hlt hb => byteOrFree_of_read hlt hb s

namespace Sys2Proof.Machine

/-! #### Host writes (R34) -/

theorem Enc.busy_iff (e : Enc) : e.busy = true ↔ e.status.phase = .body ∨ e.ctrl = 1 := decide_eq_true_iff

theorem Dec.busy_iff (d : Dec) : d.busy = true ↔ d.status.phase = .body ∨ d.ctrl = 1 := decide_eq_true_iff

theorem Enc.phase_ne_body_of_quiet {e : Enc} (h : e.busy = false) : e.status.phase ≠ .body :=
  fun hb => Bool.false_ne_true (h.symm.trans ((Enc.busy_iff e).2 (.inl hb)))

theorem Dec.phase_ne_body_of_quiet {d : Dec} (h : d.busy = false) : d.status.phase ≠ .body :=
  fun hb => Bool.false_ne_true (h.symm.trans ((Dec.busy_iff d).2 (.inl hb)))

end Sys2Proof.Machine

/-- Settles O46, by the cases of the write. -/
theorem hostWritesWaitForAQuietEngine : Obligations.HostWritesWaitForAQuietEngine := by
  intro w s
  refine ⟨s.enc.busy_iff, s.dec.busy_iff, fun hq => ?_, fun hb => ?_⟩
  · have hw := hostWrite_of_quiet hq
    cases w with
    | encWidth | encHeight | encChannels | encColorspace | encDescValid | encPixLen | decReqch | decInLen => exact hw
    | encCtrl v =>
      exact ⟨_, hw, rfl, fun hv => enabledAction_eq_start.2
        ⟨Enc.phase_ne_body_of_quiet (e := s.enc) hq, hv⟩⟩
    | decCtrl v =>
      exact ⟨_, hw, rfl, fun hv => enabledAction_eq_start.2
        ⟨Dec.phase_ne_body_of_quiet (d := s.dec) hq, hv⟩⟩
    | encPixIn off v | decStrmIn off v =>
      exact ⟨_, hw, rfl, Memory.read_write_same ..,
        fun a ha => Memory.read_write_other _ _ ha.symm⟩
  · rw [hostWrite_of_busy hb]
    cases w.isStart <;> rfl

/-- Settles O47: no operation runs and no START is pending in the reset state. -/
theorem resetLeavesAQuietBlock : Obligations.ResetLeavesAQuietBlock :=
  ⟨rfl, rfl, rfl, rfl, rfl, rfl, rfl⟩

namespace Sys2Proof.Machine

/-! #### The invariant at reset and after the host's moves (R47) -/

theorem Status.coherent_reset : Status.reset.Coherent := ⟨fun h => (by cases h), fun _ => ⟨rfl, rfl⟩⟩

theorem Enc.inv_reset : Enc.reset.Inv where
  status := Status.coherent_reset
  causes := fun _ h => by cases h
  pixIn := .nil
  strmOut := .nil
  run_le := Nat.zero_le _
  pxpos_lt := by decide
  opos_lt := by decide
  body := fun h => by cases h

theorem Dec.inv_reset : Dec.reset.Inv where
  status := Status.coherent_reset
  causes := fun _ h => by cases h
  strmIn := .nil
  pixOut := .nil
  pxpos_lt := by decide
  opos_lt := by decide
  body := fun h => by cases h
  done := fun h => by cases h

end Sys2Proof.Machine

/-- Settles O48, engine by engine. -/
theorem invariantHoldsAtReset : Obligations.InvariantHoldsAtReset :=
  ⟨Enc.inv_reset, Dec.inv_reset⟩

namespace Sys2Proof.Machine

/-- A host write finds its engine outside BODY, where the invariant speaks of no input but the form of the spaces. -/
theorem State.Inv.hostWrite {s t : State} (h : s.Inv) {w : HostWrite} (hw : hostWrite w s = .next t) : t.Inv := by
  obtain ⟨hq, rfl⟩ := hostWrite_eq_next.1 hw
  obtain ⟨henc, hdec⟩ := h
  cases w with
  | encCtrl | encWidth | encHeight | encChannels | encColorspace | encDescValid | encPixLen =>
    exact ⟨{ henc with body := fun hb => absurd hb (Enc.phase_ne_body_of_quiet (e := s.enc) hq) }, hdec⟩
  | encPixIn off v =>
    exact ⟨{ henc with
      pixIn := Memory.wf_write henc.pixIn ..
      body := fun hb => absurd hb (Enc.phase_ne_body_of_quiet (e := s.enc) hq) }, hdec⟩
  | decCtrl | decReqch | decInLen =>
    exact ⟨henc, { hdec with
      body := fun hb => absurd hb (Dec.phase_ne_body_of_quiet (d := s.dec) hq)
      done := fun hd => { hdec.done hd with } }⟩
  | decStrmIn off v =>
    exact ⟨henc, { hdec with
      strmIn := Memory.wf_write hdec.strmIn ..
      body := fun hb => absurd hb (Dec.phase_ne_body_of_quiet (d := s.dec) hq)
      done := fun hd => { hdec.done hd with } }⟩

theorem resultOrFree_engines (valid : Bool) (v : BitVec 32) (s : State) :
    (resultOrFree valid v s).2.enc = s.enc ∧ (resultOrFree valid v s).2.dec = s.dec := by
  cases valid <;> exact ⟨rfl, rfl⟩

theorem byteOrFree_engines (valid : Bool) (m : Memory) (off len : U32) (s : State) :
    (byteOrFree valid m off len s).2.enc = s.enc ∧ (byteOrFree valid m off len s).2.dec = s.dec := by
  unfold byteOrFree
  split <;> exact ⟨rfl, rfl⟩

/-- A host read draws at most a free value (log entry 9). -/
theorem hostRead_engines (r : HostRead) (s : State) : (hostRead r s).2.enc = s.enc ∧ (hostRead r s).2.dec = s.dec := by
  cases r with
  | encCtrl | encStatus | decCtrl | decStatus => exact ⟨rfl, rfl⟩
  | encByteCount | decWidth | decHeight | decChannels | decColorspace | decOch | decOutLen =>
    exact resultOrFree_engines ..
  | encStrmOut | decPixOut => exact byteOrFree_engines ..

theorem State.Inv.hostRead {s : State} (h : s.Inv) (r : HostRead) : (hostRead r s).2.Inv := by
  obtain ⟨he, hd⟩ := hostRead_engines r s
  exact ⟨he ▸ h.enc, hd ▸ h.dec⟩

theorem State.inv_powerReset (s : State) : (powerReset s).Inv := ⟨Enc.inv_reset, Dec.inv_reset⟩

end Sys2Proof.Machine

/-- Settles O50, move by move. -/
theorem hostMovesKeepTheInvariant : Obligations.HostMovesKeepTheInvariant :=
  fun s h => ⟨fun _ _ hw => h.hostWrite hw, fun r => h.hostRead r, s.inv_powerReset⟩

namespace Sys2Proof.Machine

/-! #### Every reached state (R279) -/

theorem Reachable.inv {s : State} (h : Reachable s) : s.Inv := by
  induction h with
  | reset => exact ⟨Enc.inv_reset, Dec.inv_reset⟩
  | step _ hs ih => exact (step_next_cases hs).inv ih
  | write _ _ hw ih => exact ih.hostWrite hw
  | read r _ ih => exact ih.hostRead r
  | power => exact State.inv_powerReset _

theorem Cause.codes_of_ofEnc {c : Cause} (h : c.ofEnc = true) :
    c.code ∈ [1#4, 2#4, 3#4, 4#4, 5#4, 6#4, 11#4] ∧ c.eclass.code = 1#2 := by
  revert h
  cases c <;> decide

theorem Cause.codes_of_ofDec {c : Cause} (h : c.ofDec = true) :
    c.code ∈ [1#4, 3#4, 4#4, 5#4, 6#4, 7#4, 8#4, 9#4, 10#4] ∧ c.eclass.code ∈ [1#2, 2#2] := by
  revert h
  cases c <;> decide

theorem Status.word_of_err {t : Status} {c : Cause} (herr : t.err = some c) (hclass : t.eclass = c.eclass) :
    t.word.extractLsb' 4 4 = c.code ∧ t.word.extractLsb' 8 2 = c.eclass.code := by
  obtain ⟨-, -, he, hc, -⟩ := t.word_fields
  exact ⟨he.trans (congrArg causeCode herr), hc.trans (congrArg EClass.code hclass)⟩

/-- Outside FAILED the word names no cause and no class (R279 (b)). -/
theorem Status.Coherent.word_of_not_failed {t : Status} (h : t.Coherent) (hp : t.phase ≠ .failed) :
    t.word.extractLsb' 4 4 = 0 ∧ t.word.extractLsb' 8 2 = 0 := by
  obtain ⟨herr, hclass⟩ := h.2 hp
  obtain ⟨-, -, he, hc, -⟩ := t.word_fields
  exact ⟨he.trans (congrArg causeCode herr), hc.trans (congrArg EClass.code hclass)⟩

end Sys2Proof.Machine

/-- Settles O51: every reached state meets the invariant. -/
theorem reachedStatesReportOnlyTheirCauses : Obligations.ReachedStatesReportOnlyTheirCauses := by
  intro s hs
  obtain ⟨he, hd⟩ := hs.inv
  refine ⟨fun hp => ?_, he.status.word_of_not_failed, fun hp => ?_, hd.status.word_of_not_failed⟩
  · obtain ⟨c, herr, hclass⟩ := he.status.1 hp
    obtain ⟨hw, hwc⟩ := Status.word_of_err herr hclass
    rw [hw, hwc]
    exact Cause.codes_of_ofEnc (he.causes c herr)
  · obtain ⟨c, herr, hclass⟩ := hd.status.1 hp
    obtain ⟨hw, hwc⟩ := Status.word_of_err herr hclass
    rw [hw, hwc]
    exact Cause.codes_of_ofDec (hd.causes c herr)

/-! ### O52, O54: operations end (10_state.md R45; 70_reset_and_hazards.md R311) -/

namespace Sys2Proof.Machine

/-! #### Runs -/

theorem runs_zero (s : State) : runs 0 s s := rfl

theorem coreRun_succ_iff (M : Host.Core) {k : Nat} {s t : M.State} :
    M.run (k + 1) s = .next t ↔ ∃ u, M.step s = .next u ∧ M.run k u = .next t := by
  rw [Host.Core.run]
  cases M.step s with
  | next u => simp
  | fault _ | refused _ => simp

theorem runs_succ_iff {k : Nat} {s t : State} : runs (k + 1) s t ↔ ∃ u, step s = .next u ∧ runs k u t :=
  coreRun_succ_iff Sys2Proof.core

theorem runs_one {s t : State} (h : step s = .next t) : runs 1 s t := runs_succ_iff.2 ⟨t, h, runs_zero t⟩

/-! #### DEC's fetch from a stream that is wholly placed -/

theorem Memory.Holds.readBytes {m : Memory} {n a k : Nat} (h : m.Holds n) (hk : a + k ≤ n) :
    ∃ bs, m.readBytes a k = some bs :=
  Memory.readBytes_of_read fun i hi => h (a + i) (by omega)

/-- The operands of the framing records take every value (R108). -/
theorem Instr.wf_of_not_chunk {i : Instr} (h : i.position ≠ .chunk) : i.wf = true := by
  cases i with
  | header | endMarker => rfl
  | rgb | rgba | index | diff | luma | run => exact absurd rfl h

theorem Dec.recordAt_eq_record {d : Dec} {p : Position} {a n : Nat} {i : Instr} (h : d.recordAt p a n = .record i) :
    i.position = p ∧ i.wf = true := by
  unfold Dec.recordAt at h
  split at h
  case h_1 => cases h
  split at h
  case h_2 => cases h
  case h_1 bs _ j rest hdec =>
    obtain rfl := Fetched.record.inj h
    cases p with
    | header =>
      obtain ⟨hpos, -⟩ := decodeHeader_eq_ok hdec
      exact ⟨hpos, Instr.wf_of_not_chunk (by rw [hpos]; decide)⟩
    | chunk =>
      obtain ⟨-, -, -, -, hpos, hwf, -⟩ := decodeChunk_eq_ok hdec
      exact ⟨hpos, hwf⟩
    | endMarker =>
      obtain ⟨hpos, -⟩ := decodeMarker_eq_ok hdec
      exact ⟨hpos, Instr.wf_of_not_chunk (by rw [hpos]; decide)⟩

/-- A record that DEC fetches is well formed and the one its enabled step executes (R45). -/
theorem Dec.fetch_eq_record {d : Dec} {i : Instr} (h : d.fetch = some (.record i)) :
    d.action = some (stepOf i.position) ∧ i.wf = true := by
  cases ha : d.action with
  | none => simp [Dec.fetch, ha] at h
  | some a =>
    cases a with
    | clash => simp [Dec.fetch, ha] at h
    | start =>
      obtain ⟨hpos, hwf⟩ := Dec.recordAt_eq_record (Dec.recordAt_of_fetch_start ha h)
      exact ⟨by rw [hpos]; rfl, hwf⟩
    | body =>
      simp only [Dec.fetch, ha, Option.some.injEq] at h
      unfold Dec.fetchChunk at h
      repeat' split at h
      case h_2.isTrue =>
        obtain ⟨hpos, hwf⟩ := Dec.recordAt_eq_record h
        exact ⟨by rw [hpos]; rfl, hwf⟩
      all_goals cases h
    | finish =>
      simp only [Dec.fetch, ha, Option.some.injEq, Dec.fetchMarker, if_true] at h
      split at h
      case isTrue =>
        obtain ⟨hpos, hwf⟩ := Dec.recordAt_eq_record h
        exact ⟨by rw [hpos]; rfl, hwf⟩
      case isFalse => cases h

theorem Dec.recordAt_ne_absent {d : Dec} (hp : d.strmIn.Holds d.inLen.toNat) {a n : Nat} (hn : a + n ≤ d.inLen.toNat)
    (p : Position) : d.recordAt p a n ≠ .absent := by
  obtain ⟨bs, hbs⟩ := hp.readBytes hn
  simp only [Dec.recordAt, hbs]
  split <;> simp

/-- DEC never looks past IN_LEN (R43), so no byte it reads is absent. -/
theorem Dec.fetch_ne_absent {d : Dec} (hp : d.strmIn.Holds d.inLen.toNat) : d.fetch ≠ some .absent := by
  unfold Dec.fetch
  split
  · unfold Dec.fetchHeader
    split
    · simp
    case h_2 hreq =>
      have hn := (Dec.requestCheck_eq_none.1 hreq).2
      exact fun h => Dec.recordAt_ne_absent hp (by simpa using hn) _ (Option.some.inj h)
  · unfold Dec.fetchChunk
    split
    case isTrue hone =>
      have hn : d.ipos.toNat + 1 ≤ d.inLen.toNat := of_decide_eq_true hone
      obtain ⟨b0, hb0⟩ := hp d.ipos.toNat hn
      rw [hb0]
      dsimp only
      split
      case isTrue hall => exact fun h => Dec.recordAt_ne_absent hp (of_decide_eq_true hall) _ (Option.some.inj h)
      case isFalse => simp
    case isFalse => simp
  · simp only [Dec.fetchMarker, if_true]
    split
    case isTrue hall => exact fun h => Dec.recordAt_ne_absent hp (of_decide_eq_true hall) _ (Option.some.inj h)
    case isFalse => simp
  · simp
  · simp

theorem Dec.fetch_ne_none {d : Dec} {a : Action} (ha : d.action = some a) (hc : a ≠ .clash) : d.fetch ≠ none := by
  unfold Dec.fetch
  rw [ha]
  cases a with
  | clash => exact absurd rfl hc
  | start | body | finish => simp

/-- With the whole stream placed, DEC's enabled step answers a next state. -/
theorem Dec.step_answers {d : Dec} {a : Action} (ha : d.action = some a) (hc : a ≠ .clash)
    (hp : d.strmIn.Holds d.inLen.toNat) : ∃ d', d.step = .next d' := by
  cases hf : d.fetch with
  | none => exact absurd hf (Dec.fetch_ne_none ha hc)
  | some f =>
    cases f with
    | absent => exact absurd hf (Dec.fetch_ne_absent hp)
    | fails c => exact ⟨_, Dec.step_of_fails hf⟩
    | record i =>
      rw [Dec.step_of_record hf]
      exact (d.exec_enabled i).1 (Dec.fetch_eq_record hf).1

/-- What DEC's enabled step can do from a stream that is wholly placed. -/
inductive DecodeStep (s t : State) : Prop where
  | fails (c : Cause) (eq : t = { s with dec := s.dec.fail c }.passTurn)
  | did (i : Instr) (d : Dec) (fetched : s.dec.fetch = some (.record i)) (did : ExecOutcome i s.dec d)
      (eq : t = { s with dec := d }.passTurn)

theorem step_of_dec {s : State} {a : Action} (he : s.enc.action = none) (ha : s.dec.action = some a) (hc : a ≠ .clash)
    (hp : s.dec.strmIn.Holds s.dec.inLen.toNat) : ∃ t, step s = .next t ∧ DecodeStep s t := by
  have hm := State.mover_of_dec he ha
  obtain ⟨d, hd⟩ := Dec.step_answers ha hc hp
  have hs : step s = .next { s with dec := d }.passTurn := by rw [step_of_mover_dec hm, hd]; rfl
  refine ⟨_, hs, ?_⟩
  cases step_next_cases hs with
  | idle mover => exact absurd (hm.symm.trans mover) (by decide)
  | enc _ mover => exact absurd (hm.symm.trans mover) (by decide)
  | record i d' _ fetched did eq => exact .did i d' fetched did eq
  | fails c _ _ eq => exact .fails c eq

/-- A running decode operation with `m` pixels missing ends within `m + 1` steps: each chunk brings at least one. -/
theorem decode_ends_of_body (m : Nat) (s : State) (he : s.enc.action = none) (hb : s.dec.status.phase = .body)
    (h : s.dec.BodyInv) (hp : s.dec.strmIn.Holds s.dec.inLen.toNat) (hm : s.dec.pixels = s.dec.pxpos.toNat + m) :
    ∃ k t, runs k s t ∧ t.dec.status.ended ∧ t.dec.ctrl = 0 ∧ t.dec.pixels = s.dec.pixels ∧ k ≤ m + 1 := by
  induction m using Nat.strong_induction_on generalizing s with
  | _ m ih =>
  have ha := enabledAction_of_body hb h.noStart h.pxpos_le
  obtain ⟨t, hs, hdid⟩ := step_of_dec he ha (by split <;> decide) hp
  have hone : 1 ≤ m + 1 := Nat.le_add_left 1 m
  cases hdid with
  | fails c eq => exact ⟨1, t, runs_one hs, eq ▸ .inr rfl, eq ▸ rfl, eq ▸ rfl, hone⟩
  | did i d fetched did eq =>
    subst eq
    cases did with
    | failed c _ _ eq => exact ⟨1, _, runs_one hs, eq ▸ .inr rfl, eq ▸ rfl, eq ▸ rfl, hone⟩
    | finished _ _ _ eq => exact ⟨1, _, runs_one hs, eq ▸ .inl rfl, eq ▸ h.noStart, eq ▸ rfl, hone⟩
    | begun _ _ _ _ _ enabled => exact absurd hb (enabledAction_eq_start.1 enabled).1
    | chunk cur n ins _ _ fits clipped hsome eq =>
      have hn : 1 ≤ n := hsome (Dec.fetch_eq_record fetched).2
      have hpx : (cursorAdd s.dec.pxpos n).toNat = s.dec.pxpos.toNat + n := by
        have := h.pixels_le
        exact toNat_cursorAdd (by omega)
      subst eq
      obtain ⟨k, t, hrun, hend, hctrl, hpixels, hk⟩ :=
        ih (m - n) (by omega) { s with dec := s.dec.retire i.length cur n ins }.passTurn he (by simpa using hb)
          (h.retire cur ins fits clipped) (by simpa using hp)
          (by simp only [State.passTurn_dec, Dec.retire_pixels, Dec.retire_pxpos, hpx]; omega)
      exact ⟨k + 1, t, runs_succ_iff.2 ⟨_, hs, hrun⟩, hend, hctrl, hpixels.trans (by simp), by omega⟩

end Sys2Proof.Machine

/-- Settles O52: the start step fails, or begins an operation with all of its pixels missing. -/
theorem everyDecodeOperationEnds : Obligations.EveryDecodeOperationEnds := by
  intro s he ha hp
  obtain ⟨t, hs, hdid⟩ := step_of_dec he ha (by decide) hp
  have hone (n : Nat) : 1 ≤ n + 2 := by omega
  cases hdid with
  | fails c eq => exact ⟨1, t, runs_one hs, eq ▸ .inr rfl, eq ▸ rfl, hone _⟩
  | did i d fetched did eq =>
    subst eq
    cases did with
    | failed c _ _ eq => exact ⟨1, _, runs_one hs, eq ▸ .inr rfl, eq ▸ rfl, hone _⟩
    | finished _ enabled => exact absurd (ha.symm.trans enabled) (by decide)
    | chunk _ _ _ _ enabled => exact absurd (ha.symm.trans enabled) (by decide)
    | begun w h c cs is _ accepted eq =>
      subst is eq
      have hbody := Dec.BodyInv.begin accepted (Dec.recordAt_of_fetch_start ha fetched)
      obtain ⟨k, t, hrun, hend, hctrl, hpixels, hk⟩ :=
        decode_ends_of_body _ { s with dec := s.dec.begin w h c cs }.passTurn he rfl hbody hp
          (Nat.zero_add _).symm
      exact ⟨k + 1, t, runs_succ_iff.2 ⟨_, hs, hrun⟩, hend, hctrl,
        Nat.succ_le_succ (hk.trans_eq (congrArg (· + 1) hpixels.symm))⟩

namespace Sys2Proof.Machine

/-! #### ENC -/

/-- A running encode operation whose pixels are wholly placed. -/
structure Enc.Running (e : Enc) : Prop where
  busy : e.status.phase = .body
  noStart : e.ctrl = 0
  accepted : e.startCheck = none
  placed : e.pixIn.Holds e.pixLen.toNat

namespace Enc.Running

theorem begin {e : Enc} (accepted : e.startCheck = none) (placed : e.pixIn.Holds e.pixLen.toNat) : e.begin.Running :=
  ⟨rfl, rfl, accepted, placed⟩

theorem pixel {e : Enc} (h : e.Running) (cur : Pixel) : (e.pixel cur).Running := by
  rw [Enc.pixel_frame]
  exact ⟨h.busy, h.noStart, h.accepted, h.placed⟩

/-- While pixels are missing the next one is placed (R142). -/
theorem fetches {e : Enc} (h : e.Running) (hlt : e.pxpos.toNat < e.pixels) : ∃ cur, e.fetch = some cur := by
  obtain ⟨-, -, hd, hlen⟩ := Enc.startCheck_eq_none.1 h.accepted
  obtain ⟨-, -, hc, -, -⟩ := descriptorCheck_eq_none.1 hd
  have hbytes : e.pixelBytes = e.channels.toNat := by
    rcases hc with hc | hc <;> rw [Enc.pixelBytes, hc] <;> rfl
  have hfit : e.pixelBytes * e.pxpos.toNat + e.pixelBytes ≤ e.pixLen.toNat := by
    rw [hbytes, hlen, Nat.mul_comm e.pixels, ← Nat.mul_succ]
    exact Nat.mul_le_mul_left _ hlt
  obtain ⟨bs, hbs⟩ := h.placed.readBytes hfit
  exact ⟨Pixel.ofBytes e.prev bs, by rw [Enc.fetch, hbs]⟩

/-- While pixels are missing ENC's step is the pixel step (R45). -/
theorem step_pixel {e : Enc} (h : e.Running) (hlt : e.pxpos.toNat < e.pixels) :
    e.action = some .body ∧ ∃ cur, e.step = .next (e.pixel cur) := by
  have ha : e.action = some .body := enabledAction_eq_body.2 ⟨h.busy, ctrl_ne_one.2 h.noStart, hlt⟩
  obtain ⟨cur, hcur⟩ := h.fetches hlt
  exact ⟨ha, cur, by simp [Enc.step, ha, Enc.pixelStep, hcur]⟩

/-- After the last pixel ENC's step is the end step (R45). -/
theorem step_finish {e : Enc} (h : e.Running) (hlast : e.pxpos.toNat = e.pixels) :
    e.action = some .finish ∧ e.step = .next e.finish := by
  have ha : e.action = some .finish := enabledAction_eq_finish.2 ⟨h.busy, ctrl_ne_one.2 h.noStart, hlast⟩
  exact ⟨ha, by simp [Enc.step, ha]⟩

end Enc.Running

theorem step_of_enc {s : State} {a : Action} {e : Enc} (hd : s.dec.action = none) (ha : s.enc.action = some a)
    (he : s.enc.step = .next e) : step s = .next { s with enc := e }.passTurn := by
  rw [step_of_mover_enc (State.mover_of_enc ha hd), he]
  rfl

/-- A running encode operation with `m` pixels missing stays in BODY for `m` steps and is DONE after one more. -/
theorem encode_ends_of_running (m : Nat) (s : State) (hd : s.dec.action = none) (h : s.enc.Running)
    (hm : s.enc.pixels = s.enc.pxpos.toNat + m) :
    (∀ k ≤ m, ∃ u, runs k s u ∧ u.enc.status.phase = .body) ∧ ∃ t, runs (m + 1) s t ∧ t.enc.status.phase = .done := by
  induction m generalizing s with
  | zero =>
    obtain ⟨ha, he⟩ := h.step_finish hm.symm
    refine ⟨fun k hk => ?_, _, runs_one (step_of_enc hd ha he), rfl⟩
    obtain rfl := Nat.le_zero.1 hk
    exact ⟨s, runs_zero s, h.busy⟩
  | succ m ih =>
    obtain ⟨ha, cur, he⟩ := h.step_pixel (by omega)
    have hs := step_of_enc hd ha he
    have hpx : (s.enc.pixel cur).pxpos.toNat = s.enc.pxpos.toNat + 1 := by
      have := Enc.pixels_le_of_accepted h.accepted
      rw [Enc.pixel_pxpos, toNat_cursorAdd (by omega)]
    have hpixels : (s.enc.pixel cur).pixels = s.enc.pixels := by
      rw [Enc.pixel_frame]
      rfl
    obtain ⟨hbusy, t, ht, hdone⟩ := ih { s with enc := s.enc.pixel cur }.passTurn hd (h.pixel cur) (by
      simp only [State.passTurn_enc, hpixels, hpx]
      omega)
    refine ⟨fun k hk => ?_, t, runs_succ_iff.2 ⟨_, hs, ht⟩, hdone⟩
    cases k with
    | zero => exact ⟨s, runs_zero s, h.busy⟩
    | succ k =>
      obtain ⟨u, hu, hb⟩ := hbusy k (by omega)
      exact ⟨u, runs_succ_iff.2 ⟨_, hs, hu⟩, hb⟩

end Sys2Proof.Machine

/-- Settles O54: the start step fails, or begins an operation with all of its pixels missing. -/
theorem everyEncodeOperationEnds : Obligations.EveryEncodeOperationEnds := by
  intro s hd ha hp
  have he : s.enc.step = .next s.enc.start := by simp [Enc.step, ha]
  have hs := step_of_enc hd ha he
  constructor
  · intro hcheck
    obtain ⟨c, hc⟩ := Option.ne_none_iff_exists'.1 hcheck
    refine ⟨_, runs_one hs, ?_⟩
    simp [Enc.start, hc]
  · intro hcheck
    have hbegin : s.enc.start = s.enc.begin := by simp [Enc.start, hcheck]
    rw [hbegin] at hs
    obtain ⟨hbusy, t, ht, hdone⟩ :=
      encode_ends_of_running _ { s with enc := s.enc.begin }.passTurn hd
        (Enc.Running.begin hcheck hp) (Nat.zero_add _).symm
    refine ⟨fun k hk hkn => ?_, t, runs_succ_iff.2 ⟨_, hs, ht⟩, hdone⟩
    obtain ⟨k, rfl⟩ := Nat.exists_eq_add_of_le' hk
    obtain ⟨u, hu, hb⟩ := hbusy k (Nat.le_of_succ_le_succ hkn)
    exact ⟨u, runs_succ_iff.2 ⟨_, hs, hu⟩, hb⟩

end

section

open Sys2Proof Sys2Proof.Machine

/-! ### O13: the canonical form of a byte space (20_memory.md R60; log entry 5) -/

namespace Sys2Proof.Machine

/-- In canonical form the cells of a space are exactly what its offsets read. -/
theorem Memory.mem_iff_read {m : Memory} (h : m.wf) (a : Nat) (b : Byte) : (a, b) ∈ m ↔ Memory.read m a = some b := by
  induction m with
  | nil => simp [Memory.read]
  | cons x m ih =>
    obtain ⟨k, v⟩ := x
    obtain ⟨hk, hm⟩ := List.pairwise_cons.1 h
    rw [List.mem_cons, ih hm, Memory.read]
    by_cases heq : k = a
    · subst heq
      simp [Memory.read_eq_none_of_lt hk, eq_comm]
    · simp [heq, Ne.symm heq]

end Sys2Proof.Machine

/-- Settles O13: spaces that read alike have the same cells, and strictly rising offsets leave one order for them. -/
theorem canonicalSpacesThatReadAlikeAreEqual : Obligations.CanonicalSpacesThatReadAlikeAreEqual := by
  intro m m' h h' hread
  have : Std.Irrefl fun x y : Host.Cell => x.1 < y.1 := ⟨fun x => Nat.lt_irrefl x.1⟩
  have : Std.Antisymm fun x y : Host.Cell => x.1 < y.1 := ⟨fun x y hxy hyx => absurd hxy (Nat.lt_asymm hyx)⟩
  exact h.eq_of_mem_iff h' fun x => by rw [Memory.mem_iff_read h, Memory.mem_iff_read h', hread]

/-! ### O42: what a pixel step emits (41_chunk_encoder.md R143, R158) -/

namespace Sys2Proof.Machine

/-- The bytes the equal path emits: the grown run, at 62 and at the last pixel (R145). -/
def Enc.samePathBytes (e : Enc) : List Byte :=
  if e.run.toNat + 1 = 62 ∨ e.pxpos.toNat + 1 = e.pixels then encode (.run (e.run + 1).toNat) else []

/-- The bytes a pending run puts before the pixel's own chunk (R147). -/
def Enc.pendingBytes (e : Enc) : List Byte := if 0 < e.run.toNat then encode (.run e.run.toNat) else []

/-- The bytes a pixel step emits, by the path it takes (R143). -/
def Enc.emittedBytes (e : Enc) (cur : Pixel) : List Byte :=
  if cur = e.prev then e.samePathBytes else e.pendingBytes ++ encode (chunkFor e.idx e.prev cur)

theorem Enc.length_samePathBytes_le (e : Enc) : e.samePathBytes.length ≤ 1 := by
  unfold Enc.samePathBytes
  split <;> simp [encode]

theorem Enc.length_pendingBytes_le (e : Enc) : e.pendingBytes.length ≤ 1 := by
  unfold Enc.pendingBytes
  split <;> simp [encode]

/-- A RUN chunk takes 1 byte and the pixel's own chunk at most 5 (R158). -/
theorem Enc.length_emittedBytes_le (e : Enc) (cur : Pixel) : (e.emittedBytes cur).length ≤ 6 := by
  have hsame := e.length_samePathBytes_le
  have hpending := e.length_pendingBytes_le
  have hchunk := length_le_of_position_chunk (chunkFor_position e.idx e.prev cur)
  unfold Enc.emittedBytes
  split
  · omega
  · rw [List.length_append, encode_length]
    omega

/-- The equal path emits its run or nothing (R144, R145). -/
theorem Enc.pixel_prev_emits (e : Enc) : Emits e (e.pixel e.prev) e.samePathBytes := by
  rw [Enc.pixel_prev, Enc.samePathBytes]
  split
  · exact (e.emit_emits (encode (.run (e.run + 1).toNat))).congr rfl rfl rfl rfl
  · exact (Emits.refl e).congr rfl rfl rfl rfl

theorem Enc.flushPending_emits (e : Enc) : Emits e e.flushPending e.pendingBytes := by
  unfold Enc.flushPending Enc.pendingBytes
  split
  · exact (e.emit_emits (encode (.run e.run.toNat))).congr rfl rfl rfl rfl
  · exact Emits.refl e

/-- The unequal path emits a pending run and then the pixel's own chunk, when OPOS does not wrap between them (R147). -/
theorem Enc.pixel_emits_of_ne {e : Enc} {cur : Pixel} (h : cur ≠ e.prev) (hw : e.opos.toNat + 1 < 2 ^ 32) :
    Emits e (e.pixel cur) (e.pendingBytes ++ encode (chunkFor e.idx e.prev cur)) := by
  have hchunk := e.flushPending.emit_emits (encode (chunkFor e.idx e.prev cur))
  have hpending := e.length_pendingBytes_le
  refine (e.flushPending_emits.trans hchunk (by omega)).congr rfl rfl ?_ ?_
  · rw [Enc.pixel_of_ne h, Enc.emit_opos, encode_length]
  · rw [Enc.pixel_of_ne h, Enc.emit_strmOut]

theorem Enc.pixel_emits (e : Enc) (cur : Pixel) (hw : e.opos.toNat + 1 < 2 ^ 32) :
    Emits e (e.pixel cur) (e.emittedBytes cur) := by
  unfold Enc.emittedBytes
  split
  case isTrue h =>
    subst h
    exact e.pixel_prev_emits
  case isFalse h => exact Enc.pixel_emits_of_ne h hw

end Sys2Proof.Machine

/-- Settles O42: the pixel is placed, so the step is the pixel step, whose bytes fit below the bound of R32. -/
theorem pixelStepNeverFails : Obligations.PixelStepNeverFails := by
  intro s hi ha placed
  obtain ⟨busy, -, hlt⟩ := enabledAction_eq_body.1 ha
  have hbody := hi.enc.body busy
  have running : s.enc.Running := ⟨busy, hbody.noStart, hbody.accepted, placed⟩
  obtain ⟨-, cur, hstep⟩ := running.step_pixel hlt
  have hopos := hi.enc.opos_lt
  exact ⟨{ s with enc := s.enc.pixel cur }, s.enc.emittedBytes cur, by rw [encStep, hstep]; rfl,
    (running.pixel cur).busy, s.enc.pixel_emits cur (by omega), s.enc.length_emittedBytes_le cur⟩

end

section

open Sys2Proof Sys2Proof.Machine

/-! ### O1 to O7: the encoding of the records (30_encoding.md R92 to R110) -/

namespace Sys2Proof

/-! #### Bytes, their fields and their numbers (00_scope.md R8, R10) -/

theorem extractLsb'_eq_of_toNat {w n lo : Nat} {x : BitVec w} {b : BitVec n} (h : x.toNat / 2 ^ lo % 2 ^ n = b.toNat) :
    x.extractLsb' lo n = b :=
  BitVec.eq_of_toNat_eq (by rw [BitVec.extractLsb'_toNat, Nat.shiftRight_eq_div_pow, h])

theorem field_eq (b : Byte) (lo len : Nat) : field b lo len = b.toNat / 2 ^ lo % 2 ^ len := by
  rw [field, BitVec.extractLsb'_toNat, Nat.shiftRight_eq_div_pow]

/-- A field holds a biased number (R10, R101). -/
theorem unbias_field_eq {b : Byte} {lo len bias : Nat} {d : Int}
    (h : ((b.toNat / 2 ^ lo % 2 ^ len : Nat) : Int) = d + bias) : unbias (field b lo len) bias = d := by
  rw [unbias, field_eq, h, Int.add_sub_cancel]

theorem toNat_byteOfInt {n : Int} (hlo : 0 ≤ n) (hhi : n < 256) : ((byteOfInt n).toNat : Int) = n := by
  rw [byteOfInt, BitVec.toNat_ofInt]
  omega

theorem byteOfInt_eq {b : Byte} {n : Int} (h : (b.toNat : Int) = n) : byteOfInt n = b := by
  rw [byteOfInt, ← h, BitVec.ofInt_natCast, BitVec.ofNat_toNat, BitVec.setWidth_eq]

theorem toNat_be32dec (b0 b1 b2 b3 : Byte) : (be32dec b0 b1 b2 b3).toNat =
    b0.toNat * 2 ^ 24 + b1.toNat * 2 ^ 16 + b2.toNat * 2 ^ 8 + b3.toNat := by
  have h0 := b0.isLt
  have h1 := b1.isLt
  have h2 := b2.isLt
  have h3 := b3.isLt
  rw [be32dec, BitVec.toNat_ofNat]
  omega

theorem be32dec_be32 (n : U32) :
    be32dec (n.extractLsb' 24 8) (n.extractLsb' 16 8) (n.extractLsb' 8 8) (n.extractLsb' 0 8) = n := by
  apply BitVec.eq_of_toNat_eq
  simp only [toNat_be32dec, BitVec.extractLsb'_toNat, Nat.shiftRight_eq_div_pow]
  omega

theorem be32_be32dec (b0 b1 b2 b3 : Byte) : be32 (be32dec b0 b1 b2 b3) = [b0, b1, b2, b3] := by
  have h0 := b0.isLt
  have h1 := b1.isLt
  have h2 := b2.isLt
  have h3 := b3.isLt
  have h := toNat_be32dec b0 b1 b2 b3
  rw [be32, extractLsb'_eq_of_toNat (b := b0) (by omega), extractLsb'_eq_of_toNat (b := b1) (by omega),
    extractLsb'_eq_of_toNat (b := b2) (by omega), extractLsb'_eq_of_toNat (b := b3) (by omega)]

/-! #### The operand ranges (R101) -/

theorem Instr.wf_diff_iff {dr dg db : Int} : (Instr.diff dr dg db).wf = true ↔
    (-2 ≤ dr ∧ dr ≤ 1) ∧ (-2 ≤ dg ∧ dg ≤ 1) ∧ (-2 ≤ db ∧ db ≤ 1) := by
  simp only [Instr.wf, fitsTwoBits, Bool.and_eq_true, decide_eq_true_eq, and_assoc]

theorem Instr.wf_luma_iff {dg drdg dbdg : Int} : (Instr.luma dg drdg dbdg).wf = true ↔
    (-32 ≤ dg ∧ dg ≤ 31) ∧ (-8 ≤ drdg ∧ drdg ≤ 7) ∧ (-8 ≤ dbdg ∧ dbdg ≤ 7) := by
  simp only [Instr.wf, fitsSixBits, fitsFourBits, Bool.and_eq_true, decide_eq_true_eq, and_assoc]

theorem Instr.wf_run_iff {n : Nat} : (Instr.run n).wf = true ↔ 1 ≤ n ∧ n ≤ 62 := by
  simp only [Instr.wf, Bool.and_eq_true, decide_eq_true_eq]

/-! #### The opcode map, by the number of the first byte (R101 to R103) -/

/-- A first byte below the 8-bit tags is dispatched on its top two bits (R102, R103). -/
theorem tag_of_toNat {b : Byte} (t : Nat) (hlo : 64 * t ≤ b.toNat) (hhi : b.toNat < 64 * t + 64)
    (hrgb : b.toNat < 0xFE) : b ≠ 0xFE ∧ b ≠ 0xFF ∧ field b 6 2 = t := by
  have hlt := b.isLt
  refine ⟨?_, ?_, by rw [field_eq]; omega⟩ <;> rintro rfl <;> exact absurd hrgb (by decide)

theorem decodeChunk_of_index {b : Byte} {s : Slot} (hb : b.toNat = s.toNat) (bs : List Byte) :
    decodeChunk (b :: bs) = .ok (.index s, bs) := by
  have hs := s.isLt
  obtain ⟨hrgb, hrgba, htag⟩ := tag_of_toNat (b := b) 0 (by omega) (by omega) (by omega)
  rw [decodeChunk_index hrgb hrgba htag, extractLsb'_eq_of_toNat (b := s) (by omega)]

theorem decodeChunk_of_diff {b : Byte} {dr dg db : Int} (hwf : (Instr.diff dr dg db).wf = true)
    (hb : (b.toNat : Int) = 0x40 + (dr + 2) * 16 + (dg + 2) * 4 + (db + 2)) (bs : List Byte) :
    decodeChunk (b :: bs) = .ok (.diff dr dg db, bs) := by
  obtain ⟨hr, hg, hbl⟩ := Instr.wf_diff_iff.1 hwf
  obtain ⟨hrgb, hrgba, htag⟩ := tag_of_toNat (b := b) 1 (by omega) (by omega) (by omega)
  rw [decodeChunk_diff hrgb hrgba htag, unbias_field_eq (d := dr) (by omega), unbias_field_eq (d := dg) (by omega),
    unbias_field_eq (d := db) (by omega)]

theorem decodeChunk_of_luma {b b1 : Byte} {dg x y : Int} (hwf : (Instr.luma dg x y).wf = true)
    (hb : (b.toNat : Int) = 0x80 + (dg + 32)) (hb1 : (b1.toNat : Int) = (x + 8) * 16 + (y + 8)) (bs : List Byte) :
    decodeChunk (b :: b1 :: bs) = .ok (.luma dg x y, bs) := by
  obtain ⟨hg, hx, hy⟩ := Instr.wf_luma_iff.1 hwf
  obtain ⟨hrgb, hrgba, htag⟩ := tag_of_toNat (b := b) 2 (by omega) (by omega) (by omega)
  rw [decodeChunk_luma hrgb hrgba htag, unbias_field_eq (d := dg) (by omega), unbias_field_eq (d := x) (by omega),
    unbias_field_eq (d := y) (by omega)]

theorem decodeChunk_of_run {b : Byte} {n : Nat} (hwf : (Instr.run n).wf = true) (hb : b.toNat + 1 = 0xC0 + n)
    (bs : List Byte) : decodeChunk (b :: bs) = .ok (.run n, bs) := by
  obtain ⟨hlo, hhi⟩ := Instr.wf_run_iff.1 hwf
  obtain ⟨hrgb, hrgba, htag⟩ := tag_of_toNat (b := b) 3 (by omega) (by omega) (by omega)
  have hrun : field b 0 6 + 1 = n := by rw [field_eq]; omega
  rw [decodeChunk_run hrgb hrgba htag, hrun]

end Sys2Proof

/-- Settles O1, by the records: the numbers of the encoded bytes name the chunk and give its fields back. -/
theorem decodeOfEncodeGivesTheRecord : Obligations.DecodeOfEncodeGivesTheRecord := by
  intro i rest hwf
  cases i with
  | rgb | rgba | endMarker => rfl
  | index s =>
    have hs := s.isLt
    exact decodeChunk_of_index (by rw [BitVec.toNat_setWidth]; omega) rest
  | diff dr dg db =>
    have hbounds := Instr.wf_diff_iff.1 hwf
    exact decodeChunk_of_diff hwf (toNat_byteOfInt (by omega) (by omega)) rest
  | luma dg x y =>
    have hbounds := Instr.wf_luma_iff.1 hwf
    exact decodeChunk_of_luma hwf (toNat_byteOfInt (by omega) (by omega)) (toNat_byteOfInt (by omega) (by omega)) rest
  | run n =>
    have hbounds := Instr.wf_run_iff.1 hwf
    have hb := toNat_byteOfInt (n := 0xC0 + ((n : Int) - 1)) (by omega) (by omega)
    exact decodeChunk_of_run hwf (by omega) rest
  | header w h c cs =>
    conv_rhs => rw [← be32dec_be32 w, ← be32dec_be32 h]
    rfl

/-- Settles O4: a range of first bytes is one tag, and the chunk's operands are the fields of its bytes. -/
theorem firstByteSelectsTheChunk : Obligations.FirstByteSelectsTheChunk := by
  intro b0 bs rest i h
  refine ⟨fun hr => ?_, fun hr => ?_, fun hr => ?_, fun hr => ?_, fun hr => ?_, fun hr => ?_⟩
  · obtain ⟨hrgb, hrgba, htag⟩ := tag_of_toNat (b := b0) 0 (by omega) (by omega) (by omega)
    obtain ⟨rfl, rfl⟩ := Prod.mk.inj (Except.ok.inj ((decodeChunk_index hrgb hrgba htag bs).symm.trans h))
    exact ⟨_, rfl, by rw [BitVec.extractLsb'_toNat, Nat.shiftRight_zero]; omega, rfl⟩
  · obtain ⟨hrgb, hrgba, htag⟩ := tag_of_toNat (b := b0) 1 (by omega) (by omega) (by omega)
    obtain ⟨rfl, rfl⟩ := Prod.mk.inj (Except.ok.inj ((decodeChunk_diff hrgb hrgba htag bs).symm.trans h))
    refine ⟨_, _, _, rfl, rfl, ?_⟩
    simp only [unbias, field_eq]
    omega
  · obtain ⟨hrgb, hrgba, htag⟩ := tag_of_toNat (b := b0) 2 (by omega) (by omega) (by omega)
    match bs with
    | [] => rw [decodeChunk_luma_short hrgb hrgba htag] at h; cases h
    | b1 :: bs =>
      have hb1 := b1.isLt
      obtain ⟨rfl, rfl⟩ := Prod.mk.inj (Except.ok.inj ((decodeChunk_luma hrgb hrgba htag b1 bs).symm.trans h))
      refine ⟨b1, _, _, _, rfl, rfl, ?_⟩
      simp only [unbias, field_eq]
      omega
  · obtain ⟨hrgb, hrgba, htag⟩ := tag_of_toNat (b := b0) 3 (by omega) (by omega) (by omega)
    obtain ⟨rfl, rfl⟩ := Prod.mk.inj (Except.ok.inj ((decodeChunk_run hrgb hrgba htag bs).symm.trans h))
    exact ⟨_, rfl, rfl, by rw [field_eq]; omega⟩
  · obtain rfl : b0 = 0xFE := BitVec.eq_of_toNat_eq hr
    match bs with
    | r :: g :: b :: bs =>
      obtain ⟨rfl, rfl⟩ := Prod.mk.inj (Except.ok.inj h)
      exact ⟨r, g, b, rfl, rfl⟩
    | [] | [_] | [_, _] => cases h
  · obtain rfl : b0 = 0xFF := BitVec.eq_of_toNat_eq hr
    match bs with
    | r :: g :: b :: a :: bs =>
      obtain ⟨rfl, rfl⟩ := Prod.mk.inj (Except.ok.inj h)
      exact ⟨r, g, b, a, rfl, rfl⟩
    | [] | [_] | [_, _] | [_, _, _] => cases h

namespace Sys2Proof

/-! #### The bytes a decoded record consumed (R92 to R100) -/

theorem decodeChunk_consumes_encode {bs rest : List Byte} {i : Instr} (h : decodeChunk bs = .ok (i, rest)) :
    bs = encode i ++ rest := by
  match bs with
  | [] => cases h
  | b0 :: bs =>
    have hlt := b0.isLt
    obtain ⟨hindex, hdiff, hluma, hrun, hrgb, hrgba⟩ := firstByteSelectsTheChunk b0 bs rest i h
    have hranges : b0.toNat ≤ 0x3F ∨ (0x40 ≤ b0.toNat ∧ b0.toNat ≤ 0x7F) ∨
        (0x80 ≤ b0.toNat ∧ b0.toNat ≤ 0xBF) ∨ (0xC0 ≤ b0.toNat ∧ b0.toNat ≤ 0xFD) ∨ b0.toNat = 0xFE ∨ b0.toNat = 0xFF := by omega
    rcases hranges with hr | hr | hr | hr | hr | hr
    · obtain ⟨s, rfl, hs, rfl⟩ := hindex hr
      have hb0 : s.setWidth 8 = b0 := BitVec.eq_of_toNat_eq (by rw [BitVec.toNat_setWidth]; omega)
      rw [encode, hb0, List.singleton_append]
    · obtain ⟨dr, dg, db, rfl, rfl, -, -, -, -, -, -, hb0⟩ := hdiff hr
      rw [encode, byteOfInt_eq hb0, List.singleton_append]
    · obtain ⟨b1, dg, x, y, rfl, rfl, -, -, -, -, hb0, hb1⟩ := hluma hr
      rw [encode, byteOfInt_eq hb0, byteOfInt_eq hb1]
      rfl
    · obtain ⟨n, rfl, rfl, hb0⟩ := hrun hr
      rw [encode, byteOfInt_eq (b := b0) (by omega), List.singleton_append]
    · obtain ⟨r, g, b, rfl, rfl⟩ := hrgb hr
      rw [show b0 = 0xFE from BitVec.eq_of_toNat_eq hr]
      rfl
    · obtain ⟨r, g, b, a, rfl, rfl⟩ := hrgba hr
      rw [show b0 = 0xFF from BitVec.eq_of_toNat_eq hr]
      rfl

theorem decodeHeader_consumes_encode {bs rest : List Byte} {i : Instr} (h : decodeHeader bs = .ok (i, rest)) :
    bs = encode i ++ rest := by
  unfold decodeHeader at h
  split at h
  case h_2 => cases h
  split at h
  case isFalse => cases h
  case isTrue hmagic =>
    obtain ⟨rfl, rfl⟩ := Prod.mk.inj (Except.ok.inj h)
    rw [encode, be32_be32dec, be32_be32dec, ← hmagic]
    rfl

theorem decodeMarker_consumes_encode {bs rest : List Byte} {i : Instr} (h : decodeMarker bs = .ok (i, rest)) :
    bs = encode i ++ rest := by
  unfold decodeMarker at h
  split at h
  case h_2 => cases h
  split at h
  case isFalse => cases h
  case isTrue hmarker =>
    obtain ⟨rfl, rfl⟩ := Prod.mk.inj (Except.ok.inj h)
    rw [encode, ← hmarker]
    rfl

end Sys2Proof

/-- Settles O2, by the three positions a record can stand at. -/
theorem decodedBytesAreTheEncoding : Obligations.DecodedBytesAreTheEncoding := by
  intro p bs rest i h
  cases p with
  | header =>
    obtain ⟨hpos, -⟩ := decodeHeader_eq_ok h
    exact ⟨Instr.wf_of_not_chunk (by rw [hpos]; decide), hpos, decodeHeader_consumes_encode h⟩
  | chunk =>
    obtain ⟨-, -, -, -, hpos, hwf, -⟩ := decodeChunk_eq_ok h
    exact ⟨hwf, hpos, decodeChunk_consumes_encode h⟩
  | endMarker =>
    obtain ⟨hpos, -⟩ := decodeMarker_eq_ok h
    exact ⟨Instr.wf_of_not_chunk (by rw [hpos]; decide), hpos, decodeMarker_consumes_encode h⟩

namespace Sys2Proof

/-! #### Bytes that decode to a chunk (R102, R104, R106) -/

theorem length_eq_chunkLength {b0 : Byte} {bs rest : List Byte} {i : Instr}
    (h : decodeChunk (b0 :: bs) = .ok (i, rest)) : i.length = chunkLength b0 := by
  obtain ⟨b, tl, hbytes, hlen, -⟩ := decodeChunk_eq_ok h
  obtain ⟨rfl, -⟩ := List.cons.inj hbytes
  have henc : encode i = b0 :: tl := List.append_cancel_right ((decodeChunk_consumes_encode h).symm.trans hbytes)
  rw [← encode_length, henc, List.length_cons, hlen]

/-- The length that the first byte names decides alone whether a chunk decodes (R104, R106). -/
theorem decodeChunk_cons (b0 : Byte) (bs : List Byte) :
    (chunkLength b0 ≤ bs.length + 1 ∧ ∃ i rest, decodeChunk (b0 :: bs) = .ok (i, rest)) ∨
    (bs.length + 1 < chunkLength b0 ∧ decodeChunk (b0 :: bs) = .error .truncated) := by
  by_cases hrgb : b0 = 0xFE
  · subst hrgb
    match bs with
    | r :: g :: b :: bs => exact .inl ⟨Nat.le_add_left 4 bs.length, _, _, rfl⟩
    | [] | [_] | [_, _] => exact .inr ⟨by simp [chunkLength], rfl⟩
  by_cases hrgba : b0 = 0xFF
  · subst hrgba
    match bs with
    | r :: g :: b :: a :: bs => exact .inl ⟨Nat.le_add_left 5 bs.length, _, _, rfl⟩
    | [] | [_] | [_, _] | [_, _, _] => exact .inr ⟨by simp [chunkLength], rfl⟩
  have hlen := chunkLength_of_tag hrgb hrgba
  have htags : field b0 6 2 = 0 ∨ field b0 6 2 = 1 ∨ field b0 6 2 = 2 ∨ field b0 6 2 = 3 := by
    have := field_lt b0 6 2
    omega
  rcases htags with htag | htag | htag | htag <;> rw [hlen, htag]
  · exact .inl ⟨Nat.le_add_left 1 _, _, _, decodeChunk_index hrgb hrgba htag bs⟩
  · exact .inl ⟨Nat.le_add_left 1 _, _, _, decodeChunk_diff hrgb hrgba htag bs⟩
  · match bs with
    | [] => exact .inr ⟨by decide, decodeChunk_luma_short hrgb hrgba htag⟩
    | b1 :: bs => exact .inl ⟨Nat.le_add_left 2 _, _, _, decodeChunk_luma hrgb hrgba htag b1 bs⟩
  · exact .inl ⟨Nat.le_add_left 1 _, _, _, decodeChunk_run hrgb hrgba htag bs⟩

end Sys2Proof

/-- Settles O3: either the bytes hold the length that the first byte names and decode, or they are cut short. -/
theorem everyChunkDecodesUnlessCutShort : Obligations.EveryChunkDecodesUnlessCutShort := by
  intro b0 bs
  rcases decodeChunk_cons b0 bs with ⟨hlong, i, rest, h⟩ | ⟨hshort, h⟩
  · exact ⟨fun _ => ⟨i, rest, h, length_eq_chunkLength h⟩, fun hlt => absurd hlt (Nat.not_lt.2 hlong)⟩
  · exact ⟨fun hle => absurd hshort (Nat.not_lt.2 hle), fun _ => h⟩

namespace Sys2Proof

/-! #### Sequences of chunks (R91, R109, R110) -/

theorem assemble_cons (i : Instr) (is : List Instr) : assemble (i :: is) = encode i ++ assemble is :=
  List.flatMap_cons

theorem disassemble_of_decodeChunk {fuel n : Nat} {bs rest rest' : List Byte} {i : Instr} {is : List Instr} (hn : 0 < n)
    (hchunk : decodeChunk bs = .ok (i, rest)) (htail : disassemble fuel (n - i.pixels) rest = .ok (is, rest')) :
    disassemble (fuel + 1) n bs = .ok (i :: is, rest') := by
  obtain ⟨n, rfl⟩ := Nat.exists_eq_add_of_le' hn
  rw [disassemble, hchunk]
  dsimp only
  rw [htail]

theorem runStar_of_mod_eq_zero {n : Nat} (h : n % 62 = 0) : runStar n = List.replicate (n / 62) (.run 62) := by
  rw [runStar, if_pos h, List.append_nil]

theorem runStar_of_mod_ne_zero {n : Nat} (h : n % 62 ≠ 0) :
    runStar n = List.replicate (n / 62) (.run 62) ++ [.run (n % 62)] := by
  rw [runStar, if_neg h]

end Sys2Proof

/-- Settles O6, by induction on the chunks: the first decodes from the front (O1), the others account for the pixels
that it leaves. -/
theorem listingRecoversTheChunks : Obligations.ListingRecoversTheChunks := by
  intro is
  induction is with
  | nil =>
    intro n fuel rest hcovers _
    obtain rfl : n = 0 := hcovers
    cases fuel <;> rfl
  | cons i is ih =>
    intro n fuel rest hcovers hfuel
    obtain ⟨hn, hpos, hwf, htail⟩ := hcovers
    obtain ⟨fuel, rfl⟩ := Nat.exists_eq_add_of_le' (Nat.lt_of_lt_of_le (Nat.succ_pos _) hfuel)
    have hchunk := decodeOfEncodeGivesTheRecord i (assemble is ++ rest) hwf
    rw [hpos] at hchunk
    rw [assemble_cons, List.append_assoc]
    exact disassemble_of_decodeChunk hn hchunk (ih _ fuel rest htail (Nat.le_of_succ_le_succ hfuel))

/-- Settles O7: chunks of 62, and one more for a remainder. -/
theorem runStarStandsForItsPixels : Obligations.RunStarStandsForItsPixels := by
  intro n
  by_cases h : n % 62 = 0
  · rw [runStar_of_mod_eq_zero h]
    have hall : ∀ i ∈ List.replicate (n / 62) (Instr.run 62), i = .run 62 := fun i hi => List.eq_of_mem_replicate hi
    refine ⟨?_, fun i hi => hall i hi ▸ rfl, ?_, fun i hi => hall i (List.mem_of_mem_dropLast hi)⟩
    · simp only [List.map_replicate, List.sum_replicate, Instr.pixels, smul_eq_mul]
      omega
    · rw [List.length_replicate]
      omega
  · rw [runStar_of_mod_ne_zero h, List.dropLast_concat]
    refine ⟨?_, ?_, ?_, fun i hi => List.eq_of_mem_replicate hi⟩
    · simp only [List.map_append, List.map_replicate, List.map_singleton, List.sum_append, List.sum_replicate,
        List.sum_singleton, Instr.pixels, smul_eq_mul]
      omega
    · intro i hi
      rcases List.mem_append.1 hi with hi | hi
      · exact List.eq_of_mem_replicate hi ▸ rfl
      · obtain rfl := List.mem_singleton.1 hi
        exact Instr.wf_run_iff.2 ⟨by omega, by omega⟩
    · rw [List.length_append, List.length_replicate, List.length_singleton]
      omega

/-- Settles O5, by running the decoder on the words. -/
theorem wordsOfTheSpecDecode : Obligations.WordsOfTheSpecDecode := by
  unfold Obligations.WordsOfTheSpecDecode
  decide

end

section

open Sys2Proof Sys2Proof.Machine

/-! ### O55: lockstep of the two engines (40_pixel_cache.md R130; 42_chunk_decoder.md R203) -/

namespace Sys2Proof.Machine

/-! #### The explicit chunk gives the pixel back (41_chunk_encoder.md R150 to R154) -/

/-- Wrapping addition undoes the wrapping difference (R10, R150). -/
theorem add8_delta (cur prev : Byte) : add8 prev (delta cur prev) = cur := by
  rw [add8, delta, s8, sub8, BitVec.ofInt_toInt, add_sub_cancel]

/-- LUMA's sum of dg and a reduced difference stands for the delta itself, modulo 256 (R150, R188). -/
theorem add8_add_deltaDiff (x : Byte) (d dg : Int) : add8 x (dg + deltaDiff d dg) = add8 x d := by
  rw [add8, add8, BitVec.ofInt_add, deltaDiff, s8, BitVec.ofInt_toInt, ← BitVec.ofInt_add, add_sub_cancel]

section
variable {prev cur : Pixel} (h : cur.a = prev.a)
include h

theorem rgbPixel_of_alpha : rgbPixel prev cur.r cur.g cur.b = cur := by rw [rgbPixel, ← h]

theorem diffPixel_delta : diffPixel prev (delta cur.r prev.r) (delta cur.g prev.g) (delta cur.b prev.b) = cur := by
  simp only [diffPixel, add8_delta, ← h]

theorem lumaPixel_delta :
    lumaPixel prev (delta cur.g prev.g) (deltaDiff (delta cur.r prev.r) (delta cur.g prev.g))
      (deltaDiff (delta cur.b prev.b) (delta cur.g prev.g)) = cur := by
  simp only [lumaPixel, add8_add_deltaDiff, add8_delta, ← h]

end

/-- DEC executes the explicit chunk of a pixel as that pixel, once, with a cache write (R184, R185, R187, R188). -/
theorem Dec.exec_explicitChunk (d : Dec) (cur : Pixel) :
    d.exec (explicitChunk d.prev cur) = d.chunkStep (explicitChunk d.prev cur).length cur 1 true := by
  unfold explicitChunk
  extract_lets dr dg db
  split
  case isTrue ha =>
    have halpha := (alphaSame_iff ..).1 ha
    split
    · exact congrArg (d.chunkStep 1 · 1 true) (diffPixel_delta halpha)
    · split
      · exact congrArg (d.chunkStep 2 · 1 true) (lumaPixel_delta halpha)
      · exact congrArg (d.chunkStep 4 · 1 true) (rgbPixel_of_alpha halpha)
  case isFalse => rfl

/-! #### Caches in lockstep -/

namespace LockstepCache

variable {enc dec : Pxc} (h : LockstepCache enc dec)
include h

/-- A pixel that hits ENC's cache hits DEC's: at slot 53 the exception needs the zero pixel, whose own slot is 0
(R130). -/
theorem dec_hit {p : Pixel} (hp : Pxc.read enc (Pixel.hash p) = p) : Pxc.read dec (Pixel.hash p) = p := by
  rcases h (Pixel.hash p) with heq | ⟨hs, hzero, -⟩
  · rw [heq, hp]
  · rw [← hp, hzero] at hs
    exact absurd hs (by decide)

theorem insert (p : Pixel) : LockstepCache (Pxc.insert enc p) (Pxc.insert dec p) := by
  intro s
  rw [Pxc.read_insert, Pxc.read_insert]
  split
  · exact .inl rfl
  · exact h s

/-- DEC may insert a pixel that ENC's cache holds in its own slot. -/
theorem insert_dec_of_hit {p : Pixel} (hp : Pxc.read enc (Pixel.hash p) = p) : LockstepCache enc (Pxc.insert dec p) := by
  rwa [Pxc.insert_of_read (h.dec_hit hp)]

/-- After a hit, DEC's cache is what an insert would make it; so a chunk's cache write may be told from the miss alone
(R148, R186). -/
theorem insert_dec_unless_hit (p : Pixel) : (if !hit enc p then Pxc.insert dec p else dec) = Pxc.insert dec p := by
  cases hh : hit enc p with
  | false => rfl
  | true => exact (Pxc.insert_of_read (h.dec_hit ((hit_iff ..).1 hh))).symm

end LockstepCache

/-- A RUN of the initial PREV makes the one difference R130 allows: slot 53 holds opaque black in DEC's cache alone. -/
theorem lockstepCache_clear_insert_opaqueBlack {dec : Pxc} (h : LockstepCache Pxc.clear dec) :
    LockstepCache Pxc.clear (Pxc.insert dec Pixel.opaqueBlack) := by
  intro s
  rw [Pxc.read_insert, hash_opaqueBlack]
  split
  case isTrue hs => exact .inr ⟨hs.symm, Pxc.read_clear s, rfl⟩
  case isFalse => exact h s

/-! #### What a chunk does to lockstep -/

section
variable (d : Dec) (len : Nat) (cur : Pixel) (k : Nat) (ins : Bool)

@[simp] theorem Dec.retire_prev : (d.retire len cur k ins).prev = cur := by rw [Dec.retire_frame]
@[simp] theorem Dec.retire_idx : (d.retire len cur k ins).idx = if ins then Pxc.insert d.idx cur else d.idx := by
  rw [Dec.retire_frame]

end

/-- A chunk that is enabled and whole makes its writes (R182). -/
theorem Dec.chunkStep_eq_retire {d : Dec} {len : Nat} (ha : d.action = some .body)
    (hl : d.ipos.toNat + len ≤ d.inLen.toNat) (cur : Pixel) (k : Nat) (ins : Bool) :
    d.chunkStep len cur k ins = .next (d.retire len cur k ins) := by
  have hhas : d.has len = true := decide_eq_true hl
  rw [Dec.chunkStep, if_pos ha, if_pos hhas]

namespace Lockstep

variable {e : Enc} {d : Dec} (h : Lockstep e d)
include h

/-- In lockstep DEC executes the chunk ENC chooses as ENC's pixel, once, with a cache write on a miss (R155, R186). -/
theorem exec_chunkFor (cur : Pixel) :
    d.exec (chunkFor e.idx e.prev cur) = d.chunkStep (chunkFor e.idx e.prev cur).length cur 1 (!hit e.idx cur) := by
  unfold chunkFor
  split
  case isTrue hh =>
    rw [hh]
    exact congrArg (d.chunkStep 1 · 1 false) (h.cache.dec_hit ((hit_iff ..).1 hh))
  case isFalse hh =>
    rw [Bool.eq_false_of_not_eq_true hh, ← h.prev]
    exact d.exec_explicitChunk cur

/-- ENC's unequal path and DEC's chunk both insert the pixel (R148, R149, R182). -/
theorem pixel_retire {cur : Pixel} (hne : cur ≠ e.prev) (len : Nat) :
    Lockstep (e.pixel cur) (d.retire len cur 1 (!hit e.idx cur)) where
  prev := by rw [Dec.retire_prev, Enc.pixel_of_ne hne]
  cache := by
    rw [Dec.retire_idx, h.cache.insert_dec_unless_hit, Enc.pixel_of_ne hne]
    exact h.cache.insert cur
  own := .inr (by rw [Enc.pixel_of_ne hne]; exact Pxc.read_insert_same ..)

/-- Inserting PREV keeps DEC's cache in lockstep: it stands in its own slot already, or it is the initial PREV and the
exception of R130 allows it. -/
theorem insert_prev : LockstepCache e.idx (Pxc.insert d.idx e.prev) := by
  rcases h.own with ⟨hprev, hidx⟩ | hown
  · have hc := h.cache
    rw [hidx] at hc ⊢
    rw [hprev]
    exact lockstepCache_clear_insert_opaqueBlack hc
  · exact h.cache.insert_dec_of_hit hown

/-- DEC may produce PREV any number of times, with a cache write or without (R190). -/
theorem prev_retire (len k : Nat) (ins : Bool) : Lockstep e (d.retire len d.prev k ins) where
  prev := by rw [Dec.retire_prev, h.prev]
  cache := by
    rw [Dec.retire_idx, h.prev]
    cases ins with
    | false => exact h.cache
    | true => exact h.insert_prev
  own := h.own

end Lockstep

end Sys2Proof.Machine

/-- Settles O55: the chosen chunk is a chunk step of ENC's pixel on both sides, and a RUN one of PREV. -/
theorem eachChunkKeepsTheEnginesInLockstep : Obligations.EachChunkKeepsTheEnginesInLockstep := by
  refine ⟨fun s cur h hne ha hl => ?_, fun e d cacheWrite n h ha hl _ hn => ?_⟩
  · refine ⟨{ s with dec := s.dec.retire (chunkFor s.enc.idx s.enc.prev cur).length cur 1 (!hit s.enc.idx cur) }, ?_,
      Dec.retire_prev .., Dec.retire_pxpos .., h.pixel_retire hne _⟩
    rw [exec_eq, h.exec_chunkFor, Dec.chunkStep_eq_retire ha hl]
    rfl
  · refine ⟨_, ?_, (Dec.retire_prev ..).trans h.prev, Dec.retire_pxpos .., h.prev_retire 1 n cacheWrite⟩
    rw [Dec.runChunk, Nat.min_eq_left hn, Dec.chunkStep_eq_retire ha hl]

/-! ### O8, O9: the hash (40_pixel_cache.md R120, R121) -/

namespace Sys2Proof.Machine

theorem Pixel.toNat_hash (p : Pixel) :
    (Pixel.hash p).toNat = (p.r.toNat * 3 + p.g.toNat * 5 + p.b.toNat * 7 + p.a.toNat * 11) % 64 := BitVec.toNat_ofNat ..

/-- The hash is a wrapping sum of 6 bits: its operands may be reduced first. -/
theorem Pixel.hash_eq_setWidth (p : Pixel) :
    Pixel.hash p = p.r.setWidth 6 * BitVec.ofNat 6 3 + p.g.setWidth 6 * BitVec.ofNat 6 5 + p.b.setWidth 6 * BitVec.ofNat 6 7 +
      p.a.setWidth 6 * BitVec.ofNat 6 11 := by
  simp only [Pixel.hash, BitVec.ofNat_add, BitVec.ofNat_mul, BitVec.ofNat_toNat]

end Sys2Proof.Machine

/-- Settles O8: the sum over the naturals by `Pixel.toNat_hash`, the rule's four values by computing them. -/
theorem hashIsTheWeightedSumModulo64 : Obligations.HashIsTheWeightedSumModulo64 :=
  ⟨Pixel.toNat_hash, by decide⟩

/-- Settles O9: reduction to 6 bits passes through the sums and products of any width from 6 up. -/
theorem hashIsTheSameInEveryWidth : Obligations.HashIsTheSameInEveryWidth := by
  intro p w hw
  rw [Pixel.hash_eq_setWidth]
  simp only [BitVec.setWidth_add _ _ hw, BitVec.setWidth_mul _ _ hw, BitVec.setWidth_setWidth_of_le _ hw,
    BitVec.setWidth_ofNat_of_le hw]

/-! ### O11, O12: insert and clear (40_pixel_cache.md R123 to R126) -/

/-- Settles O11, by what an insert does to a slot; the example's pixel has the slot 56 for its own. -/
theorem insertOverwritesItsSlotOnly : Obligations.InsertOverwritesItsSlotOnly := by
  have hslot : Pixel.hash ⟨65, 0, 0, 255⟩ = 56 := by decide
  exact ⟨fun c p => ⟨Pxc.read_insert_same c p, fun _ hs => Pxc.read_insert_other c hs.symm, Pxc.insert_of_read⟩,
    fun c _ => hslot ▸ Pxc.read_insert_same c ⟨65, 0, 0, 255⟩⟩

/-- Settles O12: a probe of the cleared cache compares the pixel with the zero pixel. -/
theorem clearedCacheHitsTheZeroPixelOnly : Obligations.ClearedCacheHitsTheZeroPixelOnly := by
  refine ⟨Pxc.read_clear, fun p => ?_⟩
  rw [Pxc.probe, Pxc.read_clear]
  exact congrArg (Pixel.hash p, ·) (decide_eq_decide.2 eq_comm)

end

section

open Sys2Proof Sys2Proof.Machine

/-! ### O33, O35, O43: the three steps of ENC as steps of the block (10_state.md R45) -/

namespace Sys2Proof.Machine

theorem encStep_of_accepted {s : State} (ha : s.enc.action = some .start) (accepted : s.enc.startCheck = none) :
    encStep s = .next { s with enc := s.enc.begin } := by
  simp only [encStep, Enc.step, ha, Enc.start, accepted, State.withEnc]

theorem encStep_of_fetch {s : State} {cur : Pixel} (ha : s.enc.action = some .body) (fetched : s.enc.fetch = some cur) :
    encStep s = .next { s with enc := s.enc.pixel cur } := by
  simp only [encStep, Enc.step, ha, Enc.pixelStep, fetched, State.withEnc]

theorem encStep_of_finish {s : State} (ha : s.enc.action = some .finish) :
    encStep s = .next { s with enc := s.enc.finish } := by
  simp only [encStep, Enc.step, ha, State.withEnc]

/-- The header is the one record a start step emits, at offset 0 (R223). -/
theorem Enc.begin_readBytes (e : Enc) : Memory.readBytes e.begin.strmOut 0 14 =
    some (encode (.header e.width e.height e.channels e.colorspace)) :=
  Memory.readBytes_writeBytes e.strmOut 0 (encode (.header e.width e.height e.channels e.colorspace))

theorem Enc.begin_read_of_ge (e : Enc) {a : Nat} (h : 14 ≤ a) :
    Memory.read e.begin.strmOut a = Memory.read e.strmOut a :=
  Memory.read_writeBytes_outside _ 0 (encode (.header ..)) a (.inr h)

/-- Four channels: the pixel's own four bytes (R142). -/
theorem Enc.fetch_of_four {e : Enc} {r g b a : Byte} (hc : e.channels = 4)
    (h : Memory.readBytes e.pixIn (4 * e.pxpos.toNat) 4 = some [r, g, b, a]) : e.fetch = some ⟨r, g, b, a⟩ := by
  have hbytes : e.pixelBytes = 4 := if_pos hc
  rw [Enc.fetch, hbytes, h]
  rfl

/-- Any other channel count: three bytes and PREV's alpha (R142). -/
theorem Enc.fetch_of_three {e : Enc} {r g b : Byte} (hc : e.channels ≠ 4)
    (h : Memory.readBytes e.pixIn (3 * e.pxpos.toNat) 3 = some [r, g, b]) : e.fetch = some ⟨r, g, b, e.prev.a⟩ := by
  have hbytes : e.pixelBytes = 3 := if_neg hc
  rw [Enc.fetch, hbytes, h]
  rfl

/-- The end step emits the marker and nothing else (R227). -/
theorem Enc.finish_emits (e : Enc) : Emits e e.finish Config.endMarker :=
  (e.emit_emits Config.endMarker).congr rfl rfl rfl rfl

/-- After the last pixel no run is pending, so at least one chunk follows the header, and no pixel took more than
CHANNELS + 1 bytes (R69, R70, R157). -/
theorem Enc.BodyInv.opos_bounds_of_last {e : Enc} (h : e.BodyInv) (hlast : e.pxpos.toNat = e.pixels) :
    15 ≤ e.opos.toNat ∧ e.opos.toNat ≤ 14 + e.pixels * (e.channels.toNat + 1) := by
  obtain ⟨-, -, hd, -⟩ := Enc.startCheck_eq_none.1 h.accepted
  have hpos : 0 < e.pixels := (pixelCount_bound hd).1
  have hrun : e.run.toNat = 0 := by rw [h.flushed hlast]; rfl
  refine ⟨h.emitted (by omega), ?_⟩
  have hle := h.opos_le
  rwa [hrun, hlast, Nat.sub_zero] at hle

end Sys2Proof.Machine

/-- Settles O33: the hypotheses are what the checks of R225 accept, and the operation begins. -/
theorem encodeStartWritesTheHeader : Obligations.EncodeStartWritesTheHeader := by
  intro s ha hlen hdesc hw hh hc hcs hbound hsize
  have accepted : s.enc.startCheck = none :=
    Enc.startCheck_eq_none.2 ⟨hlen, hdesc, descriptorCheck_eq_none.2 ⟨hw, hh, hc, hcs, hbound⟩, hsize⟩
  exact ⟨_, encStep_of_accepted ha accepted, s.enc.begin_readBytes, fun _ => s.enc.begin_read_of_ge, Pxc.read_clear, rfl⟩

/-- Settles O35: CUR is fetched by the channel count, and the frame is the pixel step's own. -/
theorem pixelStepFetchesThePixel : Obligations.PixelStepFetchesThePixel := by
  intro s r g b a ha hfour hthree
  have fetched : s.enc.fetch = some ⟨r, g, b, a⟩ := by
    by_cases hc : s.enc.channels = 4
    · exact Enc.fetch_of_four hc (hfour hc)
    · obtain ⟨hbytes, rfl⟩ := hthree hc
      exact Enc.fetch_of_three hc hbytes
  exact ⟨_, encStep_of_fetch ha fetched, rfl, congrArg (fun e => { s with enc := e }) (s.enc.pixel_frame ⟨r, g, b, a⟩)⟩

/-- Settles O43: the invariant bounds OPOS after the last pixel, and the marker adds its 8 bytes. -/
theorem encodeEndWritesTheMarker : Obligations.EncodeEndWritesTheMarker := by
  intro s hi ha
  obtain ⟨busy, -, hlast⟩ := enabledAction_eq_finish.1 ha
  have hbody := hi.enc.body busy
  obtain ⟨hlo, hhi⟩ := hbody.opos_bounds_of_last hlast
  have hcount : s.enc.finish.byteCount.toNat = s.enc.opos.toNat + 8 := by
    have := hi.enc.opos_lt
    exact toNat_cursorAdd (n := 8) (by omega)
  have hpixels : s.enc.width.toNat * s.enc.height.toNat = s.enc.pixels := rfl
  refine ⟨hbody.flushed hlast, _, encStep_of_finish ha, s.enc.finish_emits, rfl, ?_, ?_, rfl⟩
  · show 23 ≤ s.enc.finish.byteCount.toNat
    omega
  · show s.enc.finish.byteCount.toNat ≤ _
    rw [hpixels]
    omega

/-! ### O36, O37: the two paths of the pixel step (41_chunk_encoder.md R144 to R149) -/

/-- Settles O36, by the equation of the equal path on each side of its flush condition. -/
theorem equalPixelGrowsOrFlushesTheRun : Obligations.EqualPixelGrowsOrFlushesTheRun := by
  intro e
  have hemits := e.pixel_prev_emits
  refine ⟨fun h => ?_, fun h => ?_, ?_, ?_⟩
  · have hbytes : e.samePathBytes = encode (.run (e.run + 1).toNat) := if_pos h
    exact ⟨hbytes ▸ hemits, congrArg Enc.run (e.pixel_prev.trans (if_pos h))⟩
  · have hbytes : e.samePathBytes = [] := if_neg h
    exact ⟨hbytes ▸ hemits, congrArg Enc.run (e.pixel_prev.trans (if_neg h))⟩
  · rw [Enc.pixel_prev]
    split <;> rfl
  · rw [Enc.pixel_frame]

/-- Settles O37: the unequal path inserts its pixel, which after a hit leaves the cache as it was. -/
theorem unequalPixelFlushesAndEmitsItsChunk : Obligations.UnequalPixelFlushesAndEmitsItsChunk := by
  intro e cur hne hopos
  have hidx : (e.pixel cur).idx = Pxc.insert e.idx cur := by rw [Enc.pixel_of_ne hne]
  refine ⟨Enc.pixel_emits_of_ne hne (by omega), by rw [Enc.pixel_of_ne hne], ?_, fun x hx => ?_, fun hhit => ?_⟩
  · rw [hidx, Pxc.read_insert_same]
  · rw [hidx, Pxc.read_insert_other _ hx.symm]
  · rw [hidx, Pxc.insert_of_read hhit]

/-! ### O38 to O41: the selector (41_chunk_encoder.md R148 to R155) -/

namespace Sys2Proof.Machine

/-- The priority table of R155: DIFF and LUMA are chosen exactly when their chunk is well formed. -/
theorem chunkFor_eq (idx : Pxc) (prev cur : Pixel) :
    chunkFor idx prev cur =
      if Pxc.read idx (Pixel.hash cur) = cur then .index (Pixel.hash cur)
      else if cur.a ≠ prev.a then .rgba cur.r cur.g cur.b cur.a
      else if (Instr.diff (delta cur.r prev.r) (delta cur.g prev.g) (delta cur.b prev.b)).wf = true then
        .diff (delta cur.r prev.r) (delta cur.g prev.g) (delta cur.b prev.b)
      else if (Instr.luma (delta cur.g prev.g) (deltaDiff (delta cur.r prev.r) (delta cur.g prev.g))
          (deltaDiff (delta cur.b prev.b) (delta cur.g prev.g))).wf = true then
        .luma (delta cur.g prev.g) (deltaDiff (delta cur.r prev.r) (delta cur.g prev.g))
          (deltaDiff (delta cur.b prev.b) (delta cur.g prev.g))
      else .rgb cur.r cur.g cur.b := by
  simp only [chunkFor, hit_iff, explicitChunk, alphaSame_iff, ite_not]
  rfl

/-- A signed byte is the one representative of its residue in −128..127 (R10). -/
theorem s8_ofInt {n : Int} (hlo : -128 ≤ n) (hhi : n ≤ 127) : s8 (BitVec.ofInt 8 n) = n := by
  rw [s8, BitVec.toInt_ofInt]
  exact Int.bmod_eq_of_le (by omega) (by omega)

/-- The delta of two bytes is the representative in −128..127 of their difference modulo 256 (R150). -/
theorem delta_eq {cur prev : Byte} {d : Int} (hd : -128 ≤ d ∧ d ≤ 127)
    (h : ((prev.toNat : Int) + d) % 256 = cur.toNat) : delta cur prev = d := by
  have hcur : cur = prev + BitVec.ofInt 8 d := by
    apply BitVec.eq_of_toNat_eq
    rw [BitVec.toNat_add, BitVec.toNat_ofInt]
    omega
  rw [delta, sub8, hcur, add_sub_cancel_left, s8_ofInt hd.1 hd.2]

/-- A difference of deltas that fits LUMA's four bits needs no reduction: the deltas of LUMA differ by at most 159, so a
reduced difference is at least 97 away from 0 (R150). -/
theorem deltaDiff_fits {d dg : Int} (hd : -128 ≤ d ∧ d ≤ 127) (hg : -32 ≤ dg ∧ dg ≤ 31) :
    ((-8 ≤ deltaDiff d dg ∧ deltaDiff d dg ≤ 7) ↔ -8 ≤ d - dg ∧ d - dg ≤ 7) ∧
      (-8 ≤ d - dg ∧ d - dg ≤ 7 → deltaDiff d dg = d - dg) := by
  have hreduced : deltaDiff d dg = (d - dg).bmod 256 := BitVec.toInt_ofInt _
  rw [hreduced, Int.bmod_def]
  omega

/-- LUMA's test on the reduced differences is the test on the differences themselves (R150, R152). -/
theorem wf_luma_deltaDiff_iff {dr dg db : Int} (hr : -128 ≤ dr ∧ dr ≤ 127) (hb : -128 ≤ db ∧ db ≤ 127) :
    (Instr.luma dg (deltaDiff dr dg) (deltaDiff db dg)).wf = true ↔
      (-32 ≤ dg ∧ dg ≤ 31) ∧ (-8 ≤ dr - dg ∧ dr - dg ≤ 7) ∧ (-8 ≤ db - dg ∧ db - dg ≤ 7) := by
  rw [Instr.wf_luma_iff]
  exact and_congr_right fun hg => and_congr (deltaDiff_fits hr hg).1 (deltaDiff_fits hb hg).1

/-- An INDEX chunk names the pixel's own slot, which holds the pixel (R148). -/
theorem hit_of_chunkFor_eq_index {idx : Pxc} {prev cur : Pixel} {s : Slot} (h : chunkFor idx prev cur = .index s) :
    Pixel.hash cur = s ∧ Pxc.read idx s = cur := by
  rw [chunkFor_eq] at h
  split_ifs at h with hhit
  obtain rfl := Instr.index.inj h
  exact ⟨rfl, hhit⟩

/-- RGBA is chosen only when alpha changed (R154). -/
theorem chunkFor_ne_rgba_of_alpha {idx : Pxc} {prev cur : Pixel} (ha : cur.a = prev.a) (r g b a : Byte) :
    chunkFor idx prev cur ≠ .rgba r g b a := by
  rw [chunkFor_eq, if_neg (not_not.2 ha)]
  split_ifs <;> exact Instr.noConfusion

end Sys2Proof.Machine

/-- Settles O38: the statement's deltas are the selector's, and the reduced differences fit exactly when the
differences do, which then need no reduction. -/
theorem selectorFollowsThePriorityTable : Obligations.SelectorFollowsThePriorityTable := by
  intro idx prev cur dr dg db hr hg hb hdr hdg hdb
  rw [chunkFor_eq, delta_eq hr hdr, delta_eq hg hdg, delta_eq hb hdb]
  simp only [Instr.wf_diff_iff, wf_luma_deltaDiff_iff hr hb]
  split_ifs with hhit halpha hdiff hluma
  · rfl
  · rfl
  · rfl
  · obtain ⟨hgreen, hred, hblue⟩ := hluma
    rw [(deltaDiff_fits hr hgreen).2 hred, (deltaDiff_fits hb hgreen).2 hblue]
  · rfl

/-- Settles O39, row by row of the priority table. -/
theorem chosenChunkReproducesThePixel : Obligations.ChosenChunkReproducesThePixel := by
  intro idx prev cur
  rw [chunkFor_eq]
  split_ifs with hhit halpha hdiff hluma
  · exact ⟨rfl, rfl, hhit⟩
  · exact ⟨rfl, rfl⟩
  · exact ⟨hdiff, diffPixel_delta (not_not.1 halpha)⟩
  · exact ⟨hluma, lumaPixel_delta (not_not.1 halpha)⟩
  · exact ⟨rfl, rgbPixel_of_alpha (not_not.1 halpha)⟩

/-- Settles O40: the first pixel keeps its slot, so a second INDEX chunk with that slot would stand for the same
pixel. -/
theorem adjacentIndexChunksDiffer : Obligations.AdjacentIndexChunksDiffer := by
  intro e p q s hp hq hfirst hsecond
  obtain ⟨hslot, -⟩ := hit_of_chunkFor_eq_index hfirst
  obtain ⟨-, hread⟩ := hit_of_chunkFor_eq_index hsecond
  have hkept : Pxc.read (e.pixel p).idx (Pixel.hash p) = p := by rw [Enc.pixel_of_ne hp, Pxc.read_insert_same]
  exact hq (by rw [← hread, ← hslot, hkept])

/-- Settles O41: the fetched pixel has PREV's alpha, and RGBA needs a changed alpha. -/
theorem threeChannelInputNeverChangesAlpha : Obligations.ThreeChannelInputNeverChangesAlpha := by
  intro e cur hc hf
  have halpha := Enc.alpha_of_fetch hc hf
  exact ⟨halpha, chunkFor_ne_rgba_of_alpha halpha⟩

end

section

open Sys2Proof Sys2Proof.Machine

/-! ### O14 to O20: the six chunks (42_chunk_decoder.md R182 to R192) -/

namespace Sys2Proof.Machine

/-! #### The chunk step as a step of the block -/

/-- A chunk that is enabled and cut short fails the operation (R183). -/
theorem Dec.chunkStep_eq_truncated {d : Dec} {len : Nat} (ha : d.action = some .body)
    (hl : d.inLen.toNat < d.ipos.toNat + len) (cur : Pixel) (k : Nat) (ins : Bool) :
    d.chunkStep len cur k ins = .next (d.fail .truncated) := by
  have hhas : d.has len = false := decide_eq_false (Nat.not_le.2 hl)
  rw [Dec.chunkStep, if_pos ha, hhas]
  rfl

theorem withDec_chunkStep_truncated {s : State} {len : Nat} (ha : s.dec.action = some .body)
    (hl : s.dec.inLen.toNat < s.dec.ipos.toNat + len) (cur : Pixel) (k : Nat) (ins : Bool) :
    s.withDec (s.dec.chunkStep len cur k ins) = .next { s with dec := s.dec.fail .truncated } := by
  rw [Dec.chunkStep_eq_truncated ha hl]
  rfl

/-- A chunk of one pixel: one pixel leaves OPOS no chance to wrap before it is written (R182). -/
theorem withDec_chunkStep_one {s : State} (ha : s.dec.action = some .body) (ho : s.dec.och = 3 ∨ s.dec.och = 4)
    {len : Nat} (hl : s.dec.ipos.toNat + len ≤ s.dec.inLen.toNat) (cur : Pixel) (ins : Bool) :
    ∃ t, s.withDec (s.dec.chunkStep len cur 1 ins) = .next t ∧ ChunkEffect s t len cur 1 ins :=
  Dec.chunkStep_executes s len cur 1 ins ha hl ho (by rw [Nat.sub_self, Nat.zero_mul]; exact s.dec.opos.isLt)

/-- A chunk without a cache write leaves the whole cache as it was. -/
theorem ChunkEffect.idx_eq {s t : State} {len k : Nat} {cur : Pixel} (h : ChunkEffect s t len cur k false) :
    t.dec.idx = s.dec.idx := by
  refine Pxc.ext_read fun x => ?_
  by_cases hx : x = Pixel.hash cur
  · subst hx
    exact h.slot
  · exact h.otherSlots x hx

/-- Wrapping addition of an integer is addition modulo 256 (R10). -/
theorem toNat_add8 (x : Byte) (d : Int) : ((add8 x d).toNat : Int) = (x.toNat + d) % 256 := by
  rw [add8, BitVec.toNat_add, BitVec.toNat_ofInt]
  omega

/-- The pixels of a clipped chunk stay inside the image, so OPOS does not wrap before the last of them (R32). -/
theorem Dec.BodyInv.opos_fits {d : Dec} (h : d.BodyInv) {k : Nat} (clipped : d.pxpos.toNat + k ≤ d.pixels) :
    d.opos.toNat + (k - 1) * d.och.toNat < 2 ^ 32 :=
  calc d.opos.toNat + (k - 1) * d.och.toNat = (d.pxpos.toNat + (k - 1)) * d.och.toNat := by rw [h.opos, Nat.add_mul]
    _ ≤ d.pixels * d.och.toNat := Nat.mul_le_mul_right _ (by omega)
    _ < 2 ^ 32 := h.pixOut_fits

/-- A chunk's cache write changes the cache and nothing else: `put` does not look at the cache (R182). -/
theorem Dec.retire_cacheWrite (d : Dec) (len : Nat) (cur : Pixel) (k : Nat) :
    d.retire len cur k true = { d.retire len cur k false with idx := Pxc.insert d.idx cur } := by
  simp only [Dec.retire, Dec.cacheWrite, if_true, Dec.putTimes_withIdx]
  rfl

end Sys2Proof.Machine

/-- Settles O14: RGB is a chunk of one pixel. -/
theorem rgbExecutes : Obligations.RgbExecutes :=
  fun _ _ _ _ ha ho =>
    ⟨rfl, fun hl => withDec_chunkStep_one ha ho hl _ true, fun hl => withDec_chunkStep_truncated ha hl ..⟩

/-- Settles O15: RGBA is a chunk of one pixel. -/
theorem rgbaExecutes : Obligations.RgbaExecutes :=
  fun _ _ _ _ _ ha ho =>
    ⟨rfl, fun hl => withDec_chunkStep_one ha ho hl _ true, fun hl => withDec_chunkStep_truncated ha hl ..⟩

/-- Settles O16: INDEX is a chunk of one pixel, the slot's, without a cache write. -/
theorem indexExecutes : Obligations.IndexExecutes := by
  intro s slot ha ho
  refine ⟨fun b0 htag hslot => ?_, fun hl => ?_, fun hl => withDec_chunkStep_truncated ha hl ..⟩
  · have hrgb : b0 ≠ 0xFE := fun h => absurd (h ▸ htag) (by decide)
    have hrgba : b0 ≠ 0xFF := fun h => absurd (h ▸ htag) (by decide)
    rw [decodeChunk_index hrgb hrgba (congrArg BitVec.toNat htag), hslot]
  · obtain ⟨t, ht, heffect⟩ := withDec_chunkStep_one ha ho hl (Pxc.read s.dec.idx slot) false
    exact ⟨t, ht, heffect, heffect.idx_eq⟩

/-- Settles O17: DIFF is a chunk of one pixel, and `add8` is addition modulo 256. -/
theorem diffExecutes : Obligations.DiffExecutes := by
  intro s dr dg db ha ho
  refine ⟨fun hl => ?_, fun hl => withDec_chunkStep_truncated ha hl ..⟩
  obtain ⟨t, ht, heffect⟩ := withDec_chunkStep_one ha ho hl (diffPixel s.dec.prev dr dg db) true
  exact ⟨t, _, ht, heffect, toNat_add8 .., toNat_add8 .., toNat_add8 .., rfl⟩

/-- Settles O18: LUMA is a chunk of one pixel, and `add8` is addition modulo 256. -/
theorem lumaExecutes : Obligations.LumaExecutes := by
  intro s dg x y ha ho
  refine ⟨fun hl => ?_, fun hl => withDec_chunkStep_truncated ha hl ..⟩
  obtain ⟨t, ht, heffect⟩ := withDec_chunkStep_one ha ho hl (lumaPixel s.dec.prev dg x y) true
  exact ⟨t, _, ht, heffect, toNat_add8 .., toNat_add8 .., toNat_add8 .., rfl⟩

/-- Settles O19: the clipped run stays inside the image, where the invariant rules a wrap of OPOS out. -/
theorem runExecutes : Obligations.RunExecutes := by
  intro s n hi ha
  obtain ⟨busy, -, hlt⟩ := enabledAction_eq_body.1 ha
  have hbody := hi.body busy
  have clipped : s.dec.pxpos.toNat + min n (s.dec.pixels - s.dec.pxpos.toNat) ≤ s.dec.pixels := by omega
  exact ⟨fun hl => Dec.chunkStep_executes s 1 _ _ true ha hl hbody.och_legal (hbody.opos_fits clipped),
    fun hl => withDec_chunkStep_truncated ha hl ..⟩

/-- Settles O20: both values make the same chunk step but for its cache write, and inserting a cached PREV changes
nothing. -/
theorem runCacheWriteIsInvisibleWhenPrevIsCached : Obligations.RunCacheWriteIsInvisibleWhenPrevIsCached := by
  intro d a b n ha hb
  rw [Dec.runChunk] at ha hb
  rcases d.chunkStep_cases 1 d.prev (min n (d.pixels - d.pxpos.toNat)) true with ⟨hact, hl, he⟩ | ⟨hact, hl, he⟩ | ⟨-, he⟩
  · rw [he, Dec.retire_cacheWrite] at ha
    rw [Dec.chunkStep_eq_retire hact hl] at hb
    obtain rfl := Host.Outcome.next.inj ha
    obtain rfl := Host.Outcome.next.inj hb
    refine ⟨rfl, fun x hx => ?_, fun hcached => ?_⟩
    · rw [Pxc.read_insert_other _ hx.symm, Dec.retire_idx]
      rfl
    · rw [Pxc.insert_of_read hcached, Dec.retire_frame]
      rfl
  · rw [he] at ha
    rw [Dec.chunkStep_eq_truncated hact hl] at hb
    obtain rfl := Host.Outcome.next.inj ha
    obtain rfl := Host.Outcome.next.inj hb
    exact ⟨rfl, fun _ _ => rfl, fun _ => rfl⟩
  · rw [he] at ha
    cases ha

/-! ### O22, O27: a header that begins an operation, and streams cut short (43_framing.md R226, R232, R260) -/

/-- Settles O22: the hypotheses are what the checks of R226 accept, and the operation begins. -/
theorem headerBeginsTheOperation : Obligations.HeaderBeginsTheOperation := by
  intro s w h c cs ha hlen hreq hw hh hc hcs hbound
  have accepted : s.dec.headerCheck w h c cs = none :=
    Dec.headerCheck_eq_none.2
      ⟨Dec.requestCheck_eq_none.2 ⟨hreq, hlen⟩, descriptorCheck_eq_none.2 ⟨hw, hh, hc, hcs, hbound⟩⟩
  have hstart : s.dec.start w h c cs = .next (s.dec.begin w h c cs) := by rw [Dec.start, if_pos ha, accepted]
  exact ⟨_, congrArg s.withDec hstart, Pxc.read_clear, rfl⟩

namespace Sys2Proof.Machine

/-- A header shorter than 14 bytes is a truncation, once checks 1 and 2 have passed (R226). -/
theorem Dec.fetch_of_short_header {d : Dec} (ha : d.action = some .start) (hpos : 0 < d.inLen.toNat)
    (hreq : d.reqch = 0 ∨ d.reqch = 3 ∨ d.reqch = 4) (hl : d.inLen.toNat < 14) :
    d.fetch = some (.fails .truncated) := by
  have hne : d.inLen ≠ 0 := fun h => by rw [h] at hpos; exact absurd hpos (by decide)
  have hcheck : d.requestCheck = some .truncated := by
    rw [Dec.requestCheck, if_neg hne, if_neg (not_not.2 hreq), if_pos hl]
  rw [Dec.fetch, ha]
  simp only [Dec.fetchHeader, hcheck]

/-- No first byte of a chunk is left (R183). -/
theorem Dec.fetch_of_no_chunk {d : Dec} (ha : d.action = some .body) (hl : d.inLen.toNat ≤ d.ipos.toNat) :
    d.fetch = some (.fails .truncated) := by
  have hone : d.has 1 = false := decide_eq_false (by omega)
  simp [Dec.fetch, ha, Dec.fetchChunk, hone]

/-- The first byte of a chunk names more bytes than are left (R183). -/
theorem Dec.fetch_of_short_chunk {d : Dec} {b0 : Byte} (ha : d.action = some .body)
    (hb0 : Memory.read d.strmIn d.ipos.toNat = some b0) (hl : d.inLen.toNat < d.ipos.toNat + chunkLength b0) :
    d.fetch = some (.fails .truncated) := by
  have hall : d.has (chunkLength b0) = false := decide_eq_false (Nat.not_le.2 hl)
  simp [Dec.fetch, ha, Dec.fetchChunk, hb0, hall]

/-- Fewer than 8 bytes are left for the marker (R228). -/
theorem Dec.fetch_of_short_marker {d : Dec} (ha : d.action = some .finish) (hl : d.inLen.toNat < d.ipos.toNat + 8) :
    d.fetch = some (.fails .truncated) := by
  have hall : d.has Config.markerSize = false := decide_eq_false (Nat.not_le.2 hl)
  simp [Dec.fetch, ha, Dec.fetchMarker, hall]

theorem step_of_fetch_fails {s : State} {c : Cause} (hm : s.mover = some .dec) (hf : s.dec.fetch = some (.fails c)) :
    step s = .next ({ s with dec := s.dec.fail c }).passTurn := by
  rw [step_of_mover_dec hm, Dec.step_of_fails hf]
  rfl

end Sys2Proof.Machine

/-- Settles O27: in each of the places DEC's fetch finds the truncation. -/
theorem streamsCutShortFailAsTruncated : Obligations.StreamsCutShortFailAsTruncated := by
  intro s hm
  refine ⟨fun ha hpos hreq hl => ?_, fun ha hl => ?_, fun b0 ha hb0 hl => ?_, fun ha hl => ?_⟩
  · exact step_of_fetch_fails hm (Dec.fetch_of_short_header ha hpos hreq hl)
  · exact step_of_fetch_fails hm (Dec.fetch_of_no_chunk ha hl)
  · exact step_of_fetch_fails hm (Dec.fetch_of_short_chunk ha hb0 hl)
  · exact step_of_fetch_fails hm (Dec.fetch_of_short_marker ha hl)

end

section

open Sys2Proof Sys2Proof.Machine

/-! ### O53: two decode operations on the same stream (42_chunk_decoder.md R202; 43_framing.md R293) -/

namespace Sys2Proof.Machine

/-! #### Spaces that agree below an offset -/

/-- Two spaces read alike below an offset. -/
def Memory.AgreeBelow (m m' : Memory) (n : Nat) : Prop := ∀ a, a < n → Memory.read m' a = Memory.read m a

namespace Memory.AgreeBelow

variable {m m' : Memory} {n : Nat} (h : AgreeBelow m m' n)
include h

theorem mono {k : Nat} (hk : k ≤ n) : AgreeBelow m m' k := fun a ha => h a (ha.trans_le hk)

/-- The same block written at the offset extends the agreement past it. -/
theorem writeBytes (bs : List Byte) :
    AgreeBelow (Memory.writeBytes m n bs) (Memory.writeBytes m' n bs) (n + bs.length) := by
  intro a ha
  rw [read_writeBytes, read_writeBytes]
  split
  · rfl
  · exact h a (by omega)

end Memory.AgreeBelow

theorem toNat_cursorAdd_le (x : U32) (n : Nat) : (cursorAdd x n).toNat ≤ x.toNat + n := by
  rw [cursorAdd, BitVec.toNat_add, BitVec.toNat_ofNat]
  exact (Nat.mod_le ..).trans (Nat.add_le_add_left (Nat.mod_le ..) _)

/-! #### What an earlier operation can leave in a running one -/

/-- DEC with other contents of OUT_LEN and PIX_OUT, all that a start step does not write (R232; log entry 20). -/
def Dec.withOutput (d : Dec) (n : U32) (m : Memory) : Dec := { d with outLen := n, pixOut := m }

theorem Dec.fetch_withOutput (d : Dec) (n : U32) (m : Memory) : (d.withOutput n m).fetch = d.fetch := rfl

/-- The start step writes every register of an operation from the header and REQCH. -/
theorem Dec.begin_eq_withOutput {d d' : Dec} (hstrm : d'.strmIn = d.strmIn) (hlen : d'.inLen = d.inLen)
    (hreq : d'.reqch = d.reqch) (w h : U32) (c cs : Byte) :
    d'.begin w h c cs = (d.begin w h c cs).withOutput d'.outLen d'.pixOut := by
  simp only [Dec.begin, Dec.withOutput, hstrm, hlen, hreq]

/-- The block that a chunk writes to PIX_OUT: `k` pixels, packed back to back (R196). -/
def Dec.chunkBytes (d : Dec) (cur : Pixel) (k : Nat) : List Byte := (List.replicate k (cur.bytes d.och)).flatten

theorem Dec.length_chunkBytes {d : Dec} (h : d.och = 3 ∨ d.och = 4) (cur : Pixel) (k : Nat) :
    (d.chunkBytes cur k).length = k * d.och.toNat := by
  simp [Dec.chunkBytes, Pixel.bytes_length h]

/-- The writes of a chunk step, each register and the block in PIX_OUT, when OPOS does not wrap (R182). -/
theorem Dec.retire_eq {d : Dec} {k : Nat} (h : d.och = 3 ∨ d.och = 4)
    (hw : d.opos.toNat + (k - 1) * d.och.toNat < 2 ^ 32) (len : Nat) (cur : Pixel) (ins : Bool) :
    d.retire len cur k ins =
      { d with
        idx := if ins then Pxc.insert d.idx cur else d.idx
        prev := cur
        ipos := cursorAdd d.ipos len
        pxpos := cursorAdd d.pxpos k
        opos := cursorAdd d.opos (k * d.och.toNat)
        pixOut := Memory.writeBytes d.pixOut d.opos.toNat (d.chunkBytes cur k) } := by
  have hput := Dec.putTimes_eq (d.cacheWrite ins cur) cur k (by simpa using h) (by simpa using hw)
  rw [Dec.retire, hput]
  cases ins <;> rfl

theorem Dec.endStep_eq_finish {d : Dec} (ha : d.action = some .finish) (hl : d.ipos.toNat + 8 ≤ d.inLen.toNat) :
    d.endStep true = .next (d.finish 8) := by
  have hhas : d.has Config.markerSize = true := decide_eq_true hl
  rw [Dec.endStep, if_pos ha, if_pos rfl, if_pos hhas]

theorem Dec.endStep_eq_truncated {d : Dec} (ha : d.action = some .finish) (hl : d.inLen.toNat < d.ipos.toNat + 8) :
    d.endStep true = .next (d.fail .truncated) := by
  have hhas : d.has Config.markerSize = false := decide_eq_false (Nat.not_le.2 hl)
  rw [Dec.endStep, if_pos ha, hhas]
  rfl

/-! #### The relation that two operations on the same stream keep -/

/-- The results the host may read when DONE (R34, R41). -/
structure Dec.SameResults (d d' : Dec) : Prop where
  width : d'.width = d.width
  height : d'.height = d.height
  channels : d'.channels = d.channels
  colorspace : d'.colorspace = d.colorspace
  och : d'.och = d.och
  outLen : d'.outLen = d.outLen
  pixOut : Memory.AgreeBelow d.pixOut d'.pixOut d.outLen.toNat

/-- Two decode operations at the same point. While they run they differ in OUT_LEN and in the part of PIX_OUT not yet
written; when they have ended they agree on STATUS and, if DONE, on the results. -/
inductive Dec.SameDecode (d d' : Dec) : Prop where
  | running (n : U32) (m : Memory) (busy : d.status.phase = .body) (inv : d.BodyInv)
      (written : Memory.AgreeBelow d.pixOut m d.opos.toNat) (eq : d' = d.withOutput n m)
  | ended (finished : d.status.ended) (quiet : d.ctrl = 0) (quiet' : d'.ctrl = 0) (status : d'.status = d.status)
      (results : d.status.phase = .done → d.SameResults d')

namespace Dec.SameDecode

theorem fail (d d' : Dec) (c : Cause) : SameDecode (d.fail c) (d'.fail c) :=
  .ended (.inr rfl) rfl rfl rfl fun h => by cases h

/-- Two start steps that begin an operation on the same stream. -/
theorem begin {d d' : Dec} (hstrm : d'.strmIn = d.strmIn) (hlen : d'.inLen = d.inLen) (hreq : d'.reqch = d.reqch)
    {w h : U32} {c cs : Byte} (hbody : (d.begin w h c cs).BodyInv) :
    SameDecode (d.begin w h c cs) (d'.begin w h c cs) :=
  .running d'.outLen d'.pixOut rfl hbody (fun a ha => absurd ha (Nat.not_lt_zero a))
    (Dec.begin_eq_withOutput hstrm hlen hreq w h c cs)

/-- Two steps that fetch the same record are alike when its executions are. -/
theorem step_of_fetch {d d' e : Dec} (hfetch : d'.fetch = d.fetch)
    (hexec : ∀ i, d.fetch = some (.record i) → d.exec i = .next e → ∃ e', d'.exec i = .next e' ∧ SameDecode e e')
    (he : d.step = .next e) : ∃ e', d'.step = .next e' ∧ SameDecode e e' := by
  unfold Dec.step at he
  split at he
  case h_1 i hf =>
    rw [Dec.step_of_record (hfetch.trans hf)]
    exact hexec i hf he
  case h_2 c hf =>
    obtain rfl := Host.Outcome.next.inj he
    exact ⟨_, Dec.step_of_fails (hfetch.trans hf), fail ..⟩
  case h_3 => cases he
  case h_4 => cases he

/-- Two start steps on the same stream, whatever stood in the other registers. -/
theorem start {d d' e : Dec} (ha : d.action = some .start) (ha' : d'.action = some .start) (hstrm : d'.strmIn = d.strmIn)
    (hlen : d'.inLen = d.inLen) (hreq : d'.reqch = d.reqch) (he : d.step = .next e) :
    ∃ e', d'.step = .next e' ∧ SameDecode e e' := by
  have hrequest : d'.requestCheck = d.requestCheck := by simp only [Dec.requestCheck, hlen, hreq]
  have hfetch : d'.fetch = d.fetch := by
    simp only [Dec.fetch, ha, ha', Dec.fetchHeader, hrequest, Dec.recordAt, hstrm]
  refine step_of_fetch hfetch (fun i hf hi => ?_) he
  have hrecord := Dec.recordAt_of_fetch_start ha hf
  obtain ⟨hpos, -⟩ := Dec.recordAt_eq_record hrecord
  cases i with
  | rgb | rgba | index | diff | luma | run | endMarker => cases hpos
  | header w h c cs =>
    have hcheck : d'.headerCheck w h c cs = d.headerCheck w h c cs := by simp only [Dec.headerCheck, hrequest]
    rcases d.start_cases w h c cs with ⟨-, hc, hd⟩ | ⟨x, -, hc, hd⟩ | ⟨hn, -⟩
    · obtain rfl := Host.Outcome.next.inj (hd.symm.trans hi)
      have hd' : d'.start w h c cs = .next (d'.begin w h c cs) := by rw [Dec.start, if_pos ha', hcheck, hc]
      exact ⟨_, hd', begin hstrm hlen hreq (Dec.BodyInv.begin hc hrecord)⟩
    · obtain rfl := Host.Outcome.next.inj (hd.symm.trans hi)
      have hd' : d'.start w h c cs = .next (d'.fail x) := by rw [Dec.start, if_pos ha', hcheck, hc]
      exact ⟨_, hd', fail ..⟩
    · exact absurd ha hn

section
variable {d e : Dec} {n : U32} {m : Memory} (h : d.BodyInv) (written : Memory.AgreeBelow d.pixOut m d.opos.toNat)
include h written

/-- After the last pixel all of the output has been written, so the results no longer depend on what stood there. -/
theorem endStep (he : d.endStep true = .next e) :
    ∃ e', (d.withOutput n m).endStep true = .next e' ∧ SameDecode e e' := by
  rcases d.endStep_cases true with ⟨ha, hl, hd⟩ | ⟨ha, -, hl, hd⟩ | ⟨-, hd⟩
  · obtain rfl := Host.Outcome.next.inj (hd.symm.trans he)
    obtain ⟨-, -, hlast⟩ := enabledAction_eq_finish.1 ha
    have hdone := h.doneInv hlast 8
    have hall := written.mono (hdone.outLen.trans hdone.opos.symm).le
    exact ⟨_, Dec.endStep_eq_finish (d := d.withOutput n m) ha (hl rfl),
      .ended (.inl rfl) h.noStart h.noStart rfl fun _ => ⟨rfl, rfl, rfl, rfl, rfl, rfl, hall⟩⟩
  · obtain rfl := Host.Outcome.next.inj (hd.symm.trans he)
    exact ⟨_, Dec.endStep_eq_truncated (d := d.withOutput n m) ha hl, fail ..⟩
  · cases hd.symm.trans he

variable (busy : d.status.phase = .body)
include busy

/-- The writes of the same chunk. -/
theorem retire {len k : Nat} (cur : Pixel) (ins : Bool) (fits : d.ipos.toNat + len ≤ d.inLen.toNat)
    (clipped : d.pxpos.toNat + k ≤ d.pixels) :
    SameDecode (d.retire len cur k ins) ((d.withOutput n m).retire len cur k ins) := by
  have hw := h.opos_fits clipped
  have hblock := written.writeBytes (d.chunkBytes cur k)
  rw [Dec.length_chunkBytes h.och_legal] at hblock
  refine .running n (Memory.writeBytes m d.opos.toNat (d.chunkBytes cur k)) (by rwa [Dec.retire_status])
    (h.retire cur ins fits clipped) ?_ ?_
  · rw [Dec.retire_eq h.och_legal hw]
    exact hblock.mono (toNat_cursorAdd_le ..)
  · rw [Dec.retire_eq (d := d.withOutput n m) h.och_legal hw, Dec.retire_eq h.och_legal hw]
    rfl

theorem chunkStep {len k : Nat} {cur : Pixel} {ins : Bool}
    (clipped : d.pxpos.toNat < d.pixels → d.pxpos.toNat + k ≤ d.pixels) (he : d.chunkStep len cur k ins = .next e) :
    ∃ e', (d.withOutput n m).chunkStep len cur k ins = .next e' ∧ SameDecode e e' := by
  rcases d.chunkStep_cases len cur k ins with ⟨ha, hl, hd⟩ | ⟨ha, hl, hd⟩ | ⟨-, hd⟩
  · obtain rfl := Host.Outcome.next.inj (hd.symm.trans he)
    obtain ⟨-, -, hlt⟩ := enabledAction_eq_body.1 ha
    exact ⟨_, Dec.chunkStep_eq_retire (d := d.withOutput n m) ha hl cur k ins,
      retire h written busy cur ins hl (clipped hlt)⟩
  · obtain rfl := Host.Outcome.next.inj (hd.symm.trans he)
    exact ⟨_, Dec.chunkStep_eq_truncated (d := d.withOutput n m) ha hl cur k ins, fail ..⟩
  · cases hd.symm.trans he

/-- The same record, executed while both operations run; HEADER is not enabled there (R45). -/
theorem exec {i : Instr} (he : d.exec i = .next e) :
    ∃ e', (d.withOutput n m).exec i = .next e' ∧ SameDecode e e' := by
  cases i with
  | rgb | rgba | index | diff | luma => exact chunkStep h written busy id he
  | run k =>
    exact chunkStep (k := min k (d.pixels - d.pxpos.toNat)) h written busy (fun hlt => by omega) he
  | header w hh c cs =>
    have hstart : d.action ≠ some .start := fun ha => (enabledAction_eq_start.1 ha).1 busy
    cases ((d.exec_enabled (.header w hh c cs)).2 hstart).symm.trans he
  | endMarker => exact endStep h written he

theorem step_of_running (he : d.step = .next e) : ∃ e', (d.withOutput n m).step = .next e' ∧ SameDecode e e' :=
  step_of_fetch (d.fetch_withOutput n m) (fun _ _ => exec h written busy) he

end

end Dec.SameDecode

/-! #### The block, with ENC quiet -/

theorem step_of_dec_step {s : State} {a : Action} {d : Dec} (he : s.enc.action = none) (ha : s.dec.action = some a)
    (hd : s.dec.step = .next d) : step s = .next ({ s with dec := d }).passTurn := by
  rw [step_of_mover_dec (State.mover_of_dec he ha), hd]
  rfl

/-- With ENC quiet, a step of the block is DEC's enabled step. -/
theorem exists_dec_step {s t : State} {a : Action} (he : s.enc.action = none) (ha : s.dec.action = some a)
    (h : step s = .next t) : ∃ d, s.dec.step = .next d ∧ t = ({ s with dec := d }).passTurn := by
  rw [step_of_mover_dec (State.mover_of_dec he ha)] at h
  obtain ⟨u, hu, rfl⟩ := passTurn_eq_next.1 h
  obtain ⟨d, hd, rfl⟩ := State.withDec_eq_next.1 hu
  exact ⟨d, hd, rfl⟩

/-- An ended operation has no step until the next START (R264). -/
theorem Dec.action_of_ended {d : Dec} (h : d.status.ended) (hc : d.ctrl = 0) : d.action = none := by
  refine enabledAction_of_quiet (fun hb => ?_) hc
  rcases h with h | h <;> cases hb.symm.trans h

/-- A step of one block is answered by a step of the other. -/
theorem sameDecode_step {s s' t : State} (he : s.enc.action = none) (he' : s'.enc.action = none) (h : s.dec.SameDecode s'.dec)
    (hs : step s = .next t) :
    ∃ t', step s' = .next t' ∧ t.enc = s.enc ∧ t'.enc = s'.enc ∧ t.dec.SameDecode t'.dec := by
  cases h with
  | ended hend hctrl hctrl' hstatus hresults =>
    have hend' : s'.dec.status.ended := hstatus ▸ hend
    rw [step_of_mover_none (State.mover_of_none he (Dec.action_of_ended hend hctrl))] at hs
    obtain rfl := Host.Outcome.next.inj hs
    exact ⟨s', step_of_mover_none (State.mover_of_none he' (Dec.action_of_ended hend' hctrl')), rfl, rfl,
      .ended hend hctrl hctrl' hstatus hresults⟩
  | running n m busy inv written eq =>
    have ha := enabledAction_of_body busy inv.noStart inv.pxpos_le
    obtain ⟨d, hd, rfl⟩ := exists_dec_step he ha hs
    obtain ⟨d', hd', hsame⟩ := Dec.SameDecode.step_of_running inv written busy hd
    have haction : s'.dec.action = s.dec.action := by
      rw [eq]
      rfl
    exact ⟨_, step_of_dec_step he' (haction.trans ha) (eq ▸ hd'), rfl, rfl, hsame⟩

theorem sameDecode_runs {k : Nat} {s s' t : State} (he : s.enc.action = none) (he' : s'.enc.action = none)
    (h : s.dec.SameDecode s'.dec) (hr : runs k s t) : ∃ t', runs k s' t' ∧ t.dec.SameDecode t'.dec := by
  induction k generalizing s s' with
  | zero =>
    obtain rfl := Host.Outcome.next.inj hr
    exact ⟨s', runs_zero s', h⟩
  | succ k ih =>
    obtain ⟨u, hs, hr⟩ := runs_succ_iff.1 hr
    obtain ⟨u', hs', henc, henc', hu⟩ := sameDecode_step he he' h hs
    obtain ⟨t', hr', ht⟩ := ih (henc ▸ he) (henc' ▸ he') hu hr
    exact ⟨t', runs_succ_iff.2 ⟨u', hs', hr'⟩, ht⟩

end Sys2Proof.Machine

/-- Settles O53: the start steps put the two operations at the same point, and every later step keeps them there. -/
theorem decodingForgetsTheState : Obligations.DecodingForgetsTheState := by
  intro s s' he he' ha ha' hstrm hlen hreq k t hk hr hend
  obtain ⟨k, rfl⟩ := Nat.exists_eq_add_of_le' hk
  obtain ⟨u, hs, hr⟩ := runs_succ_iff.1 hr
  obtain ⟨d, hd, rfl⟩ := exists_dec_step he ha hs
  obtain ⟨d', hd', hsame⟩ := Dec.SameDecode.start ha ha' hstrm hlen hreq hd
  obtain ⟨t', hr', ht⟩ := sameDecode_runs (s := ({ s with dec := d }).passTurn) (s' := ({ s' with dec := d' }).passTurn)
    he he' hsame hr
  refine ⟨t', runs_succ_iff.2 ⟨_, step_of_dec_step he' ha' hd', hr'⟩, ?_⟩
  cases ht with
  | running _ _ busy => exact absurd busy (by rcases hend with h | h <;> rw [h] <;> decide)
  | ended _ _ _ hstatus hresults =>
    refine ⟨hstatus, fun hdone => ?_⟩
    obtain ⟨hwidth, hheight, hchannels, hcolorspace, hoch, houtLen, hpixOut⟩ := hresults hdone
    exact ⟨hwidth, hheight, hchannels, hcolorspace, hoch, houtLen, hpixOut⟩

end

section

open Sys2Proof Sys2Proof.Machine

/-! ### O23, O24, O25, O34: the start steps' checks, what they bound, and the end step (43_framing.md R224 to R228) -/

namespace Sys2Proof.Machine

/-- A register is zero when its number is. -/
theorem toNat_eq_zero_iff {n : Nat} {x : BitVec n} : x.toNat = 0 ↔ x = 0 := by
  rw [← BitVec.toNat_inj]
  rfl

/-- The descriptor checks in their order, on the numbers of the registers (R224). -/
theorem descriptorCheck_eq (w h : U32) (c cs : Byte) :
    descriptorCheck w h c cs =
      if w.toNat = 0 ∨ h.toNat = 0 then some .zeroDim
      else if ¬(c = 3 ∨ c = 4) then some .channels
      else if ¬(cs = 0 ∨ cs = 1) then some .colorspace
      else if 400000000 / w.toNat ≤ h.toNat then some .tooManyPixels
      else none := by
  simp only [descriptorCheck, tooManyPixels, toNat_eq_zero_iff, decide_eq_true_eq]

/-- DEC's checks but the magic, in their order (R226). -/
theorem Dec.headerCheck_eq (d : Dec) (w h : U32) (c cs : Byte) :
    d.headerCheck w h c cs =
      if d.inLen.toNat = 0 then some .empty
      else if ¬(d.reqch = 0 ∨ d.reqch = 3 ∨ d.reqch = 4) then some .reqChannels
      else if d.inLen.toNat < 14 then some .truncated
      else descriptorCheck w h c cs := by
  simp only [Dec.headerCheck, Dec.requestCheck, toNat_eq_zero_iff]
  split_ifs <;> rfl

/-- ENC's checks in their order: two on the input, the descriptor's, and the size of PIX_IN (R225). -/
theorem Enc.startCheck_eq (e : Enc) :
    e.startCheck =
      if e.pixLen.toNat = 0 then some .empty
      else if e.descValid = 0 then some .noDescriptor
      else (descriptorCheck e.width e.height e.channels e.colorspace).or
        (if e.pixLen.toNat ≠ e.width.toNat * e.height.toNat * e.channels.toNat then some .pixbufSize else none) := by
  simp only [Enc.startCheck, toNat_eq_zero_iff]
  cases descriptorCheck e.width e.height e.channels e.colorspace <;> rfl

theorem Dec.start_of_accepted {d : Dec} {w h : U32} {c cs : Byte} (ha : d.action = some .start)
    (hcheck : d.headerCheck w h c cs = none) : d.start w h c cs = .next (d.begin w h c cs) := by
  rw [Dec.start, if_pos ha, hcheck]

theorem Dec.start_of_rejected {d : Dec} {w h : U32} {c cs : Byte} {x : Cause} (ha : d.action = some .start)
    (hcheck : d.headerCheck w h c cs = some x) : d.start w h c cs = .next (d.fail x) := by
  rw [Dec.start, if_pos ha, hcheck]

theorem encStep_of_rejected {s : State} {x : Cause} (ha : s.enc.action = some .start)
    (hcheck : s.enc.startCheck = some x) : encStep s = .next { s with enc := s.enc.fail x } := by
  simp only [encStep, Enc.step, ha, Enc.start, hcheck, State.withEnc]

/-- The bound check compares with a floor, so it leaves room for one row more (R224). -/
theorem mul_height_succ_le {w h : U32} {c cs : Byte} (hd : descriptorCheck w h c cs = none) :
    w.toNat * (h.toNat + 1) ≤ 400000000 := by
  obtain ⟨-, -, -, -, hbound⟩ := descriptorCheck_eq_none.1 hd
  exact (Nat.mul_le_mul_left _ hbound).trans (Nat.mul_div_le ..)

end Sys2Proof.Machine

/-- Settles O23: HEADER answers the failure that the chain of checks names, check by check. -/
theorem headerFailsWithTheFirstCheckThatApplies : Obligations.HeaderFailsWithTheFirstCheckThatApplies := by
  intro s w h c cs ha failsWith
  have fails {x : Cause} (hx : s.dec.headerCheck w h c cs = some x) : failsWith x :=
    congrArg s.withDec (Dec.start_of_rejected ha hx)
  have hcheck := s.dec.headerCheck_eq w h c cs
  rw [descriptorCheck_eq] at hcheck
  split_ifs at hcheck ⊢
  any_goals exact fails hcheck
  exact ⟨_, congrArg s.withDec (Dec.start_of_accepted ha hcheck), rfl⟩

/-- Settles O34: ENC.start answers the failure that the chain of checks names, check by check. -/
theorem encodeStartFailsWithTheFirstCheckThatApplies : Obligations.EncodeStartFailsWithTheFirstCheckThatApplies := by
  intro s ha failsWith
  have fails {x : Cause} (hx : s.enc.startCheck = some x) : failsWith x := encStep_of_rejected ha hx
  have hcheck := s.enc.startCheck_eq
  rw [descriptorCheck_eq] at hcheck
  split_ifs at hcheck ⊢
  any_goals exact fails hcheck
  exact ⟨_, encStep_of_accepted ha hcheck, rfl⟩

/-- Settles O24: an accepted image has at least one row and one column, and room for one row more. -/
theorem acceptedImagesFitThirtyTwoBits : Obligations.AcceptedImagesFitThirtyTwoBits := by
  intro w h c cs hd
  obtain ⟨hw, hh, hc, -, -⟩ := descriptorCheck_eq_none.1 hd
  have hwpos : 0 < w.toNat := BitVec.toNat_pos_of_ne_zero hw
  have hhpos : 0 < h.toNat := BitVec.toNat_pos_of_ne_zero hh
  have hroom : pixelCount w h + w.toNat ≤ 400000000 := mul_height_succ_le hd
  have hwidth : w.toNat ≤ pixelCount w h := Nat.le_mul_of_pos_right _ hhpos
  have hheight : h.toNat ≤ pixelCount w h := Nat.le_mul_of_pos_left _ hwpos
  have hchannels := (channels_bounds hc).2
  have hpixels := Nat.mul_le_mul_left (pixelCount w h) hchannels
  have hchunks := Nat.mul_le_mul_left (pixelCount w h) (Nat.add_le_add_right hchannels 1)
  exact ⟨by omega, by omega, by omega, by omega, by omega, by omega⟩

/-- Settles O25, by the two answers of the end step. -/
theorem endMarkerFinishesTheOperation : Obligations.EndMarkerFinishesTheOperation :=
  fun s ha =>
    ⟨fun hl => congrArg s.withDec (Dec.endStep_eq_finish ha hl),
      fun hl => congrArg s.withDec (Dec.endStep_eq_truncated ha hl)⟩

end

section

open Sys2Proof Sys2Proof.Machine

/-! ### O56: the round trip (42_chunk_decoder.md R203; 43_framing.md R236) -/

namespace Sys2Proof.Machine

/-! #### Block reads in two parts, and blocks of equal pixels -/

theorem Memory.readBytes_cons_iff {m : Memory} {a : Nat} {b : Byte} {bs : List Byte} :
    readBytes m a (b :: bs).length = some (b :: bs) ↔
      read m a = some b ∧ readBytes m (a + 1) bs.length = some bs := by
  rw [List.length_cons, readBytes]
  cases read m a <;> cases readBytes m (a + 1) bs.length <;> simp

theorem Memory.readBytes_append_iff {m : Memory} {a : Nat} {bs cs : List Byte} :
    readBytes m a (bs ++ cs).length = some (bs ++ cs) ↔
      readBytes m a bs.length = some bs ∧ readBytes m (a + bs.length) cs.length = some cs := by
  induction bs generalizing a with
  | nil => simp [readBytes]
  | cons b bs ih =>
    rw [List.cons_append, readBytes_cons_iff, ih, readBytes_cons_iff, and_assoc, List.length_cons, Nat.add_assoc,
      Nat.add_comm 1]

/-- A block that stands `k` times in a row. -/
theorem Memory.readBytes_replicate {m : Memory} {a k : Nat} {bs : List Byte}
    (h : ∀ j, j < k → readBytes m (a + j * bs.length) bs.length = some bs) :
    readBytes m a (List.replicate k bs).flatten.length = some (List.replicate k bs).flatten := by
  induction k with
  | zero => rfl
  | succ k ih =>
    have hlen : (List.replicate k bs).flatten.length = k * bs.length := by simp
    rw [List.replicate_succ', List.flatten_concat, readBytes_append_iff, hlen]
    exact ⟨hlen ▸ ih fun j hj => h j (hj.trans (Nat.lt_succ_self k)), h k (Nat.lt_succ_self k)⟩

/-- Writing the block that the other space holds there extends the agreement past it. -/
theorem Memory.AgreeBelow.writeBytes_of_read {m m' : Memory} {n : Nat} {bs : List Byte} (h : AgreeBelow m m' n)
    (hbs : Memory.readBytes m n bs.length = some bs) : AgreeBelow m (Memory.writeBytes m' n bs) (n + bs.length) := by
  obtain ⟨-, hread⟩ := (Memory.readBytes_eq_some_iff ..).1 hbs
  intro a ha
  rw [Memory.read_writeBytes]
  split
  case isTrue hin => rw [← hread (a - n) (by omega), Nat.add_sub_cancel' hin.1]
  case isFalse hout => exact h a (by omega)

theorem Enc.pixelBytes_eq {e : Enc} (hc : e.channels = 3 ∨ e.channels = 4) : e.pixelBytes = e.channels.toNat := by
  rcases hc with hc | hc <;> rw [Enc.pixelBytes, hc] <;> rfl

theorem decode_encode {i : Instr} (hwf : i.wf = true) : decode i.position (encode i) = .ok (i, []) := by
  simpa using decodeOfEncodeGivesTheRecord i [] hwf

/-! #### Steps of DEC alone, and the bytes that come next -/

/-- DEC gets from the first state to the second by its own enabled steps (R45). -/
def Dec.Reaches : Dec → Dec → Prop := Relation.ReflTransGen fun d d' => d.step = .next d'

theorem Dec.Reaches.of_step {d d' : Dec} (h : d.step = .next d') : d.Reaches d' := .single h

/-- A step of DEC that answers a next state was enabled (R45). -/
theorem Dec.exists_action_of_step {d d' : Dec} (h : d.step = .next d') : ∃ a, d.action = some a := by
  cases ha : d.action with
  | some a => exact ⟨a, rfl⟩
  | none =>
    have hfetch : d.fetch = none := by rw [Dec.fetch, ha]
    rw [Dec.step, hfetch] at h
    cases h

/-- With ENC quiet the block runs as DEC does (R20). -/
theorem exists_runs_of_reaches {d d' : Dec} (h : d.Reaches d') {t : State} (he : t.enc.action = none) (hd : t.dec = d) :
    ∃ k t', runs k t t' ∧ t'.dec = d' := by
  induction h using Relation.ReflTransGen.head_induction_on generalizing t with
  | refl => exact ⟨0, t, runs_zero t, hd⟩
  | head hstep _ ih =>
    subst hd
    obtain ⟨a, ha⟩ := Dec.exists_action_of_step hstep
    obtain ⟨k, t', hrun, ht'⟩ := ih (t := ({ t with dec := _ }).passTurn) he rfl
    exact ⟨k + 1, t', runs_succ_iff.2 ⟨_, step_of_dec_step he ha hstep, hrun⟩, ht'⟩

/-- The bytes that stand in STRM_IN from IPOS on, all of them within IN_LEN. -/
structure Dec.Upcoming (d : Dec) (bs : List Byte) : Prop where
  read : Memory.readBytes d.strmIn d.ipos.toNat bs.length = some bs
  fits : d.ipos.toNat + bs.length ≤ d.inLen.toNat

namespace Dec.Upcoming

variable {d : Dec} {bs cs : List Byte} (h : d.Upcoming (bs ++ cs))
include h

theorem left : d.Upcoming bs where
  read := (Memory.readBytes_append_iff.1 h.read).1
  fits := by
    have := h.fits
    rw [List.length_append] at this
    omega

/-- Past the first part the second comes next. -/
theorem advance {d' : Dec} (hstrm : d'.strmIn = d.strmIn) (hlen : d'.inLen = d.inLen)
    (hipos : d'.ipos = cursorAdd d.ipos bs.length) : d'.Upcoming cs := by
  have hfits := h.fits
  rw [List.length_append, ← Nat.add_assoc] at hfits
  have hn : d'.ipos.toNat = d.ipos.toNat + bs.length := by rw [hipos, toNat_cursorAdd (by omega)]
  exact ⟨by rw [hn, hstrm]; exact (Memory.readBytes_append_iff.1 h.read).2, by rw [hn, hlen]; exact hfits⟩

end Dec.Upcoming

section
variable {d : Dec} {i : Instr} {rest : List Byte} (h : d.Upcoming (encode i ++ rest))
include h

theorem Dec.Upcoming.length_fits : d.ipos.toNat + i.length ≤ d.inLen.toNat := encode_length i ▸ h.left.fits

/-- The writes of a chunk move IPOS past it (R182). -/
theorem Dec.Upcoming.retire (cur : Pixel) (k : Nat) (ins : Bool) : (d.retire i.length cur k ins).Upcoming rest :=
  h.advance (by rw [Dec.retire_frame]) (by rw [Dec.retire_frame]) (by rw [Dec.retire_frame, encode_length])

/-- A well-formed chunk that comes next is executed (R182). -/
theorem Dec.step_of_upcoming_chunk (ha : d.action = some .body) (hpos : i.position = .chunk) (hwf : i.wf = true) :
    d.step = d.exec i := by
  have hdec := decode_encode hwf
  rw [hpos] at hdec
  exact Dec.step_of_chunk ha hdec h.left.read h.left.fits

end

/-! #### DEC on the heels of ENC -/

/-- DEC decodes the image that ENC encodes, and what it has produced so far are that image's pixels. -/
structure Dec.Copies (d : Dec) (e : Enc) : Prop where
  busy : d.status.phase = .body
  inv : d.BodyInv
  width : d.width = e.width
  height : d.height = e.height
  channels : d.channels = e.channels
  colorspace : d.colorspace = e.colorspace
  och : d.och = e.channels
  written : Memory.AgreeBelow e.pixIn d.pixOut d.opos.toNat

/-- DEC has decoded all that ENC has emitted, `rest` comes next, and the pixels that DEC lacks are those of ENC's
pending run. -/
structure Dec.Follows (d : Dec) (e : Enc) (rest : List Byte) : Prop extends d.Copies e where
  lockstep : Lockstep e d
  pxpos : d.pxpos.toNat + e.run.toNat = e.pxpos.toNat
  pending : ∀ i, d.pxpos.toNat ≤ i → i < e.pxpos.toNat → e.HasPixel i e.prev
  upcoming : d.Upcoming rest

/-- DEC has finished with the image that ENC encodes (R236). -/
structure Dec.HasImage (d : Dec) (e : Enc) : Prop where
  done : d.status.phase = .done
  width : d.width = e.width
  height : d.height = e.height
  channels : d.channels = e.channels
  colorspace : d.colorspace = e.colorspace
  och : d.och = e.channels
  outLen : d.outLen = e.pixLen
  pixels : Memory.AgreeBelow e.pixIn d.pixOut e.pixLen.toNat

namespace Dec.Copies

variable {d : Dec} {e : Enc} (h : d.Copies e)
include h

theorem pixels_eq : d.pixels = e.pixels := by rw [Dec.pixels, Enc.pixels, h.width, h.height]

theorem channels_legal : e.channels = 3 ∨ e.channels = 4 := h.och ▸ h.inv.och_legal

/-- While pixels are missing DEC's step is the chunk step (R45). -/
theorem action_body (hlt : d.pxpos.toNat < e.pixels) : d.action = some .body :=
  enabledAction_eq_body.2 ⟨h.busy, ctrl_ne_one.2 h.inv.noStart, h.pixels_eq ▸ hlt⟩

/-- The block that a chunk writes stands in PIX_IN already, when the chunk's pixels are ENC's. -/
theorem readBytes_chunkBytes {cur : Pixel} {k : Nat}
    (hpix : ∀ i, d.pxpos.toNat ≤ i → i < d.pxpos.toNat + k → e.HasPixel i cur) :
    Memory.readBytes e.pixIn d.opos.toNat (d.chunkBytes cur k).length = some (d.chunkBytes cur k) := by
  refine Memory.readBytes_replicate fun j hj => ?_
  have hread := hpix (d.pxpos.toNat + j) (by omega) (by omega)
  rwa [Enc.HasPixel, Enc.pixelBytes_eq h.channels_legal, ← h.och, Nat.mul_comm, Nat.add_mul, ← h.inv.opos,
    ← Pixel.bytes_length (p := cur) h.inv.och_legal] at hread

/-- A chunk whose pixels are ENC's next ones. -/
theorem retire {len k : Nat} {cur : Pixel} (fits : d.ipos.toNat + len ≤ d.inLen.toNat)
    (clipped : d.pxpos.toNat + k ≤ e.pixels)
    (hpix : ∀ i, d.pxpos.toNat ≤ i → i < d.pxpos.toNat + k → e.HasPixel i cur) (ins : Bool) :
    (d.retire len cur k ins).Copies e := by
  rw [← h.pixels_eq] at clipped
  have hw := h.inv.opos_fits clipped
  have hwritten := h.written.writeBytes_of_read (h.readBytes_chunkBytes hpix)
  rw [Dec.length_chunkBytes h.inv.och_legal] at hwritten
  have hbody := h.inv.retire cur ins fits clipped
  rw [Dec.retire_eq h.inv.och_legal hw] at hbody ⊢
  exact
    { h with
      inv := hbody
      written := hwritten.mono (toNat_cursorAdd_le ..) }

/-- ENC's PXPOS after one more pixel of the image. -/
theorem toNat_pxpos_succ (hlt : e.pxpos.toNat < e.pixels) : (cursorAdd e.pxpos 1).toNat = e.pxpos.toNat + 1 := by
  have hn := h.inv.pixels_le
  rw [h.pixels_eq] at hn
  exact toNat_cursorAdd (by omega)

/-- DEC's PXPOS after a chunk that stays inside the image. -/
theorem toNat_pxpos_retire {k : Nat} (clipped : d.pxpos.toNat + k ≤ e.pixels) (len : Nat) (cur : Pixel) (ins : Bool) :
    (d.retire len cur k ins).pxpos.toNat = d.pxpos.toNat + k := by
  have hn := h.inv.pixels_le
  rw [h.pixels_eq] at hn
  rw [Dec.retire_pxpos, toNat_cursorAdd (by omega)]

end Dec.Copies

/-! #### One pixel of ENC, and the chunks it lets DEC execute -/

/-- The equal path before a flush: the run and PXPOS grow (R144, R156). -/
def Enc.grow (e : Enc) : Enc := { e with run := e.run + 1, pxpos := cursorAdd e.pxpos 1 }

/-- The equal path is growth, and at 62 and at the last pixel a flush (R145). -/
theorem Enc.pixel_prev_eq_grow (e : Enc) :
    e.pixel e.prev = if e.run.toNat + 1 = 62 ∨ e.pxpos.toNat + 1 = e.pixels then e.grow.flush else e.grow :=
  e.pixel_prev

/-- The unequal path may flush the pending run first (R147). -/
theorem Enc.pixel_flush {e : Enc} {cur : Pixel} (h : cur ≠ e.prev) (hrun : 0 < e.run.toNat) :
    e.flush.pixel cur = e.pixel cur := by
  have hpending : e.flushPending = e.flush := if_pos hrun
  rw [Enc.pixel_of_ne (e := e.flush) h, Enc.pixel_of_ne h, hpending]
  rfl

/-- RUN is flushed at 62, so that a pixel step leaves at most 61 (R24). -/
theorem Enc.toNat_run_pixel_le {e : Enc} (h : e.run.toNat ≤ 61) (cur : Pixel) : (e.pixel cur).run.toNat ≤ 61 := by
  by_cases hc : cur = e.prev
  · subst hc
    rw [Enc.pixel_prev]
    split
    case isTrue => exact Nat.zero_le _
    case isFalse hno =>
      rw [toNat_run_succ]
      omega
  · rw [Enc.pixel_of_ne hc]
    exact Nat.zero_le _

namespace Dec.Follows

variable {d : Dec} {e : Enc} {rest : List Byte}

/-- One more pixel in the pending run; DEC does nothing. -/
theorem grow (h : d.Follows e rest) (hrun : e.run.toNat ≤ 61) (hlt : e.pxpos.toNat < e.pixels)
    (hpix : e.HasPixel e.pxpos.toNat e.prev) : d.Follows e.grow rest := by
  have hgrown : (e.run + 1).toNat = e.run.toNat + 1 := by
    rw [toNat_run_succ]
    omega
  have hpx := h.toNat_pxpos_succ hlt
  exact
    { h with
      lockstep := ⟨h.lockstep.prev, h.lockstep.cache, h.lockstep.own⟩
      pxpos := by
        simp only [Enc.grow, hgrown, hpx, ← h.pxpos]
        rfl
      pending := by
        simp only [Enc.grow, hpx]
        intro i hge hi
        rcases Nat.lt_succ_iff_lt_or_eq.1 hi with hi | rfl
        · exact h.pending i hge hi
        · exact hpix }

/-- A flushed run: one RUN chunk, which gives DEC the pixels that it lacks (R145 to R147, R189). -/
theorem flush (h : d.Follows e (encode (.run e.run.toNat) ++ rest)) (hpos : 0 < e.run.toNat)
    (hrun : e.run.toNat ≤ 62) (hle : e.pxpos.toNat ≤ e.pixels) :
    ∃ d', d.Reaches d' ∧ d'.Follows e.flush rest := by
  have hpx := h.pxpos
  have clipped : d.pxpos.toNat + e.run.toNat ≤ e.pixels := hpx.trans_le hle
  have ha := h.action_body (by omega)
  have hfits := h.upcoming.length_fits
  have hmin : min e.run.toNat (d.pixels - d.pxpos.toNat) = e.run.toNat := by
    rw [h.pixels_eq]
    omega
  have hstep : d.step = .next (d.retire 1 d.prev e.run.toNat true) := by
    rw [Dec.step_of_upcoming_chunk h.upcoming ha rfl (Instr.wf_run_iff.2 ⟨hpos, hrun⟩)]
    exact (congrArg (d.chunkStep 1 d.prev · true) hmin).trans (Dec.chunkStep_eq_retire ha hfits ..)
  have hcopies := h.retire (cur := d.prev) hfits clipped
    (fun i hge hi => h.lockstep.prev ▸ h.pending i hge (by omega)) true
  have hlock := h.lockstep.prev_retire 1 e.run.toNat true
  have hpx' := h.toNat_pxpos_retire clipped 1 d.prev true
  exact ⟨_, .of_step hstep,
    { hcopies with
      lockstep := ⟨hlock.prev, hlock.cache, hlock.own⟩
      pxpos := hpx'.trans hpx
      pending := fun i hge hi => absurd hi (Nat.not_lt.2 ((hpx'.trans hpx).symm.trans_le hge))
      upcoming := h.upcoming.retire d.prev e.run.toNat true }⟩

/-- The chunk of a pixel that differs from PREV, with no run pending (R148 to R155, R203). -/
theorem pixel_of_ne {cur : Pixel} (h : d.Follows e (encode (chunkFor e.idx e.prev cur) ++ rest)) (hne : cur ≠ e.prev)
    (hrun : e.run.toNat = 0) (hlt : e.pxpos.toNat < e.pixels) (hpix : e.HasPixel e.pxpos.toNat cur) :
    ∃ d', d.Reaches d' ∧ d'.Follows (e.pixel cur) rest := by
  have hpx : d.pxpos.toNat = e.pxpos.toNat := by rw [← h.pxpos, hrun, Nat.add_zero]
  have ha := h.action_body (hpx.trans_lt hlt)
  have hfits := h.upcoming.length_fits
  have hstep : d.step = .next (d.retire (chunkFor e.idx e.prev cur).length cur 1 (!hit e.idx cur)) := by
    rw [Dec.step_of_upcoming_chunk h.upcoming ha (chunkFor_position ..) (chosenChunkReproducesThePixel ..).1,
      h.lockstep.exec_chunkFor, Dec.chunkStep_eq_retire ha hfits]
  have clipped : d.pxpos.toNat + 1 ≤ e.pixels := by omega
  have hcopies := h.retire hfits clipped (fun i hge hi => (show i = e.pxpos.toNat by omega) ▸ hpix) (!hit e.idx cur)
  have hpx' := h.toNat_pxpos_retire clipped
  have hpxe := h.toNat_pxpos_succ hlt
  have hlock := h.lockstep.pixel_retire hne
  refine ⟨_, .of_step hstep, ?_⟩
  rw [Enc.pixel_of_ne hne] at hlock ⊢
  exact
    { hcopies with
      lockstep := hlock _
      pxpos := by
        simp only [hpx', hpxe, hpx]
        rfl
      pending := fun i hge hi => absurd hi (by simp only [hpx'] at hge; simp only [hpxe]; omega)
      upcoming := h.upcoming.retire .. }

/-- What a pixel step of ENC emits takes DEC along (R143, R203). -/
theorem pixel {cur : Pixel} (h : d.Follows e (e.emittedBytes cur ++ rest)) (hrun : e.run.toNat ≤ 61)
    (hlt : e.pxpos.toNat < e.pixels) (hpix : e.HasPixel e.pxpos.toNat cur) :
    ∃ d', d.Reaches d' ∧ d'.Follows (e.pixel cur) rest := by
  by_cases hc : cur = e.prev
  · subst hc
    rw [Enc.emittedBytes, if_pos rfl, Enc.samePathBytes] at h
    rw [Enc.pixel_prev_eq_grow]
    have hgrow := h.grow hrun hlt hpix
    have hgrown : e.grow.run.toNat = e.run.toNat + 1 := by
      rw [Enc.grow, toNat_run_succ]
      omega
    have hpx : e.grow.pxpos.toNat ≤ e.pxpos.toNat + 1 := toNat_cursorAdd_le ..
    split
    case isTrue hflush =>
      rw [if_pos hflush] at hgrow
      exact hgrow.flush (by omega) (by omega) (hpx.trans hlt)
    case isFalse hno =>
      rw [if_neg hno] at hgrow
      exact ⟨d, .refl, hgrow⟩
  · rw [Enc.emittedBytes, if_neg hc, Enc.pendingBytes, List.append_assoc] at h
    by_cases hpos : 0 < e.run.toNat
    · rw [if_pos hpos] at h
      obtain ⟨d₁, hreach, hfollows⟩ := h.flush hpos (by omega) hlt.le
      obtain ⟨d₂, hreach', hfollows'⟩ := hfollows.pixel_of_ne (cur := cur) hc rfl hlt hpix
      exact ⟨d₂, hreach.trans hreach', Enc.pixel_flush hc hpos ▸ hfollows'⟩
    · rw [if_neg hpos] at h
      exact pixel_of_ne h hc (Nat.eq_zero_of_not_pos hpos) hlt hpix

/-- The marker after the last pixel finishes DEC's operation with ENC's image (R228). -/
theorem finish (h : d.Follows e Config.endMarker) (he : e.BodyInv) (hlast : e.pxpos.toNat = e.pixels) :
    ∃ d', d.Reaches d' ∧ d'.HasImage e := by
  obtain ⟨-, -, -, hlen⟩ := Enc.startCheck_eq_none.1 he.accepted
  have hpx : d.pxpos.toNat = d.pixels := by
    have := h.pxpos
    rw [he.flushed hlast] at this
    exact this.trans (hlast.trans h.pixels_eq.symm)
  have ha : d.action = some .finish := enabledAction_eq_finish.2 ⟨h.busy, ctrl_ne_one.2 h.inv.noStart, hpx⟩
  have hstep : d.step = .next (d.finish 8) :=
    (Dec.step_of_marker (i := .endMarker) ha rfl h.upcoming.read h.upcoming.fits).trans
      (Dec.endStep_eq_finish ha h.upcoming.fits)
  have hsize : d.pixels * d.och.toNat = e.pixLen.toNat := by rw [hlen, h.pixels_eq, h.och]
  have hwritten := h.written
  rw [h.inv.opos, hpx, hsize] at hwritten
  refine ⟨_, .of_step hstep, rfl, h.width, h.height, h.channels, h.colorspace, h.och, ?_, hwritten⟩
  rw [Dec.finish_outLen, hsize, BitVec.ofNat_toNat, BitVec.setWidth_eq]

end Dec.Follows

/-! #### The whole of ENC's operation -/

/-- From `e` on ENC emits `bs` and is DONE in `f`; and any DEC that has followed it so far decodes `bs` to the image. -/
structure Enc.Completes (e f : Enc) (bs : List Byte) : Prop where
  done : f.status.phase = .done
  byteCount : f.byteCount = f.opos
  emits : Emits e f bs
  fits : e.opos.toNat + bs.length < 2 ^ 32
  decodes : ∀ d : Dec, d.Follows e bs → ∃ d', d.Reaches d' ∧ d'.HasImage e

/-- An image is told from the registers and the space that a pixel step leaves alone (R156). -/
theorem Dec.HasImage.of_pixel {d : Dec} {e : Enc} {cur : Pixel} (h : d.HasImage (e.pixel cur)) : d.HasImage e := by
  rw [Enc.pixel_frame] at h
  exact ⟨h.done, h.width, h.height, h.channels, h.colorspace, h.och, h.outLen, h.pixels⟩

theorem Enc.completes_finish {e : Enc} (h : e.BodyInv) (hlast : e.pxpos.toNat = e.pixels) :
    e.Completes e.finish Config.endMarker where
  done := rfl
  byteCount := rfl
  emits := e.finish_emits
  fits := by
    have hbound := h.opos_bound
    show e.opos.toNat + 8 < 2 ^ 32
    omega
  decodes := fun _ hd => hd.finish h hlast

/-- A pixel step puts its own bytes before those of the steps after it. -/
theorem Enc.Completes.of_pixel {e f : Enc} {cur : Pixel} {bs : List Byte} (hf : (e.pixel cur).Completes f bs)
    (h : e.BodyInv) (hrun : e.run.toNat ≤ 61) (hlt : e.pxpos.toNat < e.pixels) (hfetch : e.fetch = some cur) :
    e.Completes f (e.emittedBytes cur ++ bs) := by
  have hbound := h.opos_bound
  have hlen := e.length_emittedBytes_le cur
  have hemits := e.pixel_emits cur (by omega)
  refine ⟨hf.done, hf.byteCount, hemits.trans hf.emits (by omega), ?_, fun d hd => ?_⟩
  · have hfits := hf.fits
    rw [hemits.opos, toNat_cursorAdd (by omega)] at hfits
    rw [List.length_append]
    omega
  · obtain ⟨d₁, hreach, hfollows⟩ := hd.pixel hrun hlt (Enc.hasPixel_of_fetch h.channels_legal hfetch)
    obtain ⟨d₂, hreach', himage⟩ := hf.decodes d₁ hfollows
    exact ⟨d₂, hreach.trans hreach', himage.of_pixel⟩

/-- A running encode operation with `m` pixels missing completes in `m + 1` steps. -/
theorem exists_completes_of_running (m : Nat) (s : State) (hd : s.dec.action = none) (h : s.enc.Running)
    (hbody : s.enc.BodyInv) (hrun : s.enc.run.toNat ≤ 61) (hm : s.enc.pixels = s.enc.pxpos.toNat + m) :
    ∃ s' bs, runs (m + 1) s s' ∧ s.enc.Completes s'.enc bs := by
  induction m generalizing s with
  | zero =>
    obtain ⟨ha, he⟩ := h.step_finish hm.symm
    exact ⟨_, _, runs_one (step_of_enc hd ha he), Enc.completes_finish hbody hm.symm⟩
  | succ m ih =>
    have hlt : s.enc.pxpos.toNat < s.enc.pixels := by omega
    obtain ⟨ha, -⟩ := h.step_pixel hlt
    obtain ⟨cur, hfetch⟩ := h.fetches hlt
    have hs : step s = .next ({ s with enc := s.enc.pixel cur }).passTurn :=
      (step_of_mover_enc (State.mover_of_enc ha hd)).trans (congrArg passTurn (encStep_of_fetch ha hfetch))
    have hpx : (s.enc.pixel cur).pxpos.toNat = s.enc.pxpos.toNat + 1 := by
      have := hbody.pixels_le
      rw [Enc.pixel_pxpos, toNat_cursorAdd (by omega)]
    have hpixels : (s.enc.pixel cur).pixels = s.enc.pixels := by
      rw [Enc.pixel_frame]
      rfl
    obtain ⟨s', bs, hr, hcompletes⟩ := ih ({ s with enc := s.enc.pixel cur }).passTurn hd (h.pixel cur)
      (hbody.pixel hrun hlt hfetch) (Enc.toNat_run_pixel_le hrun cur) (by
        simp only [State.passTurn_enc, hpixels, hpx]
        omega)
    exact ⟨s', _, runs_succ_iff.2 ⟨_, hs, hr⟩, hcompletes.of_pixel hbody hrun hlt hfetch⟩

/-! #### The header -/

/-- All the bytes of the operation that a start step begins stand in STRM_OUT below BYTE_COUNT, the header first
(R223, R227). -/
theorem Enc.Completes.stream {e f : Enc} {bs : List Byte} (h : e.begin.Completes f bs) :
    f.byteCount.toNat = 14 + bs.length ∧
      Memory.readBytes f.strmOut 0 14 = some (encode (.header e.width e.height e.channels e.colorspace)) ∧
      Memory.readBytes f.strmOut 14 bs.length = some bs := by
  have hopos : e.begin.opos.toNat = 14 := rfl
  have hfits := h.fits
  refine ⟨?_, ?_, h.emits.bytes⟩
  · rw [h.byteCount, h.emits.opos, toNat_cursorAdd hfits, hopos]
  · rw [← e.begin_readBytes]
    exact Memory.readBytes_congr fun i hi => h.emits.otherBytes (0 + i) (.inl (by omega))

/-- DEC's start step on a header that ENC's start step wrote follows ENC (R232, R291). -/
theorem Dec.follows_begin {d : Dec} {e : Enc} {rest : List Byte} (accepted : e.startCheck = none)
    (ha : d.action = some .start) (hreq : d.reqch = 0 ∨ d.reqch = e.channels)
    (hheader : Memory.readBytes d.strmIn 0 14 = some (encode (.header e.width e.height e.channels e.colorspace)))
    (hrest : Memory.readBytes d.strmIn 14 rest.length = some rest) (hlen : d.inLen.toNat = 14 + rest.length) :
    ∃ d', d.Reaches d' ∧ d'.Follows e.begin rest := by
  obtain ⟨-, -, hdescriptor, -⟩ := Enc.startCheck_eq_none.1 accepted
  obtain ⟨-, -, hc, -, -⟩ := descriptorCheck_eq_none.1 hdescriptor
  have hrequest : d.requestCheck = none :=
    Dec.requestCheck_eq_none.2 ⟨hreq.imp_right fun (h : d.reqch = _) => h ▸ hc, by omega⟩
  have hcheck := Dec.headerCheck_eq_none.2 ⟨hrequest, hdescriptor⟩
  have hdec : decodeHeader (encode (.header e.width e.height e.channels e.colorspace)) =
      .ok (.header e.width e.height e.channels e.colorspace, []) := decode_encode (i := .header ..) rfl
  have hoch : outputChannels e.channels d.reqch = e.channels := by
    unfold outputChannels
    split
    case isTrue => rfl
    case isFalse hown => exact hreq.resolve_left hown
  exact ⟨_, .of_step ((Dec.step_of_header ha hdec hheader).trans (Dec.start_of_accepted ha hcheck)),
    { busy := rfl
      inv := .begin hcheck (Dec.recordAt_of_decoded hheader hdec)
      width := rfl
      height := rfl
      channels := rfl
      colorspace := rfl
      och := hoch
      written := fun a ha => absurd ha (Nat.not_lt_zero a)
      lockstep := ⟨rfl, fun _ => .inl rfl, .inl ⟨rfl, rfl⟩⟩
      pxpos := rfl
      pending := fun i _ hi => absurd hi (Nat.not_lt_zero i)
      upcoming := ⟨hrest, hlen.ge⟩ }⟩

end Sys2Proof.Machine

/-- Settles O56: the header puts DEC on ENC's heels, every pixel step takes it along, and the marker finishes both. -/
theorem decodingAnEncodedImageGivesItBack : Obligations.DecodingAnEncodedImageGivesItBack := by
  intro s hd ha accepted placed
  have hs : step s = .next ({ s with enc := s.enc.begin }).passTurn :=
    (step_of_mover_enc (State.mover_of_enc ha hd)).trans (congrArg passTurn (encStep_of_accepted ha accepted))
  obtain ⟨s', bs, hr, hcompletes⟩ :=
    exists_completes_of_running s.enc.pixels ({ s with enc := s.enc.begin }).passTurn hd
      (.begin accepted placed) (.begin accepted) (Nat.zero_le _) (Nat.zero_add _).symm
  refine ⟨s', runs_succ_iff.2 ⟨_, hs, hr⟩, hcompletes.done, fun t he hta hlen hstrm hreq => ?_⟩
  obtain ⟨hcount, hheader, hbytes⟩ := Enc.Completes.stream hcompletes
  have hread {a n : Nat} (hn : a + n ≤ s'.enc.byteCount.toNat) :
      Memory.readBytes t.dec.strmIn a n = Memory.readBytes s'.enc.strmOut a n :=
    Memory.readBytes_congr fun i hi => hstrm (a + i) (by omega)
  obtain ⟨d₁, hreach, hfollows⟩ := Dec.follows_begin accepted hta hreq ((hread (by omega)).trans hheader)
    ((hread (by omega)).trans hbytes) (hlen ▸ hcount)
  obtain ⟨d₂, hreach', himage⟩ := hcompletes.decodes d₁ hfollows
  obtain ⟨k, t', hrun, rfl⟩ := exists_runs_of_reaches (hreach.trans hreach') he rfl
  exact ⟨k, t', hrun, himage.done, himage.width, himage.height, himage.channels, himage.colorspace, himage.och,
    himage.outLen, himage.pixels⟩

end

section

open Sys2Proof Sys2Proof.Machine

/-! ### O28: a wrong magic and a wrong end marker (43_framing.md R259, R261, R262) -/

namespace Sys2Proof

/-- A whole header without the magic is rejected for its magic (R259). -/
theorem decodeHeader_of_wrong_magic : ∀ {bs : List Byte}, bs.length = 14 → bs.take 4 ≠ Config.magic →
    decodeHeader bs = .error .badMagic
  | [_, _, _, _, _, _, _, _, _, _, _, _, _, _], _, hne => if_neg hne

/-- Eight bytes that are not the marker are rejected as such (R261). -/
theorem decodeMarker_of_wrong_marker : ∀ {bs : List Byte}, bs.length = 8 → bs ≠ Config.endMarker →
    decodeMarker bs = .error .badMarker
  | [_, _, _, _, _, _, _, _], _, hne => if_neg hne

end Sys2Proof

namespace Sys2Proof.Machine

/-- Bytes that the decoder rejects are fetched as the cause of the rejection. -/
theorem Dec.recordAt_of_rejected {d : Dec} {p : Position} {a n : Nat} {bs : List Byte} {x : DecodeError}
    (hread : Memory.readBytes d.strmIn a n = some bs) (hdec : decode p bs = .error x) :
    d.recordAt p a n = .fails (DecodeError.cause x) := by
  simp only [Dec.recordAt, hread, hdec]

/-- Checks 1 to 3 have passed, and check 4 finds another magic (R226). -/
theorem Dec.fetch_of_wrong_magic {d : Dec} {bs : List Byte} (ha : d.action = some .start) (hl : 14 ≤ d.inLen.toNat)
    (hreq : d.reqch = 0 ∨ d.reqch = 3 ∨ d.reqch = 4) (hread : Memory.readBytes d.strmIn 0 14 = some bs)
    (hne : bs.take 4 ≠ Config.magic) : d.fetch = some (.fails .badMagic) := by
  have hcheck : d.requestCheck = none := Dec.requestCheck_eq_none.2 ⟨hreq, hl⟩
  have hdec : decode .header bs = .error .badMagic :=
    decodeHeader_of_wrong_magic (Memory.readBytes_length hread) hne
  simp only [Dec.fetch, ha, Dec.fetchHeader, hcheck]
  exact congrArg some (Dec.recordAt_of_rejected hread hdec)

/-- The 8 bytes at IPOS lie within the stream and are not the marker (R228). -/
theorem Dec.fetch_of_wrong_marker {d : Dec} {bs : List Byte} (ha : d.action = some .finish)
    (hl : d.ipos.toNat + 8 ≤ d.inLen.toNat) (hread : Memory.readBytes d.strmIn d.ipos.toNat 8 = some bs)
    (hne : bs ≠ Config.endMarker) : d.fetch = some (.fails .endMarker) := by
  have hall : d.has Config.markerSize = true := decide_eq_true hl
  have hdec : decode .endMarker bs = .error .badMarker :=
    decodeMarker_of_wrong_marker (Memory.readBytes_length hread) hne
  simp only [Dec.fetch, ha, Dec.fetchMarker, hall, if_true]
  exact congrArg some (Dec.recordAt_of_rejected hread hdec)

end Sys2Proof.Machine

/-- Settles O28: DEC's fetch rejects the bytes, and a step whose fetch fails writes STATUS with the cause. -/
theorem wrongMagicAndWrongMarkerFail : Obligations.WrongMagicAndWrongMarkerFail := by
  intro s bs hm
  refine ⟨fun ha hl hreq hread hne => ?_, fun ha hl hread hne => ?_⟩
  · exact step_of_fetch_fails hm (Dec.fetch_of_wrong_magic ha hl hreq hread hne)
  · exact step_of_fetch_fails hm (Dec.fetch_of_wrong_marker ha hl hread hne)

end
